-- ==== Sys2Proof/Word.lean ====
section
/-! DEFINITION. Words and bytes, and the small fixed register files (three or four like things). -/

namespace Sys2Proof

/-- A word: 32 bits, bit 0 the least significant (00_scope.md R7). -/
abbrev Word := BitVec 32

/-- A byte of the host's byte view of the SCB (20_memory.md R73). -/
abbrev Byte := BitVec 8

/-- Three like things, indexed by axis: 0 roll, 1 pitch, 2 yaw. -/
structure Tri (α : Type) where
  t0 : α
  t1 : α
  t2 : α
  deriving DecidableEq, Repr

/-- Four like things, indexed by filter instance (0 roll, 1 pitch, 2 yaw, 3 thrust) or by motor. -/
structure Quad (α : Type) where
  q0 : α
  q1 : α
  q2 : α
  q3 : α
  deriving DecidableEq, Repr

namespace Tri

/-- The same value three times. -/
def fill {α : Type} (a : α) : Tri α := ⟨a, a, a⟩

/-- The entry of an axis. -/
def get {α : Type} (t : Tri α) (a : Fin 3) : α :=
  match a with
  | 0 => t.t0
  | 1 => t.t1
  | 2 => t.t2

/-- `t` with the entry of one axis replaced. -/
def set {α : Type} (t : Tri α) (a : Fin 3) (v : α) : Tri α :=
  match a with
  | 0 => { t with t0 := v }
  | 1 => { t with t1 := v }
  | 2 => { t with t2 := v }

end Tri

namespace Quad

/-- The same value four times. -/
def fill {α : Type} (a : α) : Quad α := ⟨a, a, a, a⟩

/-- The entry of an index. -/
def get {α : Type} (q : Quad α) (k : Fin 4) : α :=
  match k with
  | 0 => q.q0
  | 1 => q.q1
  | 2 => q.q2
  | 3 => q.q3

/-- `q` with the entry of one index replaced. -/
def set {α : Type} (q : Quad α) (k : Fin 4) (v : α) : Quad α :=
  match k with
  | 0 => { q with q0 := v }
  | 1 => { q with q1 := v }
  | 2 => { q with q2 := v }
  | 3 => { q with q3 := v }

/-- A function applied to each entry. -/
def map {α β : Type} (f : α → β) (q : Quad α) : Quad β := ⟨f q.q0, f q.q1, f q.q2, f q.q3⟩

end Quad

end Sys2Proof
end

