-- ==== Sys2Proof/Syntax.lean ====
section
/-! DEFINITION. The syntax: event codes, channels, the 63 rows of spec/opcode_table.json as `Instr`, and the
lines of a scenario (00_scope.md R12), which stands for a program on this hardware. -/

namespace Sys2Proof

/-- An event code, in the order of 30_encoding.md R101; codes 12 to 15 name no event (R102). -/
inductive Event where
  | none | motorStop | controllerStop | newData
  | controllerReady | motorReady | outputReady | setArmed
  | clearArmed | debug | sampleTick | pwmTick
  | reserved12 | reserved13 | reserved14 | reserved15
  deriving DecidableEq, Repr, Inhabited

/-- The two units that decode events (30_encoding.md R100). -/
inductive UnitId where
  | cu | mu
  deriving DecidableEq, Repr, Inhabited

/-- The four channels, two per unit (41_event_channel.md R140). -/
inductive Channel where
  | cuCtl | cuTick | muCtl | muTick
  deriving DecidableEq, Repr, Inhabited

/-- The unit that polls a channel (10_state.md R31, R32). -/
def Channel.owner : Channel → UnitId
  | .cuCtl | .cuTick => .cu
  | .muCtl | .muTick => .mu

/-- One `pid_config` entry, eight `fx` words in the order of 10_state.md R42. -/
structure PidCfg where
  kpa    : Word
  kpr    : Word
  ti     : Word
  td     : Word
  filter : Word
  kaw    : Word
  min    : Word
  max    : Word
  deriving DecidableEq, Repr

/-- The rows of spec/opcode_table.json. `cu…`: the CU's handlers in CU_ACTIVE (30_encoding.md R103). `await…`:
what CU_AWAIT does with a polled code (44_controller_unit.md R201, R202). `mu…`: the MU's handlers (R104).
`step…`: the step a unit's state register selects (R105). The last six: the operations of R106, with their operands. -/
inductive Instr where
  | cuNone | cuMotorStop | cuControllerStop | cuNewData
  | cuControllerReady | cuMotorReady | cuOutputReady | cuSetArmed
  | cuClearArmed | cuDebug | cuSampleTick | cuPwmTick
  | cuReserved12 | cuReserved13 | cuReserved14 | cuReserved15
  | awaitNone | awaitMotorStop | awaitControllerStop | awaitNewData
  | awaitControllerReady | awaitMotorReady | awaitOutputReady | awaitSetArmed
  | awaitClearArmed | awaitDebug | awaitSampleTick | awaitPwmTick
  | awaitReserved12 | awaitReserved13 | awaitReserved14 | awaitReserved15
  | muNone | muMotorStop | muControllerStop | muNewData
  | muControllerReady | muMotorReady | muOutputReady | muSetArmed
  | muClearArmed | muDebug | muSampleTick | muPwmTick
  | muReserved12 | muReserved13 | muReserved14 | muReserved15
  | stepCuHeld | stepCuAwait | stepCuConfig | stepCuActive
  | stepCuHalt | stepMuHeld | stepMuBoot | stepMuActive
  | stepMuHalt
  | poll (caller : UnitId) (ch : Channel)
  | raise (e : Event)
  | configure (k : Fin 4) (cfg : PidCfg) (period : Word)
  | run (k : Fin 4) (x : Word)
  | reset (k : Fin 4)
  | mix (t r p y : Word)
  deriving DecidableEq, Repr

/-- `CU_STATE`, this unit's program counter (10_state.md R30); codes 5 to 7 are never produced (log entry 20). -/
inductive CuState where
  | held | await | config | active | halt
  deriving DecidableEq, Repr, Inhabited

/-- `MU_STATE`, this unit's program counter (10_state.md R34). -/
inductive MuState where
  | held | boot | active | halt
  deriving DecidableEq, Repr, Inhabited

/-- Which rows decode an EVT word with unit bit 0: those of CU_ACTIVE or those of CU_AWAIT (30_encoding.md R100, R103). -/
inductive CuTable where
  | active | await
  deriving DecidableEq, Repr, Inhabited

/-- The three formats of 30_encoding.md R100. A word alone does not say its format: the decoder is told. -/
inductive Format where
  | evt (cu : CuTable)
  | state
  | uop
  deriving DecidableEq, Repr, Inhabited

/-- How much of a unit's work one line of a scenario does: a whole step (`CU: step`, `MU: step` of 00_scope.md
R12), the whole handler of the code it has just polled, or one atomic action (44_controller_unit.md R204). -/
inductive Grain where
  | whole | handler | action
  deriving DecidableEq, Repr, Inhabited

/-- A move of an agent: the host's (46_host_and_timers.md R271 to R278), the timers' (R281, R286), and the units'
own steps. `hostWriteAt` and `hostReadAt` are the host's accesses by byte address and width, of which only some
exist (20_memory.md R74). -/
inductive Move where
  | hostWrite (n : Nat) (v : Word)
  | hostRead (n : Nat)
  | hostWriteAt (addr bytes : Nat) (v : Word)
  | hostReadAt (addr bytes : Nat)
  | hostRaise (e : Event)
  | hostInject (ch : Channel) (e : Event)
  | hostAck (e : Event)
  | hostStart (u : UnitId)
  | hostReset
  | timerSFire
  | timerPAdvance (n : Nat)
  | unit (u : UnitId) (g : Grain)
  deriving DecidableEq, Repr, Inhabited

/-- One line of a scenario: a move, or an operation taken alone, `NAME(operands)` (00_scope.md R12), as the bytes
the decoder reads. -/
inductive Line where
  | move (m : Move)
  | op (bytes : List Byte)
  deriving DecidableEq, Repr

end Sys2Proof
end

