-- ==== Sys2Proof/WellFormed.lean ====
section
/-! DEFINITION. Well-formed instructions: POLL names a channel of the unit that executes it. Every other field's
type admits only values the spec gives. -/

namespace Sys2Proof

/-- "a unit cannot poll a channel it does not own; the host polls none" (41_event_channel.md R142). -/
def Instr.wf : Instr → Bool
  | .poll caller ch => decide (ch.owner = caller)
  | .raise _ | .configure _ _ _ | .run _ _ | .reset _ | .mix _ _ _ _
  | .cuNone | .cuMotorStop | .cuControllerStop | .cuNewData | .cuControllerReady
  | .cuMotorReady | .cuOutputReady | .cuSetArmed | .cuClearArmed | .cuDebug
  | .cuSampleTick | .cuPwmTick | .cuReserved12 | .cuReserved13 | .cuReserved14
  | .cuReserved15
  | .awaitNone | .awaitMotorStop | .awaitControllerStop | .awaitNewData | .awaitControllerReady
  | .awaitMotorReady | .awaitOutputReady | .awaitSetArmed | .awaitClearArmed | .awaitDebug
  | .awaitSampleTick | .awaitPwmTick | .awaitReserved12 | .awaitReserved13 | .awaitReserved14
  | .awaitReserved15
  | .muNone | .muMotorStop | .muControllerStop | .muNewData | .muControllerReady
  | .muMotorReady | .muOutputReady | .muSetArmed | .muClearArmed | .muDebug
  | .muSampleTick | .muPwmTick | .muReserved12 | .muReserved13 | .muReserved14
  | .muReserved15
  | .stepCuHeld | .stepCuAwait | .stepCuConfig | .stepCuActive | .stepCuHalt
  | .stepMuHeld | .stepMuBoot | .stepMuActive | .stepMuHalt => true

end Sys2Proof
end

