-- ==== Sys2Proof/Decode.lean ====
section
/-! DEFINITION. Decoding and encoding: the EVT, STATE and UOP formats of 30_encoding.md R100 to R106, and the
order of a word's bytes (20_memory.md R73). -/

namespace Sys2Proof

/-! ## Words and bytes -/

/-- Byte `i` of a word: bits `8i + 7` down to `8i`, little-endian (20_memory.md R73). -/
def byteOfWord (w : Word) (i : Nat) : Byte := w.extractLsb' (8 * i) 8

/-- The four bytes of a word, the least significant first (20_memory.md R73). -/
def wordBytes (w : Word) : List Byte := [byteOfWord w 0, byteOfWord w 1, byteOfWord w 2, byteOfWord w 3]

/-- The word of four bytes, the least significant first (20_memory.md R73). -/
def wordOfBytes (b0 b1 b2 b3 : Byte) : Word := b3 ++ b2 ++ b1 ++ b0

/-! ## Codes -/

/-- The unit bit: 0 the CU, 1 the MU (30_encoding.md R100). -/
def unitBit : UnitId → BitVec 1
  | .cu => 0
  | .mu => 1

/-- The event codes of 30_encoding.md R101. -/
def eventCode : Event → BitVec 4
  | .none => 0
  | .motorStop => 1
  | .controllerStop => 2
  | .newData => 3
  | .controllerReady => 4
  | .motorReady => 5
  | .outputReady => 6
  | .setArmed => 7
  | .clearArmed => 8
  | .debug => 9
  | .sampleTick => 10
  | .pwmTick => 11
  | .reserved12 => 12
  | .reserved13 => 13
  | .reserved14 => 14
  | .reserved15 => 15

/-- The event a code stands for (30_encoding.md R101, R102). -/
def eventOfCode (c : BitVec 4) : Event :=
  match c.toNat with
  | 0 => .none
  | 1 => .motorStop
  | 2 => .controllerStop
  | 3 => .newData
  | 4 => .controllerReady
  | 5 => .motorReady
  | 6 => .outputReady
  | 7 => .setArmed
  | 8 => .clearArmed
  | 9 => .debug
  | 10 => .sampleTick
  | 11 => .pwmTick
  | 12 => .reserved12
  | 13 => .reserved13
  | 14 => .reserved14
  | _ => .reserved15

/-- The codes of `CU_STATE` (10_state.md R30). -/
def cuStateCode : CuState → BitVec 3
  | .held => 0
  | .await => 1
  | .config => 2
  | .active => 3
  | .halt => 4

/-- The codes of `MU_STATE`, two bits zero-extended to three (10_state.md R34, 30_encoding.md R100). -/
def muStateCode : MuState → BitVec 3
  | .held => 0
  | .boot => 1
  | .active => 2
  | .halt => 3

/-- An EVT word: bit 4 the unit, bits 3:0 the code (30_encoding.md R100). -/
def evtWord (u : UnitId) (e : Event) : Byte := (unitBit u ++ eventCode e).setWidth 8

/-- The CU's STATE word: bit 3 the unit, bits 2:0 the state (30_encoding.md R100). -/
def cuStateWord (st : CuState) : Byte := (unitBit .cu ++ cuStateCode st).setWidth 8

/-- The MU's STATE word (30_encoding.md R100). -/
def muStateWord (st : MuState) : Byte := (unitBit .mu ++ muStateCode st).setWidth 8

/-- The channels' codes in POLL's operand byte: this model's own (log entry 10). -/
def channelCode : Channel → BitVec 2
  | .cuCtl => 0
  | .cuTick => 1
  | .muCtl => 2
  | .muTick => 3

/-- The channel of a code (log entry 10). -/
def channelOfCode (c : BitVec 2) : Channel :=
  match c.toNat with
  | 0 => .cuCtl
  | 1 => .cuTick
  | 2 => .muCtl
  | _ => .muTick

/-! ## The dispatch rows -/

/-- The CU's rows in CU_ACTIVE (30_encoding.md R103). -/
def cuActiveRow : Event → Instr
  | .none => .cuNone
  | .motorStop => .cuMotorStop
  | .controllerStop => .cuControllerStop
  | .newData => .cuNewData
  | .controllerReady => .cuControllerReady
  | .motorReady => .cuMotorReady
  | .outputReady => .cuOutputReady
  | .setArmed => .cuSetArmed
  | .clearArmed => .cuClearArmed
  | .debug => .cuDebug
  | .sampleTick => .cuSampleTick
  | .pwmTick => .cuPwmTick
  | .reserved12 => .cuReserved12
  | .reserved13 => .cuReserved13
  | .reserved14 => .cuReserved14
  | .reserved15 => .cuReserved15

/-- The CU's rows in CU_AWAIT (30_encoding.md R103, last sentence). -/
def cuAwaitRow : Event → Instr
  | .none => .awaitNone
  | .motorStop => .awaitMotorStop
  | .controllerStop => .awaitControllerStop
  | .newData => .awaitNewData
  | .controllerReady => .awaitControllerReady
  | .motorReady => .awaitMotorReady
  | .outputReady => .awaitOutputReady
  | .setArmed => .awaitSetArmed
  | .clearArmed => .awaitClearArmed
  | .debug => .awaitDebug
  | .sampleTick => .awaitSampleTick
  | .pwmTick => .awaitPwmTick
  | .reserved12 => .awaitReserved12
  | .reserved13 => .awaitReserved13
  | .reserved14 => .awaitReserved14
  | .reserved15 => .awaitReserved15

/-- The MU's rows in MU_ACTIVE (30_encoding.md R104). -/
def muRow : Event → Instr
  | .none => .muNone
  | .motorStop => .muMotorStop
  | .controllerStop => .muControllerStop
  | .newData => .muNewData
  | .controllerReady => .muControllerReady
  | .motorReady => .muMotorReady
  | .outputReady => .muOutputReady
  | .setArmed => .muSetArmed
  | .clearArmed => .muClearArmed
  | .debug => .muDebug
  | .sampleTick => .muSampleTick
  | .pwmTick => .muPwmTick
  | .reserved12 => .muReserved12
  | .reserved13 => .muReserved13
  | .reserved14 => .muReserved14
  | .reserved15 => .muReserved15

/-! ## Decoding -/

/-- Why bytes decode to no instruction. -/
inductive DecodeError where
  /-- There is no byte to decode. -/
  | noBytes
  /-- A bit above the format's width is 1 (30_encoding.md R100). -/
  | highBits
  /-- A state code that no unit has (30_encoding.md R105; 93_implementation_defined.md U8). -/
  | reservedState
  /-- Operation numbers 6 and 7 are unused (30_encoding.md R106). -/
  | reservedOp
  /-- An operand byte out of its range (log entry 10). -/
  | badOperand
  /-- The operand bytes end too soon (log entry 10). -/
  | truncated
  deriving DecidableEq, Repr

/-- An EVT word: the unit bit picks the unit's rows, the code the row (30_encoding.md R100, R103, R104). -/
def decodeEvt (t : CuTable) (b : Byte) : Except DecodeError Instr :=
  if b.toNat < 32 then
    let e := eventOfCode (b.extractLsb' 0 4)
    if b.getLsbD 4 then .ok (muRow e)
    else match t with
      | .active => .ok (cuActiveRow e)
      | .await => .ok (cuAwaitRow e)
  else .error .highBits

/-- A STATE word (30_encoding.md R105). -/
def decodeState (b : Byte) : Except DecodeError Instr :=
  if b.toNat < 16 then
    match b.toNat with
    | 0 => .ok .stepCuHeld
    | 1 => .ok .stepCuAwait
    | 2 => .ok .stepCuConfig
    | 3 => .ok .stepCuActive
    | 4 => .ok .stepCuHalt
    | 8 => .ok .stepMuHeld
    | 9 => .ok .stepMuBoot
    | 10 => .ok .stepMuActive
    | 11 => .ok .stepMuHalt
    | _ => .error .reservedState
  else .error .highBits

/-- `n` operand words, each four bytes, the least significant first (log entry 10). -/
def takeWords : Nat → List Byte → Except DecodeError (List Word × List Byte)
  | 0, bs => .ok ([], bs)
  | n + 1, b0 :: b1 :: b2 :: b3 :: bs =>
    match takeWords n bs with
    | .ok (ws, rest) => .ok (wordOfBytes b0 b1 b2 b3 :: ws, rest)
    | .error e => .error e
  | _ + 1, _ => .error .truncated

/-- An instance number, one operand byte 0 to 3 (log entry 10). -/
def takeIndex : List Byte → Except DecodeError (Fin 4 × List Byte)
  | b :: rest => if h : b.toNat < 4 then .ok (⟨b.toNat, h⟩, rest) else .error .badOperand
  | [] => .error .truncated

/-- POLL's operand byte: bit 2 the caller, bits 1:0 the channel, which must be the caller's (log entry 10). -/
def takePoll : List Byte → Except DecodeError (Instr × List Byte)
  | b :: rest =>
    let caller : UnitId := if b.getLsbD 2 then .mu else .cu
    let ch := channelOfCode (b.extractLsb' 0 2)
    if b.toNat < 8 ∧ ch.owner = caller then .ok (.poll caller ch, rest) else .error .badOperand
  | [] => .error .truncated

/-- RAISE's operand byte: an event code 0 to 15 (41_event_channel.md R145; log entry 10). -/
def takeRaise : List Byte → Except DecodeError (Instr × List Byte)
  | b :: rest => if b.toNat < 16 then .ok (.raise (eventOfCode (b.extractLsb' 0 4)), rest) else .error .badOperand
  | [] => .error .truncated

/-- CONFIGURE's operands: `k`, the eight words of `cfg`, `T` (30_encoding.md R106; log entry 10). -/
def takeConfigure (bs : List Byte) : Except DecodeError (Instr × List Byte) :=
  match takeIndex bs with
  | .error e => .error e
  | .ok (k, bs) =>
    match takeWords 9 bs with
    | .ok ([kpa, kpr, ti, td, filter, kaw, min, max, period], rest) =>
      .ok (.configure k ⟨kpa, kpr, ti, td, filter, kaw, min, max⟩ period, rest)
    | .ok _ => .error .truncated
    | .error e => .error e

/-- RUN's operands: `k`, `x` (30_encoding.md R106; log entry 10). -/
def takeRun (bs : List Byte) : Except DecodeError (Instr × List Byte) :=
  match takeIndex bs with
  | .error e => .error e
  | .ok (k, bs) =>
    match takeWords 1 bs with
    | .ok ([x], rest) => .ok (.run k x, rest)
    | .ok _ => .error .truncated
    | .error e => .error e

/-- RESET's operand: `k` (30_encoding.md R106; log entry 10). -/
def takeReset (bs : List Byte) : Except DecodeError (Instr × List Byte) :=
  match takeIndex bs with
  | .ok (k, rest) => .ok (.reset k, rest)
  | .error e => .error e

/-- MIX's operands: `t`, `r`, `p`, `y` (30_encoding.md R106; log entry 10). -/
def takeMix (bs : List Byte) : Except DecodeError (Instr × List Byte) :=
  match takeWords 4 bs with
  | .ok ([t, r, p, y], rest) => .ok (.mix t r p y, rest)
  | .ok _ => .error .truncated
  | .error e => .error e

/-- A UOP word, the operation's number, and its operand bytes (30_encoding.md R106). -/
def decodeUop (b : Byte) (bs : List Byte) : Except DecodeError (Instr × List Byte) :=
  if b.toNat < 8 then
    match b.toNat with
    | 0 => takePoll bs
    | 1 => takeRaise bs
    | 2 => takeConfigure bs
    | 3 => takeRun bs
    | 4 => takeReset bs
    | 5 => takeMix bs
    | _ => .error .reservedOp
  else .error .highBits

/-- The instruction that bytes of a format begin with, and the bytes after it; total, refusing by name. -/
def decode (f : Format) (bs : List Byte) : Except DecodeError (Instr × List Byte) :=
  match bs with
  | [] => .error .noBytes
  | b :: rest =>
    match f with
    | .evt t => (decodeEvt t b).map (·, rest)
    | .state => (decodeState b).map (·, rest)
    | .uop => decodeUop b rest

/-! ## Encoding -/

/-- The number of an operation (30_encoding.md R106). -/
def uopWord (op : BitVec 3) : Byte := op.setWidth 8

/-- An instance number as an operand byte (log entry 10). -/
def indexByte (k : Fin 4) : Byte := BitVec.ofNat 8 k.val

/-- The bytes of an instruction. -/
def encode : Instr → List Byte
  | .cuNone => [evtWord .cu .none]
  | .cuMotorStop => [evtWord .cu .motorStop]
  | .cuControllerStop => [evtWord .cu .controllerStop]
  | .cuNewData => [evtWord .cu .newData]
  | .cuControllerReady => [evtWord .cu .controllerReady]
  | .cuMotorReady => [evtWord .cu .motorReady]
  | .cuOutputReady => [evtWord .cu .outputReady]
  | .cuSetArmed => [evtWord .cu .setArmed]
  | .cuClearArmed => [evtWord .cu .clearArmed]
  | .cuDebug => [evtWord .cu .debug]
  | .cuSampleTick => [evtWord .cu .sampleTick]
  | .cuPwmTick => [evtWord .cu .pwmTick]
  | .cuReserved12 => [evtWord .cu .reserved12]
  | .cuReserved13 => [evtWord .cu .reserved13]
  | .cuReserved14 => [evtWord .cu .reserved14]
  | .cuReserved15 => [evtWord .cu .reserved15]
  | .awaitNone => [evtWord .cu .none]
  | .awaitMotorStop => [evtWord .cu .motorStop]
  | .awaitControllerStop => [evtWord .cu .controllerStop]
  | .awaitNewData => [evtWord .cu .newData]
  | .awaitControllerReady => [evtWord .cu .controllerReady]
  | .awaitMotorReady => [evtWord .cu .motorReady]
  | .awaitOutputReady => [evtWord .cu .outputReady]
  | .awaitSetArmed => [evtWord .cu .setArmed]
  | .awaitClearArmed => [evtWord .cu .clearArmed]
  | .awaitDebug => [evtWord .cu .debug]
  | .awaitSampleTick => [evtWord .cu .sampleTick]
  | .awaitPwmTick => [evtWord .cu .pwmTick]
  | .awaitReserved12 => [evtWord .cu .reserved12]
  | .awaitReserved13 => [evtWord .cu .reserved13]
  | .awaitReserved14 => [evtWord .cu .reserved14]
  | .awaitReserved15 => [evtWord .cu .reserved15]
  | .muNone => [evtWord .mu .none]
  | .muMotorStop => [evtWord .mu .motorStop]
  | .muControllerStop => [evtWord .mu .controllerStop]
  | .muNewData => [evtWord .mu .newData]
  | .muControllerReady => [evtWord .mu .controllerReady]
  | .muMotorReady => [evtWord .mu .motorReady]
  | .muOutputReady => [evtWord .mu .outputReady]
  | .muSetArmed => [evtWord .mu .setArmed]
  | .muClearArmed => [evtWord .mu .clearArmed]
  | .muDebug => [evtWord .mu .debug]
  | .muSampleTick => [evtWord .mu .sampleTick]
  | .muPwmTick => [evtWord .mu .pwmTick]
  | .muReserved12 => [evtWord .mu .reserved12]
  | .muReserved13 => [evtWord .mu .reserved13]
  | .muReserved14 => [evtWord .mu .reserved14]
  | .muReserved15 => [evtWord .mu .reserved15]
  | .stepCuHeld => [cuStateWord .held]
  | .stepCuAwait => [cuStateWord .await]
  | .stepCuConfig => [cuStateWord .config]
  | .stepCuActive => [cuStateWord .active]
  | .stepCuHalt => [cuStateWord .halt]
  | .stepMuHeld => [muStateWord .held]
  | .stepMuBoot => [muStateWord .boot]
  | .stepMuActive => [muStateWord .active]
  | .stepMuHalt => [muStateWord .halt]
  | .poll caller ch => [uopWord 0, (unitBit caller ++ channelCode ch).setWidth 8]
  | .raise e => [uopWord 1, (eventCode e).setWidth 8]
  | .configure k c period =>
    uopWord 2 :: indexByte k :: (wordBytes c.kpa ++ wordBytes c.kpr ++ wordBytes c.ti ++ wordBytes c.td
      ++ wordBytes c.filter ++ wordBytes c.kaw ++ wordBytes c.min ++ wordBytes c.max ++ wordBytes period)
  | .run k x => uopWord 3 :: indexByte k :: wordBytes x
  | .reset k => [uopWord 4, indexByte k]
  | .mix t r p y => uopWord 5 :: (wordBytes t ++ wordBytes r ++ wordBytes p ++ wordBytes y)

/-- The format of an instruction's row. An MU row has the same word beside either CU table. -/
def formatOf : Instr → Format
  | .cuNone | .cuMotorStop | .cuControllerStop | .cuNewData | .cuControllerReady
  | .cuMotorReady | .cuOutputReady | .cuSetArmed | .cuClearArmed | .cuDebug
  | .cuSampleTick | .cuPwmTick | .cuReserved12 | .cuReserved13 | .cuReserved14
  | .cuReserved15 => .evt .active
  | .awaitNone | .awaitMotorStop | .awaitControllerStop | .awaitNewData | .awaitControllerReady
  | .awaitMotorReady | .awaitOutputReady | .awaitSetArmed | .awaitClearArmed | .awaitDebug
  | .awaitSampleTick | .awaitPwmTick | .awaitReserved12 | .awaitReserved13 | .awaitReserved14
  | .awaitReserved15 => .evt .await
  | .muNone | .muMotorStop | .muControllerStop | .muNewData | .muControllerReady
  | .muMotorReady | .muOutputReady | .muSetArmed | .muClearArmed | .muDebug
  | .muSampleTick | .muPwmTick | .muReserved12 | .muReserved13 | .muReserved14
  | .muReserved15 => .evt .active
  | .stepCuHeld | .stepCuAwait | .stepCuConfig | .stepCuActive | .stepCuHalt
  | .stepMuHeld | .stepMuBoot | .stepMuActive | .stepMuHalt => .state
  | .poll _ _ | .raise _ | .configure _ _ _ | .run _ _ | .reset _ | .mix _ _ _ _ => .uop

/-! ## The opcode table's words -/

/-- The format in which a bare word of the table is read: three bits UOP, four bits STATE, anything else EVT beside
the rows of CU_ACTIVE. The table's rows overlap, since a word does not say its format (log entry 10). -/
def tableFormat (nbits : Nat) : Format :=
  if nbits = 3 then .uop else if nbits = 4 then .state else .evt .active

/-- The bytes of a table word, bit 0 the least significant bit of the first byte, then operand bytes of zeros. -/
def tableBytes (nbits w : Nat) : List Byte :=
  (List.range 40).map fun i => BitVec.ofNat 8 ((w % (1 <<< nbits)) >>> (8 * i))

/-- The instruction the decoder reads from a word of spec/opcode_table.json. -/
def decodeTableWord (nbits w : Nat) : Option Instr :=
  match decode (tableFormat nbits) (tableBytes nbits w) with
  | .ok (i, _) => some i
  | .error _ => none

end Sys2Proof
end

