-- ==== Sys2Proof/Config.lean ====
section
/-! DEFINITION. The parameters of 00_scope.md R6 that a model takes as arguments, and the free values: constants with no
body, so that nothing in Lean can see a value of one. -/

namespace Sys2Proof.Config

/-- `SCB_WORDS`, the number of words of the SCB (00_scope.md R6). -/
abbrev scbWords : Nat := 55

/-- The parameters of 93_implementation_defined.md U12 and 00_scope.md R6, and whether the environment may `inject`
(U11). `numW` and `numF` are the width and the number of fraction bits of an `fx` (decision D1; log entry 5); `timeUnit`
is the unit of `period`, `ti` and `td`, in nanoseconds, which no rule reads (decision D3; log entry 15); `scbBase` is a
byte address, the others are PWM timer ticks. They are data of the machine that no step writes (log entry 4). -/
structure Params where
  numW      : Nat
  numF      : Nat
  timeUnit  : Nat
  dutyMin   : Word
  dutyMax   : Word
  dutyBase  : Word
  pwmPeriod : Word
  scbBase   : Nat
  mayInject : Bool
  deriving DecidableEq, Repr

/-- The values and defaults of 00_scope.md R6. SCB_BASE and TIME_UNIT have none there: 0 and 1 are this model's (log
entry 4). -/
def Params.default : Params where
  numW      := 32
  numF      := 16
  timeUnit  := 1
  dutyMin   := 1000
  dutyMax   := 2000
  dutyBase  := 1000
  pwmPeriod := 2500
  scbBase   := 0
  mayInject := true

/-- `0 <= DUTY_MIN <= DUTY_BASE <= DUTY_MAX < PWM_PERIOD <= 2^32 - 1` (00_scope.md R6), and SCB_BASE a multiple of
4, since the host's accesses are aligned (20_memory.md R74; log entry 13). -/
def Params.ok (p : Params) : Bool :=
  decide (p.dutyMin.toNat ≤ p.dutyBase.toNat) && decide (p.dutyBase.toNat ≤ p.dutyMax.toNat)
    && decide (p.dutyMax.toNat < p.pwmPeriod.toNat) && decide (p.scbBase % 4 = 0)

/-- An `fx` fits its 32-bit word or register and can hold the number 1.0, `ONE` (00_scope.md R7, R8; log entry 5). -/
def Params.fmtOk (p : Params) : Bool := decide (p.numF + 2 ≤ p.numW) && decide (p.numW ≤ 32)

/-- FREE VALUE: the words `cycle` and `stall` (`draw(u32)`, 44_controller_unit.md R213; log entry 7). -/
opaque freeWord : Nat → Word

/-- FREE VALUE: whether the new code replaces the old one at an overrun (41_event_channel.md R147; log entry 8). -/
opaque freePick : Nat → Bool

/-- FREE VALUE: the bytes of the SCB words a reset leaves unspecified (10_state.md R50), by the reset and the byte
offset (log entry 6). -/
opaque freeScbByte : Nat → Nat → Byte

/-- FREE VALUE: the next move, where the scenario fixes none (00_scope.md R3, R10; log entry 2). -/
opaque freeMove : Nat → Move

end Sys2Proof.Config
end

