-- ==== Sys2Proof/Machine/Arith.lean ====
section
/-! DEFINITION. Fixed-point arithmetic, 40_arithmetic.md R120 to R129: exact integers, brought back to a word by
`sat`, `clamp` or `clampDuty`. An `fx` operand is a word read by `fxInt`, a `u32` operand a word read as `toNat`
(30_encoding.md R107). The format is the parameters' (log entry 5). -/

namespace Sys2Proof.Machine

/-- `2 ^ NUM_F`, the number of units in the last place in 1.0 (40_arithmetic.md R120). -/
def fxScale (par : Config.Params) : Int := ((2 ^ par.numF : Nat) : Int)

/-- `FX_MAX`, the greatest raw value of NUM_W bits (40_arithmetic.md R120). -/
def fxMax (par : Config.Params) : Int := ((2 ^ (par.numW - 1) : Nat) : Int) - 1

/-- `FX_MIN`, the least raw value of NUM_W bits (40_arithmetic.md R120). -/
def fxMin (par : Config.Params) : Int := -((2 ^ (par.numW - 1) : Nat) : Int)

/-- `sext(raw)`: the raw value is the low NUM_W bits of the word (40_arithmetic.md R120, 00_scope.md R9). -/
def fxInt (par : Config.Params) (w : Word) : Int := (w.setWidth par.numW).toInt

/-- The word of a raw value, sign-extended. -/
def fxWord (v : Int) : Word := BitVec.ofInt 32 v

/-- `ONE`, the number 1.0 (00_scope.md R8). -/
def one (par : Config.Params) : Word := fxWord (fxScale par)

/-- The only way an integer becomes an `fx`: overflow saturates (40_arithmetic.md R121). -/
def sat (par : Config.Params) (v : Int) : Word :=
  fxWord (if v > fxMax par then fxMax par else if v < fxMin par then fxMin par else v)

/-- The greatest integer not above `v / 2^NUM_F` (40_arithmetic.md R122): `/` rounds toward minus infinity for a
positive divisor. -/
def floorShift (par : Config.Params) (v : Int) : Int := v / fxScale par

/-- 40_arithmetic.md R123. -/
def fxAdd (par : Config.Params) (a b : Word) : Word := sat par (fxInt par a + fxInt par b)

/-- 40_arithmetic.md R124. -/
def fxSub (par : Config.Params) (a b : Word) : Word := sat par (fxInt par a - fxInt par b)

/-- 40_arithmetic.md R125. -/
def fxMul (par : Config.Params) (a b : Word) : Word := sat par (floorShift par (fxInt par a * fxInt par b))

/-- The quotient rounds toward zero (40_arithmetic.md R126); a zero divisor gives `FX_MAX`, `FX_MIN` or 0 by the
sign of `a` (R127). -/
def fxDiv (par : Config.Params) (a b : Word) : Word :=
  if fxInt par b = 0 then
    fxWord (if fxInt par a > 0 then fxMax par else if fxInt par a < 0 then fxMin par else 0)
  else sat par (Int.tdiv (fxInt par a * fxScale par) (fxInt par b))

/-- The test against `hi` comes first (40_arithmetic.md R128). -/
def clamp (par : Config.Params) (u lo hi : Word) : Word :=
  if fxInt par u > fxInt par hi then hi else if fxInt par u < fxInt par lo then lo else u

/-- The saturating clamp to the hardware-valid duty-cycle range (40_arithmetic.md R129). -/
def clampDuty (par : Config.Params) (v : Int) : Word :=
  if v > (par.dutyMax.toNat : Int) then par.dutyMax
  else if v < (par.dutyMin.toNat : Int) then par.dutyMin
  else BitVec.ofInt 32 v

end Sys2Proof.Machine
end

