-- ==== Sys2Proof/Machine/State.lean ====
section
/-! DEFINITION. The state of the FCE as plain data (10_state.md R20), the model's own fields beside it, the state
after reset (R50), and the reasons to stop. -/

namespace Sys2Proof.Machine

/-- `FE[k].state` (10_state.md R24); code 3 is never produced (log entry 20). -/
inductive FeState where
  | unconfigured | ready | running
  deriving DecidableEq, Repr

/-- One filter-engine instance: seven derived registers, five history registers, the state (10_state.md R21, R22, R24). -/
structure FilterInst where
  c0    : Word
  c1    : Word
  c2    : Word
  ki    : Word
  kaw   : Word
  omin  : Word
  omax  : Word
  xp    : Word
  dp    : Word
  ip    : Word
  se0   : Word
  se1   : Word
  state : FeState
  deriving DecidableEq, Repr

/-- One thing for each of the four channels (10_state.md R31, R32, R39). -/
structure PerChannel (α : Type) where
  cuCtl  : α
  cuTick : α
  muCtl  : α
  muTick : α
  deriving DecidableEq, Repr

/-- `HOST_PEND[1..11]`, one sticky bit for each named event (10_state.md R35). -/
structure HostPend where
  motorStop       : Bool
  controllerStop  : Bool
  newData         : Bool
  controllerReady : Bool
  motorReady      : Bool
  outputReady     : Bool
  setArmed        : Bool
  clearArmed      : Bool
  debug           : Bool
  sampleTick      : Bool
  pwmTick         : Bool
  deriving DecidableEq, Repr

/-- The sampling timer interface, two bits (10_state.md R37). -/
structure SampleTimer where
  en   : Bool
  flag : Bool
  deriving DecidableEq, Repr

/-- The PWM timer interface (10_state.md R38). -/
structure PwmTimer where
  run  : Bool
  cnt  : Word
  flag : Bool
  deriving DecidableEq, Repr

/-- A word offset of the SCB, 0 to 54 (20_memory.md R71). -/
abbrev WordOff := Fin 55

/-- The register a unit's SCB read goes to (44_controller_unit.md R203, R216; 45_motor_unit.md R241, R246). -/
inductive Dest where
  | period
  | att (a : Fin 3)
  | rate (a : Fin 3)
  | thrust
  | duty (m : Fin 4)
  deriving DecidableEq, Repr

/-- What is still to do of a unit's step under way: the atomic actions of 44_controller_unit.md R204 and
45_motor_unit.md R242, and the local computation between them, in order. A value that exists only inside a step
(10_state.md R28) is carried by the actions that use it (log entry 3). -/
inductive Act where
  /-- POLL, then dispatch what it returns. -/
  | poll (ch : Channel)
  /-- The same, if the unit is still in its active state (R204, R242). -/
  | pollIfActive (ch : Channel)
  /-- Decode a polled code: local. -/
  | dispatch (e : Event)
  /-- RAISE. -/
  | raise (e : Event)
  /-- One MemRead into a register. -/
  | read (n : WordOff) (dst : Dest)
  /-- The next of the 32 reads of `pid_config`, after those already got (R203). -/
  | readCfg (got : List Word)
  /-- KPA and the four CONFIGURE, from the 32 words got: local (R203). -/
  | configure (cfg : List Word)
  /-- The read and test of `debug_mask` in the new-data handler (R216). -/
  | maskNewData
  /-- The read and test of `debug_mask` in the sample-tick handler, with the snapshot's writes (R210, R214). -/
  | maskSample (snap : List (WordOff × Word))
  /-- One MemWrite. -/
  | write (n : WordOff) (v : Word)
  /-- One MemWrite of `draw(u32)` (R213). -/
  | writeFree (n : WordOff)
  /-- The control computation: local (R211). -/
  | control
  /-- The four words of the idle baseline to publish: local (R218). -/
  | baseline
  /-- RESET of the four instances: local (R218). -/
  | resetFilters
  /-- The timer operations of 46_host_and_timers.md R280, R282 to R285, R288. -/
  | tmrSConfigure
  | tmrSEnable
  | tmrSDisable
  | tmrSClearFlag
  | tmrPConfigure
  | tmrPClearFlag
  /-- The GPIO operations (R289). -/
  | assertPins (mask : Word)
  | deassertPins (mask : Word)
  /-- The compare step, if the MU is still active (45_motor_unit.md R242). -/
  | compareIfActive
  /-- The read of the PWM counter for one motor, and the comparison (R249). -/
  | compareOne (m : Fin 4)
  /-- The move of a state register: local. -/
  | goCu (st : CuState)
  | goMu (st : MuState)
  deriving DecidableEq, Repr

/-- What an operation taken alone, or a host read, returned: the model's own record (log entry 9). -/
inductive Ret where
  | nothing
  | event (e : Event)
  | word (w : Word)
  | duties (out : Quad Word)
  deriving DecidableEq, Repr

/-- The whole state (10_state.md R20). From `par` on, the fields are the model's own (INVENTORY.md, State). -/
structure State where
  fe       : Quad FilterInst
  kpa      : Tri Word
  periodL  : Word
  wsAtt    : Tri Word
  wsRate   : Tri Word
  wsThrust : Word
  cuState  : CuState
  latch    : PerChannel Event
  duty     : Quad Word
  muState  : MuState
  hostPend : HostPend
  pin      : Quad Bool
  tmrS     : SampleTimer
  tmrP     : PwmTimer
  ovr      : PerChannel Bool
  mem      : List Host.Cell
  par      : Config.Params
  script   : List Line
  cuPend   : List Act
  muPend   : List Act
  ret      : Ret
  draws    : Nat
  scbSeed  : Nat
  deriving DecidableEq, Repr

/-- There is none: "No exception mechanism exists in this domain" (00_scope.md R9, 60_exceptions.md R300). What the
spec calls a fault is an event and its handler, and the machine goes on (60_exceptions.md R301 to R305, R319; log
entries 8 and 23). -/
inductive Fault where
  deriving DecidableEq, Repr

/-- Why the model gives an input no meaning. Every one is safe: the model stops where the spec names no effect. -/
inductive Refusal where
  /-- Raised by `exec` for an instruction without a meaning yet; safe. -/
  | notModelled (mnemonic : String)
  /-- Raised by a host access outside words 0 to 54 (20_memory.md R71, 93_implementation_defined.md U9); safe. -/
  | outsideScb
  /-- Raised by a host access that is not 32 bits wide (20_memory.md R74, U9); safe. -/
  | narrowAccess
  /-- Raised by a 32-bit host access off a word boundary (20_memory.md R74, U9); safe. -/
  | misaligned
  /-- Raised by a line that is no move of the spec: a `raise`, `inject`, `ack` or `advance` with an operand outside
  46_host_and_timers.md R273, R274, R275, R286; safe (log entry 14). -/
  | noSuchMove
  /-- Raised by `inject` where the parameter of 93_implementation_defined.md U11 is off; safe. -/
  | injectOff
  /-- Raised by a timer's move that is not enabled, "not enabled: no such move" (46_host_and_timers.md R281, R286;
  95_test_vectors.md HT-3, HT-4); safe. -/
  | notEnabled
  /-- Raised by RUN or RESET, taken alone, of an instance in FE_UNCONFIGURED (93_implementation_defined.md U7,
  "refuse"); safe. -/
  | unconfigured
  /-- Raised by POLL of a channel the caller does not own (41_event_channel.md R142); safe. -/
  | notOwner
  /-- Raised by a line whose bytes decode to no operation (30_encoding.md R106, 93_implementation_defined.md U8); safe. -/
  | undecodable
  deriving DecidableEq, Repr

/-- What a step and a meaning answer. -/
abbrev Out := Host.Outcome State Fault Refusal

/-- A filter instance after reset (10_state.md R50). -/
def FilterInst.reset : FilterInst where
  c0 := 0
  c1 := 0
  c2 := 0
  ki := 0
  kaw := 0
  omin := 0
  omax := 0
  xp := 0
  dp := 0
  ip := 0
  se0 := 0
  se1 := 0
  state := .unconfigured

/-- No host event pending. -/
def HostPend.clear : HostPend :=
  ⟨false, false, false, false, false, false, false, false, false, false, false⟩

/-- The table of 10_state.md R50, for a machine with the parameters `par`. Nothing is listed in `mem`: words 40 to 43
then read as DUTY_BASE and the other words as a free value (log entry 6). -/
def State.resetWith (par : Config.Params) : State where
  fe := .fill FilterInst.reset
  kpa := .fill 0
  periodL := 0
  wsAtt := .fill 0
  wsRate := .fill 0
  wsThrust := 0
  cuState := .held
  latch := ⟨.none, .none, .none, .none⟩
  duty := .fill par.dutyBase
  muState := .held
  hostPend := HostPend.clear
  pin := .fill false
  tmrS := ⟨false, false⟩
  tmrP := ⟨false, 0, false⟩
  ovr := ⟨false, false, false, false⟩
  mem := []
  par := par
  script := []
  cuPend := []
  muPend := []
  ret := .nothing
  draws := 0
  scbSeed := 0

/-- The machine right after reset (10_state.md R50, 70_reset_and_hazards.md R340), with the default parameters
(log entries 4 and 24). -/
def State.reset : State := State.resetWith Config.Params.default

end Sys2Proof.Machine
end

