-- ==== Sys2Proof/Machine/Flags.lean ====
section
/-! DEFINITION. The flags and marks: latches and overrun marks (41_event_channel.md), host pending bits, the bits of
`debug_mask`, and the armed flag. -/

namespace Sys2Proof.Machine

/-- The entry of a channel. -/
def PerChannel.get {α : Type} (p : PerChannel α) : Channel → α
  | .cuCtl => p.cuCtl
  | .cuTick => p.cuTick
  | .muCtl => p.muCtl
  | .muTick => p.muTick

/-- `p` with the entry of one channel replaced. -/
def PerChannel.set {α : Type} (p : PerChannel α) (ch : Channel) (v : α) : PerChannel α :=
  match ch with
  | .cuCtl => { p with cuCtl := v }
  | .cuTick => { p with cuTick := v }
  | .muCtl => { p with muCtl := v }
  | .muTick => { p with muTick := v }

/-- The named events, codes 1 to 11: those with a bit `HOST_PEND[e]` (10_state.md R35). -/
def eventNamed : Event → Bool
  | .motorStop | .controllerStop | .newData | .controllerReady | .motorReady | .outputReady | .setArmed
  | .clearArmed | .debug | .sampleTick | .pwmTick => true
  | .none | .reserved12 | .reserved13 | .reserved14 | .reserved15 => false

/-- `HOST_PEND[e]`; there is no such bit, and `false`, for `none` and the reserved codes. -/
def HostPend.get (p : HostPend) : Event → Bool
  | .motorStop => p.motorStop
  | .controllerStop => p.controllerStop
  | .newData => p.newData
  | .controllerReady => p.controllerReady
  | .motorReady => p.motorReady
  | .outputReady => p.outputReady
  | .setArmed => p.setArmed
  | .clearArmed => p.clearArmed
  | .debug => p.debug
  | .sampleTick => p.sampleTick
  | .pwmTick => p.pwmTick
  | .none | .reserved12 | .reserved13 | .reserved14 | .reserved15 => false

/-- `p` with `HOST_PEND[e]` written; unchanged where there is no such bit. -/
def HostPend.set (p : HostPend) (e : Event) (b : Bool) : HostPend :=
  match e with
  | .motorStop => { p with motorStop := b }
  | .controllerStop => { p with controllerStop := b }
  | .newData => { p with newData := b }
  | .controllerReady => { p with controllerReady := b }
  | .motorReady => { p with motorReady := b }
  | .outputReady => { p with outputReady := b }
  | .setArmed => { p with setArmed := b }
  | .clearArmed => { p with clearArmed := b }
  | .debug => { p with debug := b }
  | .sampleTick => { p with sampleTick := b }
  | .pwmTick => { p with pwmTick := b }
  | .none | .reserved12 | .reserved13 | .reserved14 | .reserved15 => p

/-- What a latch holds after a code `e` is set on it: an empty latch takes it; at an overrun it holds the old or the
new code, which one is free where they differ (41_event_channel.md R145, R147). -/
def latchAfter (old e : Event) (pickNew : Bool) : Event :=
  if old = .none ∨ old = e then e else if pickNew then e else old

/-- The overrun mark after a code is set on a latch: sticky, set when the latch was not empty (10_state.md R39). -/
def ovrAfter (old : Event) (mark : Bool) : Bool := mark || decide (old ≠ .none)

/-- The interrupt line of a channel is high exactly when its latch is not `none` (41_event_channel.md R140). -/
def lineHigh (s : State) (ch : Channel) : Bool := decide (s.latch.get ch ≠ .none)

/-- The CU is armed when `TMR_S.en` is 1 (10_state.md R37). -/
def armed (s : State) : Bool := s.tmrS.en

/-- `debug_mask` bit 0, `DBG_NEW_DATA` (10_state.md R45). -/
def dbgNewData (mask : Word) : Bool := mask.getLsbD 0

/-- `debug_mask` bit 1, `DBG_SAMPLE` (10_state.md R45). -/
def dbgSample (mask : Word) : Bool := mask.getLsbD 1

end Sys2Proof.Machine
end

