-- ==== Sys2Proof/Machine/Ops.lean ====
section
/-! DEFINITION. The named operations over memory and registers that every meaning shares: MemRead and MemWrite,
POLL and RAISE, the timers, the pins, and the two shutdown sequences of a protocol fault. -/

namespace Sys2Proof.Machine

/-- The outcome of `o`, and then of `f` at the state `o` answers. -/
def andThen (o : Out) (f : State → Out) : Out :=
  match o with
  | .next s => f s
  | .fault r => .fault r
  | .refused r => .refused r

/-! ## Memory: the SCB by byte offset -/

/-- What a byte that nothing has written since reset reads as, where the spec gives it: DUTY_BASE in words 40 to 43,
bytes 160 to 175 (10_state.md R44, R50), and no value elsewhere (log entry 6). -/
def Memory.unlisted (par : Config.Params) (a : Nat) : Option Byte :=
  if 160 ≤ a ∧ a < 176 then some (byteOfWord par.dutyBase (a % 4)) else none

/-- The listed byte of an offset. -/
def Memory.find (m : List Host.Cell) (a : Nat) : Option Byte :=
  match m with
  | [] => none
  | c :: rest => if c.1 = a then some c.2 else Memory.find rest a

/-- `m` with the byte of offset `a` listed, in rising order. -/
def Memory.insert (m : List Host.Cell) (a : Nat) (b : Byte) : List Host.Cell :=
  match m with
  | [] => [(a, b)]
  | c :: rest =>
    if a < c.1 then (a, b) :: c :: rest
    else if a = c.1 then (a, b) :: rest
    else c :: Memory.insert rest a b

/-- `m` with offset `a` no longer listed. -/
def Memory.erase (m : List Host.Cell) (a : Nat) : List Host.Cell :=
  match m with
  | [] => []
  | c :: rest => if c.1 = a then rest else c :: Memory.erase rest a

/-- Write one byte and keep the canonical form: a byte equal to what its unlisted offset reads as is not listed. -/
def Memory.setByte (par : Config.Params) (m : List Host.Cell) (a : Nat) (b : Byte) : List Host.Cell :=
  if Memory.unlisted par a = some b then Memory.erase m a else Memory.insert m a b

/-- The bytes `bs` written from offset `a` up. -/
def Memory.setBytes (par : Config.Params) (m : List Host.Cell) (a : Nat) : List Byte → List Host.Cell
  | [] => m
  | b :: bs => Memory.setBytes par (Memory.setByte par m a b) (a + 1) bs

/-- Offsets strictly rising, each at least `lo`. -/
def Memory.risingFrom (lo : Nat) : List Host.Cell → Bool
  | [] => true
  | c :: rest => decide (lo ≤ c.1) && Memory.risingFrom (c.1 + 1) rest

/-- The canonical form: offsets strictly rising, and no entry equal to what its unlisted offset reads as. -/
def Memory.wf (par : Config.Params) (m : List Host.Cell) : Bool :=
  Memory.risingFrom 0 m && m.all fun c => decide (Memory.unlisted par c.1 ≠ some c.2)

/-- Every listed offset lies in the SCB's 220 bytes (20_memory.md R71). -/
def Memory.inScb (m : List Host.Cell) : Bool := m.all fun c => decide (c.1 < 4 * Config.scbWords)

/-- The byte at an offset: what was last written, else the reset content, else a free value (20_memory.md R72,
10_state.md R50; log entry 6). -/
def readByte (a : Nat) (s : State) : Byte :=
  match Memory.find s.mem a with
  | some b => b
  | none =>
    match Memory.unlisted s.par a with
    | some b => b
    | none => Config.freeScbByte s.scbSeed a

/-- `MemRead(n, 4)` of a word offset (20_memory.md R72, R73). -/
def memRead (n : Nat) (s : State) : Word :=
  wordOfBytes (readByte (4 * n) s) (readByte (4 * n + 1) s) (readByte (4 * n + 2) s) (readByte (4 * n + 3) s)

/-- `MemWrite(n, 4, v)` of a word offset (20_memory.md R72, R73). -/
def memWrite (n : Nat) (v : Word) (s : State) : State :=
  { s with mem := Memory.setBytes s.par s.mem (4 * n) (wordBytes v) }

/-- `MemWrite(n, 4, draw(u32))` (44_controller_unit.md R213; log entry 7). -/
def memWriteFree (n : Nat) (s : State) : State :=
  { memWrite n (Config.freeWord s.draws) s with draws := s.draws + 1 }

/-- A group of single-word writes, in the order listed (20_memory.md R76). -/
def memWriteAll (ws : List (WordOff × Word)) (s : State) : State :=
  match ws with
  | [] => s
  | w :: rest => memWriteAll rest (memWrite w.1.val w.2 s)

/-! ## Event channels -/

/-- POLL: read the latch and clear it, one indivisible action (41_event_channel.md R142). -/
def pollChannel (ch : Channel) (s : State) : Event × State :=
  (s.latch.get ch, { s with latch := s.latch.set ch .none })

/-- A code set on a channel's latch, with the overrun rule of 41_event_channel.md R147. Only an overrun takes a free
value. -/
def latchSet (ch : Channel) (e : Event) (s : State) : State :=
  { s with
    latch := s.latch.set ch (latchAfter (s.latch.get ch) e (Config.freePick s.draws))
    ovr := s.ovr.set ch (ovrAfter (s.latch.get ch) (s.ovr.get ch))
    draws := if s.latch.get ch = .none then s.draws else s.draws + 1 }

/-- The unit channel of `route(e)`, where it has one (41_event_channel.md R146). -/
def routeChannel : Event → Option Channel
  | .motorStop | .outputReady => some .muCtl
  | .controllerStop | .newData | .motorReady | .setArmed | .clearArmed => some .cuCtl
  | .sampleTick => some .cuTick
  | .pwmTick => some .muTick
  | .none | .controllerReady | .debug | .reserved12 | .reserved13 | .reserved14 | .reserved15 => none

/-- Whether `route(e)` includes the host (41_event_channel.md R146). -/
def routeHost : Event → Bool
  | .controllerReady | .motorReady | .debug => true
  | .none | .motorStop | .controllerStop | .newData | .outputReady | .setArmed | .clearArmed | .sampleTick
  | .pwmTick | .reserved12 | .reserved13 | .reserved14 | .reserved15 => false

/-- `HOST_PEND[e] <- 1` (41_event_channel.md R145). -/
def hostSignal (e : Event) (s : State) : State := { s with hostPend := s.hostPend.set e true }

/-- RAISE: every destination of `route(e)` in one action (41_event_channel.md R145). `none` and the reserved codes
have an empty route. -/
def raiseEvent (e : Event) (s : State) : State :=
  let s1 := match routeChannel e with
    | some ch => latchSet ch e s
    | none => s
  if routeHost e then hostSignal e s1 else s1

/-! ## Timers and pins -/

/-- `TMR_S.configure(period)` "changes no state of the FCE" (46_host_and_timers.md R280). -/
def tmrSConfigure (_period : Word) (s : State) : State := s

/-- `TMR_S.enable()` (46_host_and_timers.md R282). -/
def tmrSEnable (s : State) : State := { s with tmrS := { s.tmrS with en := true } }

/-- `TMR_S.disable()` (46_host_and_timers.md R283). -/
def tmrSDisable (s : State) : State := { s with tmrS := { s.tmrS with en := false } }

/-- `TMR_S.clear_flag()` (46_host_and_timers.md R284). -/
def tmrSClearFlag (s : State) : State := { s with tmrS := { s.tmrS with flag := false } }

/-- `TMR_P.configure(PWM_PERIOD)` (46_host_and_timers.md R285). -/
def tmrPConfigure (s : State) : State := { s with tmrP := { s.tmrP with run := true, cnt := 0 } }

/-- `TMR_P.read()` (46_host_and_timers.md R287). -/
def tmrPRead (s : State) : Word := s.tmrP.cnt

/-- `TMR_P.clear_flag()` (46_host_and_timers.md R288). -/
def tmrPClearFlag (s : State) : State := { s with tmrP := { s.tmrP with flag := false } }

/-- `assert(m)`: the pins whose mask bit is 1; bits above bit 3 are ignored (46_host_and_timers.md R289, 10_state.md R36). -/
def assertPins (m : Word) (s : State) : State :=
  { s with pin := ⟨s.pin.q0 || m.getLsbD 0, s.pin.q1 || m.getLsbD 1, s.pin.q2 || m.getLsbD 2, s.pin.q3 || m.getLsbD 3⟩ }

/-- `deassert(m)` (46_host_and_timers.md R289). -/
def deassertPins (m : Word) (s : State) : State :=
  { s with pin := ⟨s.pin.q0 && !m.getLsbD 0, s.pin.q1 && !m.getLsbD 1, s.pin.q2 && !m.getLsbD 2, s.pin.q3 && !m.getLsbD 3⟩ }

/-! ## Faults: the fail-safe sequences -/

/-- The CU's shutdown sequence (44_controller_unit.md R221). -/
def cuShutdown (s : State) : State := { raiseEvent .controllerReady (tmrSDisable s) with cuState := .halt }

/-- The MU's exit sequence (45_motor_unit.md R250). -/
def muExit (s : State) : State := { raiseEvent .motorReady (deassertPins 0xF s) with muState := .halt }

/-- A protocol fault (60_exceptions.md R301, R310): it saves nothing, switches no mode and uses no vector; the CU
raises `motor-stop` and keeps looping (44_controller_unit.md R220), the MU leaves its loop (45_motor_unit.md R248).
There is no return from one (60_exceptions.md R311). -/
def takeProtocolFault (u : UnitId) (s : State) : State :=
  match u with
  | .cu => raiseEvent .motorStop s
  | .mu => muExit s

end Sys2Proof.Machine
end

