-- ==== Sys2Proof/Machine/Operands.lean ====
section
/-! DEFINITION. Where operands come from and results go: the fields of the SCB by name (10_state.md R40), the records
the units read and write whole, and the host's byte view (20_memory.md R73). -/

namespace Sys2Proof.Machine

/-- Word 0, `period` (10_state.md R41). -/
def offPeriod : Nat := 0

/-- Word `1 + 8k + j`: field `j` of `pid_config[k]` (10_state.md R40, R42). -/
def offCfg (k j : Nat) : Nat := 1 + 8 * k + j

/-- Word 44, `debug_mask` (10_state.md R45). -/
def offDebugMask : Nat := 44

/-- `pid_config[k]`, eight reads in ascending offset order (44_controller_unit.md R203). -/
def readCfgEntry (k : Fin 4) (s : State) : PidCfg where
  kpa := memRead (offCfg k 0) s
  kpr := memRead (offCfg k 1) s
  ti := memRead (offCfg k 2) s
  td := memRead (offCfg k 3) s
  filter := memRead (offCfg k 4) s
  kaw := memRead (offCfg k 5) s
  min := memRead (offCfg k 6) s
  max := memRead (offCfg k 7) s

/-- `pid_config[k]` out of the 32 words already read, in order (44_controller_unit.md R203). -/
def cfgOfWords (ws : List Word) (k : Nat) : PidCfg where
  kpa := ws.getD (8 * k) 0
  kpr := ws.getD (8 * k + 1) 0
  ti := ws.getD (8 * k + 2) 0
  td := ws.getD (8 * k + 3) 0
  filter := ws.getD (8 * k + 4) 0
  kaw := ws.getD (8 * k + 5) 0
  min := ws.getD (8 * k + 6) 0
  max := ws.getD (8 * k + 7) 0

/-- `odometry_input` into the working set, seven reads in ascending offset order (44_controller_unit.md R216). -/
def loadOdometry (s : State) : State :=
  { s with
    wsAtt := ⟨memRead 33 s, memRead 34 s, memRead 35 s⟩
    wsRate := ⟨memRead 36 s, memRead 37 s, memRead 38 s⟩
    wsThrust := memRead 39 s }

/-- A duty value read from the SCB, clamped again at the point of consumption (45_motor_unit.md R241, R246). -/
def readDuty (m : Fin 4) (s : State) : Word := clampDuty s.par ((memRead (40 + m.val) s).toNat : Int)

/-- `pid_output` into the duty registers, four reads in ascending offset order (45_motor_unit.md R241, R246). -/
def loadDuty (s : State) : State :=
  { s with duty := ⟨readDuty 0 s, readDuty 1 s, readDuty 2 s, readDuty 3 s⟩ }

/-- The writes of `pid_output[0..3]`, words 40 to 43 in that order (44_controller_unit.md R212). -/
def outputWrites (out : Quad Word) : List (WordOff × Word) :=
  [(40, out.q0), (41, out.q1), (42, out.q2), (43, out.q3)]

/-- The writes of `debug_snapshot[0..7]`, words 45 to 52 in that order (44_controller_unit.md R214). -/
def snapshotWrites (x y : Tri Word) (z phase : Word) : List (WordOff × Word) :=
  [(45, x.t0), (46, x.t1), (47, x.t2), (48, y.t0), (49, y.t1), (50, y.t2), (51, z), (52, phase)]

/-- The snapshot of the new-data phase (10_state.md R46). -/
def snapshotNewData (s : State) : List (WordOff × Word) := snapshotWrites s.wsAtt s.wsRate s.wsThrust 0

/-- The snapshot of the sample-tick phase (10_state.md R46). -/
def snapshotSample (sp : Tri Word) (u : Quad Word) : List (WordOff × Word) :=
  snapshotWrites sp ⟨u.q0, u.q1, u.q2⟩ u.q3 1

/-- The pin mask of one motor, `1 << m` (45_motor_unit.md R249). -/
def pinMask (m : Fin 4) : Word := 1 <<< m.val

/-- The pin mask of all four motors (30_encoding.md R107). -/
def allPins : Word := 0xF

/-- The host's byte view: the byte at `SCB_BASE + 4n + i` is byte `i` of word `n` (20_memory.md R73); no byte of the
FCE lies outside (R71). -/
def hostByte (addr : Nat) (s : State) : Option Byte :=
  if s.par.scbBase ≤ addr ∧ addr < s.par.scbBase + 4 * Config.scbWords then some (readByte (addr - s.par.scbBase) s)
  else none

end Sys2Proof.Machine
end

