-- ==== Sys2Proof/Machine/Engine.lean ====
section
/-! DEFINITION. The PID/IIR filter engine: CONFIGURE, RUN and RESET (42_filter_engine.md). -/

namespace Sys2Proof.Machine

/-- The three derivative-path coefficients, in the order and with the zero tests of 42_filter_engine.md R163 to R166. -/
def derivCoeffs (par : Config.Params) (cfg : PidCfg) (T : Word) : Tri Word :=
  let kp := cfg.kpr
  if fxInt par cfg.td = 0 then ⟨kp, 0, 0⟩
  else if fxInt par T = 0 then ⟨0, 0, 0⟩
  else
    let nt := fxMul par cfg.filter T
    let td2 := fxAdd par cfg.td cfg.td
    let den := fxAdd par nt td2
    let g := fxMul par td2 (fxAdd par (one par) cfg.filter)
    ⟨fxMul par kp (fxDiv par (fxAdd par nt g) den), fxMul par kp (fxDiv par (fxSub par nt g) den),
      fxDiv par (fxSub par nt td2) den⟩

/-- There is no integral path: `ti` or `T` is zero (42_filter_engine.md R166, R167). -/
def noIntegral (par : Config.Params) (cfg : PidCfg) (T : Word) : Bool :=
  decide (fxInt par cfg.ti = 0) || decide (fxInt par T = 0)

/-- The integral gain (42_filter_engine.md R166 to R168). -/
def integralGain (par : Config.Params) (cfg : PidCfg) (T : Word) : Word :=
  if noIntegral par cfg T then 0 else fxDiv par (fxMul par cfg.kpr T) (fxAdd par cfg.ti cfg.ti)

/-- The anti-windup gain (42_filter_engine.md R166 to R168). -/
def antiWindupGain (par : Config.Params) (cfg : PidCfg) (T : Word) : Word := if noIntegral par cfg T then 0 else cfg.kaw

/-- What CONFIGURE leaves in an instance, whatever it held (42_filter_engine.md R163, R169). -/
def feConfigure (par : Config.Params) (cfg : PidCfg) (T : Word) : FilterInst :=
  let c := derivCoeffs par cfg T
  { c0 := c.t0
    c1 := c.t1
    c2 := c.t2
    ki := integralGain par cfg T
    kaw := antiWindupGain par cfg T
    omin := cfg.min
    omax := cfg.max
    xp := 0
    dp := 0
    ip := 0
    se0 := 0
    se1 := 0
    state := .ready }

/-- RUN on one instance: its next contents and the output (42_filter_engine.md R170, steps 1 to 7). -/
def feRun (par : Config.Params) (f : FilterInst) (x : Word) : FilterInst × Word :=
  let n := fxInt par
  let d := sat par (floorShift par (n x * n f.c0 + n f.xp * n f.c1 - n f.dp * n f.c2))
  let ii := sat par (n x + floorShift par (n f.se0 * n f.kaw))
  let i := sat par (floorShift par (n f.ki * (n ii + n f.se1)) + n f.ip)
  let u := sat par (n d + n i)
  let y := clamp par u f.omin f.omax
  ({ f with se0 := fxSub par y u, se1 := ii, xp := x, dp := d, ip := i, state := .running }, y)

/-- RESET on one instance: the five history registers, nothing else (42_filter_engine.md R175). -/
def feReset (f : FilterInst) : FilterInst := { f with xp := 0, dp := 0, ip := 0, se0 := 0, se1 := 0 }

/-- RESET of the four instances (44_controller_unit.md R218). -/
def resetFilters (s : State) : State := { s with fe := s.fe.map feReset }

/-- The configuration step's local part: KPA from the `kpa` of entries 0 to 2, then CONFIGURE of the four instances
(44_controller_unit.md R203). -/
def configureAll (cfg : Quad PidCfg) (s : State) : State :=
  { s with
    kpa := ⟨cfg.q0.kpa, cfg.q1.kpa, cfg.q2.kpa⟩
    fe := cfg.map fun c => feConfigure s.par c s.periodL }

/-- CONFIGURE taken alone (30_encoding.md R106). -/
def execConfigure (k : Fin 4) (cfg : PidCfg) (period : Word) (s : State) : Out :=
  .next { s with fe := s.fe.set k (feConfigure s.par cfg period) }

/-- RUN taken alone: the output is returned. Refused on an unconfigured instance (93_implementation_defined.md U7). -/
def execRun (k : Fin 4) (x : Word) (s : State) : Out :=
  if (s.fe.get k).state = .unconfigured then .refused .unconfigured
  else
    let r := feRun s.par (s.fe.get k) x
    .next { s with fe := s.fe.set k r.1, ret := .word r.2 }

/-- RESET taken alone. Refused on an unconfigured instance (93_implementation_defined.md U7). -/
def execReset (k : Fin 4) (s : State) : Out :=
  if (s.fe.get k).state = .unconfigured then .refused .unconfigured
  else .next { s with fe := s.fe.set k (feReset (s.fe.get k)) }

end Sys2Proof.Machine
end

