-- ==== Sys2Proof/Machine/Mixer.lean ====
section
/-! DEFINITION. The motor mixer: MIX (43_motor_mixer.md). -/

namespace Sys2Proof.Machine

/-- One lane: the sum quantized once, the baseline added, the result clamped (43_motor_mixer.md R190). -/
def mixLane (par : Config.Params) (sum : Int) : Word := clampDuty par ((par.dutyBase.toNat : Int) + floorShift par sum)

/-- The four duty-cycle values of the commands thrust, roll, pitch, yaw (43_motor_mixer.md R190, R192). -/
def mixDuties (par : Config.Params) (t r p y : Word) : Quad Word :=
  let n := fxInt par
  ⟨mixLane par (n t + n r + n p + n y), mixLane par (n t - n r + n p - n y), mixLane par (n t + n r - n p - n y),
   mixLane par (n t - n r - n p + n y)⟩

/-- MIX taken alone: a pure function whose four results are returned (43_motor_mixer.md R190). -/
def execMix (t r p y : Word) (s : State) : Out := .next { s with ret := .duties (mixDuties s.par t r p y) }

end Sys2Proof.Machine
end

