-- ==== Sys2Proof/Machine/Controller.lean ====
section
/-! DEFINITION. The controller unit: its handlers in CU_ACTIVE, what CU_AWAIT does with a code, and its steps
(44_controller_unit.md). -/

namespace Sys2Proof.Machine

/-- Debug snapshot: eight writes, then RAISE(debug) (44_controller_unit.md R214). -/
def debugSnapshot (ws : List (WordOff × Word)) (s : State) : State := raiseEvent .debug (memWriteAll ws s)

/-- The new-data handler (44_controller_unit.md R216). -/
def cuNewData (s : State) : State :=
  let s1 := loadOdometry s
  if dbgNewData (memRead offDebugMask s1) then debugSnapshot (snapshotNewData s1) s1 else s1

/-- The rate setpoints, "attitude × outer gain per axis" (44_controller_unit.md R211). -/
def setpoints (s : State) : Tri Word :=
  ⟨fxMul s.par s.wsAtt.t0 s.kpa.t0, fxMul s.par s.wsAtt.t1 s.kpa.t1, fxMul s.par s.wsAtt.t2 s.kpa.t2⟩

/-- The inputs of the four filters: the rate errors of roll, pitch and yaw, and the thrust (44_controller_unit.md R211). -/
def filterInputs (s : State) : Quad Word :=
  let sp := setpoints s
  ⟨fxSub s.par sp.t0 s.wsRate.t0, fxSub s.par sp.t1 s.wsRate.t1, fxSub s.par sp.t2 s.wsRate.t2, s.wsThrust⟩

/-- The four RUNs: the instances share nothing, so their order cannot be observed (44_controller_unit.md R211). -/
def runFilters (s : State) : State × Quad Word :=
  let x := filterInputs s
  let r0 := feRun s.par s.fe.q0 x.q0
  let r1 := feRun s.par s.fe.q1 x.q1
  let r2 := feRun s.par s.fe.q2 x.q2
  let r3 := feRun s.par s.fe.q3 x.q3
  ({ s with fe := ⟨r0.1, r1.1, r2.1, r3.1⟩ }, ⟨r0.2, r1.2, r2.2, r3.2⟩)

/-- The duty values of the filters' outputs (44_controller_unit.md R210). -/
def mixOutputs (par : Config.Params) (u : Quad Word) : Quad Word := mixDuties par u.q3 u.q0 u.q1 u.q2

/-- The sample-tick handler (44_controller_unit.md R210 to R214). -/
def cuSampleTick (s : State) : State :=
  let s1 := tmrSClearFlag s
  let sp := setpoints s1
  let r := runFilters s1
  let s2 := memWriteAll (outputWrites (mixOutputs s1.par r.2)) r.1
  let s3 := raiseEvent .outputReady (memWriteFree 54 (memWriteFree 53 s2))
  if dbgSample (memRead offDebugMask s3) then debugSnapshot (snapshotSample sp r.2) s3 else s3

/-- The clear-armed handler (44_controller_unit.md R218). -/
def cuClearArmed (s : State) : State :=
  let s1 := memWriteAll (outputWrites (.fill s.par.dutyBase)) (tmrSDisable s)
  raiseEvent .outputReady (resetFilters s1)

/-! ## CU_ACTIVE: one meaning for each code -/

/-- `none` selects no handler: nothing is written, nothing is raised (44_controller_unit.md R222). -/
def execCuNone (s : State) : Out := .next s

/-- Code 1 is not expected in CU_ACTIVE: a protocol fault (44_controller_unit.md R220). -/
def execCuMotorStop (s : State) : Out := .next (takeProtocolFault .cu s)

/-- `controller-stop`: propagate the stop and keep looping (44_controller_unit.md R215). -/
def execCuControllerStop (s : State) : Out := .next (raiseEvent .motorStop s)

/-- `new-data`: copy the odometry, and take a debug snapshot if the mask selects this phase (44_controller_unit.md R216). -/
def execCuNewData (s : State) : Out := .next (cuNewData s)

/-- Code 4 is not expected in CU_ACTIVE: a protocol fault (44_controller_unit.md R220). -/
def execCuControllerReady (s : State) : Out := .next (takeProtocolFault .cu s)

/-- `motor-ready` in the active loop: shut down, armed or not (44_controller_unit.md R219, R221). -/
def execCuMotorReady (s : State) : Out := .next (cuShutdown s)

/-- Code 6 is not expected in CU_ACTIVE: a protocol fault (44_controller_unit.md R220). -/
def execCuOutputReady (s : State) : Out := .next (takeProtocolFault .cu s)

/-- `set-armed`: enable the sampling timer (44_controller_unit.md R217). -/
def execCuSetArmed (s : State) : Out := .next (tmrSEnable s)

/-- `clear-armed`: disarm (44_controller_unit.md R218). -/
def execCuClearArmed (s : State) : Out := .next (cuClearArmed s)

/-- Code 9 is not expected in CU_ACTIVE: a protocol fault (44_controller_unit.md R220). -/
def execCuDebug (s : State) : Out := .next (takeProtocolFault .cu s)

/-- `sample-tick`: the control computation and its publication (44_controller_unit.md R210). -/
def execCuSampleTick (s : State) : Out := .next (cuSampleTick s)

/-- Code 11 is not expected in CU_ACTIVE: a protocol fault (44_controller_unit.md R220). -/
def execCuPwmTick (s : State) : Out := .next (takeProtocolFault .cu s)

/-- Code 12 is not expected in CU_ACTIVE: a protocol fault (44_controller_unit.md R220). -/
def execCuReserved12 (s : State) : Out := .next (takeProtocolFault .cu s)

/-- Code 13 is not expected in CU_ACTIVE: a protocol fault (44_controller_unit.md R220). -/
def execCuReserved13 (s : State) : Out := .next (takeProtocolFault .cu s)

/-- Code 14 is not expected in CU_ACTIVE: a protocol fault (44_controller_unit.md R220). -/
def execCuReserved14 (s : State) : Out := .next (takeProtocolFault .cu s)

/-- Code 15 is not expected in CU_ACTIVE: a protocol fault (44_controller_unit.md R220). -/
def execCuReserved15 (s : State) : Out := .next (takeProtocolFault .cu s)

/-- The CU's dispatcher in CU_ACTIVE: the handler of the polled code (30_encoding.md R103). -/
def cuDispatch (e : Event) (s : State) : Out :=
  match e with
  | .none => execCuNone s
  | .motorStop => execCuMotorStop s
  | .controllerStop => execCuControllerStop s
  | .newData => execCuNewData s
  | .controllerReady => execCuControllerReady s
  | .motorReady => execCuMotorReady s
  | .outputReady => execCuOutputReady s
  | .setArmed => execCuSetArmed s
  | .clearArmed => execCuClearArmed s
  | .debug => execCuDebug s
  | .sampleTick => execCuSampleTick s
  | .pwmTick => execCuPwmTick s
  | .reserved12 => execCuReserved12 s
  | .reserved13 => execCuReserved13 s
  | .reserved14 => execCuReserved14 s
  | .reserved15 => execCuReserved15 s

/-! ## CU_AWAIT: one meaning for each code -/

/-- `none` in CU_AWAIT: keep waiting (44_controller_unit.md R201). -/
def execAwaitNone (s : State) : Out := .next s

/-- Code 1 in CU_AWAIT is discarded; the POLL has cleared it (44_controller_unit.md R202). -/
def execAwaitMotorStop (s : State) : Out := .next s

/-- Code 2 in CU_AWAIT is discarded; the POLL has cleared it (44_controller_unit.md R202). -/
def execAwaitControllerStop (s : State) : Out := .next s

/-- Code 3 in CU_AWAIT is discarded; the POLL has cleared it (44_controller_unit.md R202). -/
def execAwaitNewData (s : State) : Out := .next s

/-- Code 4 in CU_AWAIT is discarded; the POLL has cleared it (44_controller_unit.md R202). -/
def execAwaitControllerReady (s : State) : Out := .next s

/-- `motor-ready` ends the wait (44_controller_unit.md R201). -/
def execAwaitMotorReady (s : State) : Out := .next { raiseEvent .controllerReady s with cuState := .config }

/-- Code 6 in CU_AWAIT is discarded; the POLL has cleared it (44_controller_unit.md R202). -/
def execAwaitOutputReady (s : State) : Out := .next s

/-- Code 7 in CU_AWAIT is discarded; the POLL has cleared it (44_controller_unit.md R202). -/
def execAwaitSetArmed (s : State) : Out := .next s

/-- Code 8 in CU_AWAIT is discarded; the POLL has cleared it (44_controller_unit.md R202). -/
def execAwaitClearArmed (s : State) : Out := .next s

/-- Code 9 in CU_AWAIT is discarded; the POLL has cleared it (44_controller_unit.md R202). -/
def execAwaitDebug (s : State) : Out := .next s

/-- Code 10 in CU_AWAIT is discarded; the POLL has cleared it (44_controller_unit.md R202). -/
def execAwaitSampleTick (s : State) : Out := .next s

/-- Code 11 in CU_AWAIT is discarded; the POLL has cleared it (44_controller_unit.md R202). -/
def execAwaitPwmTick (s : State) : Out := .next s

/-- Code 12 in CU_AWAIT is discarded; the POLL has cleared it (44_controller_unit.md R202). -/
def execAwaitReserved12 (s : State) : Out := .next s

/-- Code 13 in CU_AWAIT is discarded; the POLL has cleared it (44_controller_unit.md R202). -/
def execAwaitReserved13 (s : State) : Out := .next s

/-- Code 14 in CU_AWAIT is discarded; the POLL has cleared it (44_controller_unit.md R202). -/
def execAwaitReserved14 (s : State) : Out := .next s

/-- Code 15 in CU_AWAIT is discarded; the POLL has cleared it (44_controller_unit.md R202). -/
def execAwaitReserved15 (s : State) : Out := .next s

/-- What CU_AWAIT does with the polled code (44_controller_unit.md R201, R202). -/
def awaitDispatch (e : Event) (s : State) : Out :=
  match e with
  | .none => execAwaitNone s
  | .motorStop => execAwaitMotorStop s
  | .controllerStop => execAwaitControllerStop s
  | .newData => execAwaitNewData s
  | .controllerReady => execAwaitControllerReady s
  | .motorReady => execAwaitMotorReady s
  | .outputReady => execAwaitOutputReady s
  | .setArmed => execAwaitSetArmed s
  | .clearArmed => execAwaitClearArmed s
  | .debug => execAwaitDebug s
  | .sampleTick => execAwaitSampleTick s
  | .pwmTick => execAwaitPwmTick s
  | .reserved12 => execAwaitReserved12 s
  | .reserved13 => execAwaitReserved13 s
  | .reserved14 => execAwaitReserved14 s
  | .reserved15 => execAwaitReserved15 s

/-! ## The steps -/

/-- CU_HELD: the CU takes no step (44_controller_unit.md R200). -/
def execStepCuHeld (s : State) : Out := .next s

/-- CU_AWAIT: poll `CU.ctl` only (44_controller_unit.md R201). -/
def execStepCuAwait (s : State) : Out :=
  let r := pollChannel .cuCtl s
  awaitDispatch r.1 r.2

/-- CU_CONFIG: load period and configuration, configure the filters, enter the loop (44_controller_unit.md R203). -/
def execStepCuConfig (s : State) : Out :=
  let s1 := { s with periodL := memRead offPeriod s }
  let cfg : Quad PidCfg := ⟨readCfgEntry 0 s1, readCfgEntry 1 s1, readCfgEntry 2 s1, readCfgEntry 3 s1⟩
  .next { configureAll cfg (tmrSConfigure s1.periodL s1) with cuState := .active }

/-- CU_ACTIVE: one loop iteration, control-plane channel first; a handler that leaves the loop skips the tick channel
(44_controller_unit.md R204). -/
def execStepCuActive (s : State) : Out :=
  let r := pollChannel .cuCtl s
  andThen (cuDispatch r.1 r.2) fun s1 =>
    if s1.cuState = .active then
      let r2 := pollChannel .cuTick s1
      cuDispatch r2.1 r2.2
    else .next s1

/-- CU_HALT: the CU takes no step (44_controller_unit.md R223). -/
def execStepCuHalt (s : State) : Out := .next s

end Sys2Proof.Machine
end

