-- ==== Sys2Proof/Machine/Motor.lean ====
section
/-! DEFINITION. The motor unit: its handlers in MU_ACTIVE, the compare step, and its steps (45_motor_unit.md). -/

namespace Sys2Proof.Machine

/-- The compare step for one motor: the counter is read afresh, an unsigned compare (45_motor_unit.md R249). -/
def compareMotor (m : Fin 4) (s : State) : State :=
  if (s.duty.get m).toNat ≤ (tmrPRead s).toNat then deassertPins (pinMask m) s else s

/-- The compare step, motors 0 to 3 (45_motor_unit.md R249). -/
def compareStep (s : State) : State := compareMotor 3 (compareMotor 2 (compareMotor 1 (compareMotor 0 s)))

/-! ## MU_ACTIVE: one meaning for each code -/

/-- `none` selects no handler (45_motor_unit.md R251). -/
def execMuNone (s : State) : Out := .next s

/-- `motor-stop`: exit the loop (45_motor_unit.md R247, R250). -/
def execMuMotorStop (s : State) : Out := .next (muExit s)

/-- Code 2 is not expected in MU_ACTIVE: a protocol fault (45_motor_unit.md R248). -/
def execMuControllerStop (s : State) : Out := .next (takeProtocolFault .mu s)

/-- Code 3 is not expected in MU_ACTIVE: a protocol fault (45_motor_unit.md R248). -/
def execMuNewData (s : State) : Out := .next (takeProtocolFault .mu s)

/-- Code 4 is not expected in MU_ACTIVE: a protocol fault (45_motor_unit.md R248). -/
def execMuControllerReady (s : State) : Out := .next (takeProtocolFault .mu s)

/-- Code 5 is not expected in MU_ACTIVE: a protocol fault (45_motor_unit.md R248). -/
def execMuMotorReady (s : State) : Out := .next (takeProtocolFault .mu s)

/-- `output-ready`: copy the four duty values, clamped again (45_motor_unit.md R246). -/
def execMuOutputReady (s : State) : Out := .next (loadDuty s)

/-- Code 7 is not expected in MU_ACTIVE: a protocol fault (45_motor_unit.md R248). -/
def execMuSetArmed (s : State) : Out := .next (takeProtocolFault .mu s)

/-- Code 8 is not expected in MU_ACTIVE: a protocol fault (45_motor_unit.md R248). -/
def execMuClearArmed (s : State) : Out := .next (takeProtocolFault .mu s)

/-- Code 9 is not expected in MU_ACTIVE: a protocol fault (45_motor_unit.md R248). -/
def execMuDebug (s : State) : Out := .next (takeProtocolFault .mu s)

/-- Code 10 is not expected in MU_ACTIVE: a protocol fault (45_motor_unit.md R248). -/
def execMuSampleTick (s : State) : Out := .next (takeProtocolFault .mu s)

/-- `pwm-tick`: clear the compare flag, assert the four pins (45_motor_unit.md R245). -/
def execMuPwmTick (s : State) : Out := .next (assertPins allPins (tmrPClearFlag s))

/-- Code 12 is not expected in MU_ACTIVE: a protocol fault (45_motor_unit.md R248). -/
def execMuReserved12 (s : State) : Out := .next (takeProtocolFault .mu s)

/-- Code 13 is not expected in MU_ACTIVE: a protocol fault (45_motor_unit.md R248). -/
def execMuReserved13 (s : State) : Out := .next (takeProtocolFault .mu s)

/-- Code 14 is not expected in MU_ACTIVE: a protocol fault (45_motor_unit.md R248). -/
def execMuReserved14 (s : State) : Out := .next (takeProtocolFault .mu s)

/-- Code 15 is not expected in MU_ACTIVE: a protocol fault (45_motor_unit.md R248). -/
def execMuReserved15 (s : State) : Out := .next (takeProtocolFault .mu s)

/-- The MU's dispatcher in MU_ACTIVE: the handler of the polled code (30_encoding.md R104). -/
def muDispatch (e : Event) (s : State) : Out :=
  match e with
  | .none => execMuNone s
  | .motorStop => execMuMotorStop s
  | .controllerStop => execMuControllerStop s
  | .newData => execMuNewData s
  | .controllerReady => execMuControllerReady s
  | .motorReady => execMuMotorReady s
  | .outputReady => execMuOutputReady s
  | .setArmed => execMuSetArmed s
  | .clearArmed => execMuClearArmed s
  | .debug => execMuDebug s
  | .sampleTick => execMuSampleTick s
  | .pwmTick => execMuPwmTick s
  | .reserved12 => execMuReserved12 s
  | .reserved13 => execMuReserved13 s
  | .reserved14 => execMuReserved14 s
  | .reserved15 => execMuReserved15 s

/-! ## The steps -/

/-- MU_HELD: the MU takes no step (45_motor_unit.md R240). -/
def execStepMuHeld (s : State) : Out := .next s

/-- MU_BOOT: signal `motor-ready`, start the PWM timer, load the initial duty values (45_motor_unit.md R241). -/
def execStepMuBoot (s : State) : Out :=
  .next { loadDuty (tmrPConfigure (raiseEvent .motorReady s)) with muState := .active }

/-- MU_ACTIVE: one loop iteration, control-plane channel first; a handler that leaves the loop skips the rest
(45_motor_unit.md R242). -/
def execStepMuActive (s : State) : Out :=
  let r := pollChannel .muCtl s
  andThen (muDispatch r.1 r.2) fun s1 =>
    andThen
      (if s1.muState = .active then
        let r2 := pollChannel .muTick s1
        muDispatch r2.1 r2.2
      else .next s1)
      fun s2 => .next (if s2.muState = .active then compareStep s2 else s2)

/-- MU_HALT: the MU takes no step (45_motor_unit.md R251). -/
def execStepMuHalt (s : State) : Out := .next s

end Sys2Proof.Machine
end

