-- ==== Sys2Proof/Machine/Actions.lean ====
section
/-! DEFINITION. The atomic actions of a unit's step, one by one, so that any other agent can act between two of them
(44_controller_unit.md R204, 45_motor_unit.md R242, 70_reset_and_hazards.md R358; log entry 3). The whole steps and
handlers of Controller.lean and Motor.lean are the same actions with nothing between. -/

namespace Sys2Proof.Machine

/-- The actions left of a unit's step under way; none between two steps. -/
def pend (u : UnitId) (s : State) : List Act :=
  match u with
  | .cu => s.cuPend
  | .mu => s.muPend

/-- `s` with a unit's actions left replaced. -/
def setPend (u : UnitId) (acts : List Act) (s : State) : State :=
  match u with
  | .cu => { s with cuPend := acts }
  | .mu => { s with muPend := acts }

/-- A unit is in its polling loop. -/
def unitActive (u : UnitId) (s : State) : Bool :=
  match u with
  | .cu => decide (s.cuState = .active)
  | .mu => decide (s.muState = .active)

/-- Which rows the CU decodes a polled code by (30_encoding.md R100; log entry 22). -/
def cuTable (s : State) : CuTable := if s.cuState = .await then .await else .active

/-- A group of single-word writes, one action each (20_memory.md R76). -/
def writeActs (ws : List (WordOff × Word)) : List Act := ws.map fun w => .write w.1 w.2

/-- The four reads of `pid_output` (45_motor_unit.md R241, R246). -/
def dutyReadActs : List Act :=
  [.read 40 (.duty 0), .read 41 (.duty 1), .read 42 (.duty 2), .read 43 (.duty 3)]

/-- The actions a step begins with, by the unit's state register (30_encoding.md R105). -/
def beginActs (u : UnitId) (s : State) : List Act :=
  match u with
  | .cu =>
    match s.cuState with
    | .held | .halt => []
    | .await => [.poll .cuCtl]
    | .config => [.read 0 .period, .readCfg []]
    | .active => [.poll .cuCtl, .pollIfActive .cuTick]
  | .mu =>
    match s.muState with
    | .held | .halt => []
    | .boot => [.raise .motorReady, .tmrPConfigure] ++ dutyReadActs ++ [.goMu .active]
    | .active => [.poll .muCtl, .pollIfActive .muTick, .compareIfActive]

/-- The actions of the CU's handlers in CU_ACTIVE, in the order their rules write them (44_controller_unit.md R210 to R222). -/
def cuHandlerActs : Event → List Act
  | .none => []
  | .controllerStop => [.raise .motorStop]
  | .newData =>
    [.read 33 (.att 0), .read 34 (.att 1), .read 35 (.att 2), .read 36 (.rate 0), .read 37 (.rate 1),
     .read 38 (.rate 2), .read 39 .thrust, .maskNewData]
  | .motorReady => [.tmrSDisable, .raise .controllerReady, .goCu .halt]
  | .setArmed => [.tmrSEnable]
  | .clearArmed => [.tmrSDisable, .baseline, .resetFilters, .raise .outputReady]
  | .sampleTick => [.tmrSClearFlag, .control]
  | .motorStop | .controllerReady | .outputReady | .debug | .pwmTick | .reserved12 | .reserved13 | .reserved14
  | .reserved15 => [.raise .motorStop]

/-- The actions of what CU_AWAIT does with a code (44_controller_unit.md R201, R202). -/
def cuAwaitActs : Event → List Act
  | .motorReady => [.raise .controllerReady, .goCu .config]
  | .none | .motorStop | .controllerStop | .newData | .controllerReady | .outputReady | .setArmed | .clearArmed
  | .debug | .sampleTick | .pwmTick | .reserved12 | .reserved13 | .reserved14 | .reserved15 => []

/-- The actions of the MU's handlers (45_motor_unit.md R245 to R251). -/
def muHandlerActs : Event → List Act
  | .none => []
  | .outputReady => dutyReadActs
  | .pwmTick => [.tmrPClearFlag, .assertPins allPins]
  | .motorStop | .controllerStop | .newData | .controllerReady | .motorReady | .setArmed | .clearArmed | .debug
  | .sampleTick | .reserved12 | .reserved13 | .reserved14 | .reserved15 =>
    [.deassertPins allPins, .raise .motorReady, .goMu .halt]

/-- The actions of the handler a unit runs for a polled code. -/
def handlerActs (u : UnitId) (e : Event) (s : State) : List Act :=
  match u with
  | .cu =>
    match cuTable s with
    | .active => cuHandlerActs e
    | .await => cuAwaitActs e
  | .mu => muHandlerActs e

/-- A word read from the SCB goes to its register; a duty value is clamped (45_motor_unit.md R241, R246). -/
def storeRead (dst : Dest) (v : Word) (s : State) : State :=
  match dst with
  | .period => { s with periodL := v }
  | .att a => { s with wsAtt := s.wsAtt.set a v }
  | .rate a => { s with wsRate := s.wsRate.set a v }
  | .thrust => { s with wsThrust := v }
  | .duty m => { s with duty := s.duty.set m (clampDuty s.par (v.toNat : Int)) }

/-- One action: what it makes of the rest of the step (actions put in front), and the state after it. -/
def performAct (u : UnitId) (a : Act) (s : State) : List Act × State :=
  match a with
  | .poll ch =>
    let r := pollChannel ch s
    ([.dispatch r.1], r.2)
  | .pollIfActive ch =>
    if unitActive u s then
      let r := pollChannel ch s
      ([.dispatch r.1], r.2)
    else ([], s)
  | .dispatch e => (handlerActs u e s, s)
  | .raise e => ([], raiseEvent e s)
  | .read n dst => ([], storeRead dst (memRead n.val s) s)
  | .readCfg got =>
    let got' := got ++ [memRead (1 + got.length) s]
    if got'.length < 32 then ([.readCfg got'], s) else ([.tmrSConfigure, .configure got', .goCu .active], s)
  | .configure ws => ([], configureAll ⟨cfgOfWords ws 0, cfgOfWords ws 1, cfgOfWords ws 2, cfgOfWords ws 3⟩ s)
  | .maskNewData =>
    (if dbgNewData (memRead offDebugMask s) then writeActs (snapshotNewData s) ++ [.raise .debug] else [], s)
  | .maskSample snap => (if dbgSample (memRead offDebugMask s) then writeActs snap ++ [.raise .debug] else [], s)
  | .write n v => ([], memWrite n.val v s)
  | .writeFree n => ([], memWriteFree n.val s)
  | .control =>
    let r := runFilters s
    (writeActs (outputWrites (mixOutputs s.par r.2))
      ++ [.writeFree 53, .writeFree 54, .raise .outputReady, .maskSample (snapshotSample (setpoints s) r.2)], r.1)
  | .baseline => (writeActs (outputWrites (.fill s.par.dutyBase)), s)
  | .resetFilters => ([], resetFilters s)
  | .tmrSConfigure => ([], tmrSConfigure s.periodL s)
  | .tmrSEnable => ([], tmrSEnable s)
  | .tmrSDisable => ([], tmrSDisable s)
  | .tmrSClearFlag => ([], tmrSClearFlag s)
  | .tmrPConfigure => ([], tmrPConfigure s)
  | .tmrPClearFlag => ([], tmrPClearFlag s)
  | .assertPins m => ([], assertPins m s)
  | .deassertPins m => ([], deassertPins m s)
  | .compareIfActive =>
    (if unitActive u s then [.compareOne 0, .compareOne 1, .compareOne 2, .compareOne 3] else [], s)
  | .compareOne m => (if (s.duty.get m).toNat ≤ (tmrPRead s).toNat then [.deassertPins (pinMask m)] else [], s)
  | .goCu st => ([], { s with cuState := st })
  | .goMu st => ([], { s with muState := st })

/-- Perform an action and put what it leaves in front of the rest of the step. -/
def doAct (u : UnitId) (a : Act) (rest : List Act) (s : State) : State :=
  let r := performAct u a s
  setPend u (r.1 ++ rest) r.2

/-- One action of a unit: the next of the step under way, or the first of a new step. A held or halted unit takes no
step (44_controller_unit.md R200, 45_motor_unit.md R240). -/
def action (u : UnitId) (s : State) : State :=
  match pend u s with
  | a :: rest => doAct u a rest s
  | [] =>
    match beginActs u s with
    | a :: rest => doAct u a rest s
    | [] => s

/-- `k` actions of a unit with no other agent's between. -/
def actions (u : UnitId) : Nat → State → State
  | 0, s => s
  | k + 1, s => actions u k (action u s)

end Sys2Proof.Machine
end

