-- ==== Sys2Proof/Machine/EventChannel.lean ====
section
/-! DEFINITION. The event channel operations POLL and RAISE, taken alone (41_event_channel.md). -/

namespace Sys2Proof.Machine

/-- POLL taken alone: the event is returned (41_event_channel.md R142). -/
def execPoll (caller : UnitId) (ch : Channel) (s : State) : Out :=
  if ch.owner = caller then
    let r := pollChannel ch s
    .next { r.2 with ret := .event r.1 }
  else .refused .notOwner

/-- RAISE taken alone (41_event_channel.md R145). -/
def execRaise (e : Event) (s : State) : Out := .next (raiseEvent e s)

end Sys2Proof.Machine
end

