-- ==== Sys2Proof/Machine/Dispatch.lean ====
section
/-! DEFINITION. One arm for each row of spec/opcode_table.json. -/

namespace Sys2Proof.Machine

def exec (i : Instr) (s : State) : Host.Outcome State Fault Refusal :=
  match i with
  | .cuNone => Sys2Proof.Machine.execCuNone s
  | .cuMotorStop => Sys2Proof.Machine.execCuMotorStop s
  | .cuControllerStop => Sys2Proof.Machine.execCuControllerStop s
  | .cuNewData => Sys2Proof.Machine.execCuNewData s
  | .cuControllerReady => Sys2Proof.Machine.execCuControllerReady s
  | .cuMotorReady => Sys2Proof.Machine.execCuMotorReady s
  | .cuOutputReady => Sys2Proof.Machine.execCuOutputReady s
  | .cuSetArmed => Sys2Proof.Machine.execCuSetArmed s
  | .cuClearArmed => Sys2Proof.Machine.execCuClearArmed s
  | .cuDebug => Sys2Proof.Machine.execCuDebug s
  | .cuSampleTick => Sys2Proof.Machine.execCuSampleTick s
  | .cuPwmTick => Sys2Proof.Machine.execCuPwmTick s
  | .cuReserved12 => Sys2Proof.Machine.execCuReserved12 s
  | .cuReserved13 => Sys2Proof.Machine.execCuReserved13 s
  | .cuReserved14 => Sys2Proof.Machine.execCuReserved14 s
  | .cuReserved15 => Sys2Proof.Machine.execCuReserved15 s
  | .awaitNone => Sys2Proof.Machine.execAwaitNone s
  | .awaitMotorStop => Sys2Proof.Machine.execAwaitMotorStop s
  | .awaitControllerStop => Sys2Proof.Machine.execAwaitControllerStop s
  | .awaitNewData => Sys2Proof.Machine.execAwaitNewData s
  | .awaitControllerReady => Sys2Proof.Machine.execAwaitControllerReady s
  | .awaitMotorReady => Sys2Proof.Machine.execAwaitMotorReady s
  | .awaitOutputReady => Sys2Proof.Machine.execAwaitOutputReady s
  | .awaitSetArmed => Sys2Proof.Machine.execAwaitSetArmed s
  | .awaitClearArmed => Sys2Proof.Machine.execAwaitClearArmed s
  | .awaitDebug => Sys2Proof.Machine.execAwaitDebug s
  | .awaitSampleTick => Sys2Proof.Machine.execAwaitSampleTick s
  | .awaitPwmTick => Sys2Proof.Machine.execAwaitPwmTick s
  | .awaitReserved12 => Sys2Proof.Machine.execAwaitReserved12 s
  | .awaitReserved13 => Sys2Proof.Machine.execAwaitReserved13 s
  | .awaitReserved14 => Sys2Proof.Machine.execAwaitReserved14 s
  | .awaitReserved15 => Sys2Proof.Machine.execAwaitReserved15 s
  | .muNone => Sys2Proof.Machine.execMuNone s
  | .muMotorStop => Sys2Proof.Machine.execMuMotorStop s
  | .muControllerStop => Sys2Proof.Machine.execMuControllerStop s
  | .muNewData => Sys2Proof.Machine.execMuNewData s
  | .muControllerReady => Sys2Proof.Machine.execMuControllerReady s
  | .muMotorReady => Sys2Proof.Machine.execMuMotorReady s
  | .muOutputReady => Sys2Proof.Machine.execMuOutputReady s
  | .muSetArmed => Sys2Proof.Machine.execMuSetArmed s
  | .muClearArmed => Sys2Proof.Machine.execMuClearArmed s
  | .muDebug => Sys2Proof.Machine.execMuDebug s
  | .muSampleTick => Sys2Proof.Machine.execMuSampleTick s
  | .muPwmTick => Sys2Proof.Machine.execMuPwmTick s
  | .muReserved12 => Sys2Proof.Machine.execMuReserved12 s
  | .muReserved13 => Sys2Proof.Machine.execMuReserved13 s
  | .muReserved14 => Sys2Proof.Machine.execMuReserved14 s
  | .muReserved15 => Sys2Proof.Machine.execMuReserved15 s
  | .stepCuHeld => Sys2Proof.Machine.execStepCuHeld s
  | .stepCuAwait => Sys2Proof.Machine.execStepCuAwait s
  | .stepCuConfig => Sys2Proof.Machine.execStepCuConfig s
  | .stepCuActive => Sys2Proof.Machine.execStepCuActive s
  | .stepCuHalt => Sys2Proof.Machine.execStepCuHalt s
  | .stepMuHeld => Sys2Proof.Machine.execStepMuHeld s
  | .stepMuBoot => Sys2Proof.Machine.execStepMuBoot s
  | .stepMuActive => Sys2Proof.Machine.execStepMuActive s
  | .stepMuHalt => Sys2Proof.Machine.execStepMuHalt s
  | .poll caller ch => Sys2Proof.Machine.execPoll caller ch s
  | .raise e => Sys2Proof.Machine.execRaise e s
  | .configure k cfg period => Sys2Proof.Machine.execConfigure k cfg period s
  | .run k x => Sys2Proof.Machine.execRun k x s
  | .reset k => Sys2Proof.Machine.execReset k s
  | .mix t r p y => Sys2Proof.Machine.execMix t r p y s

end Sys2Proof.Machine
end

