-- ==== Sys2Proof/Machine/HostMoves.lean ====
section
/-! DEFINITION. The moves of the agents outside the FCE: the host and the two timers (46_host_and_timers.md). -/

namespace Sys2Proof.Machine

/-- `HOST: write` of a word 0 to 54, whatever the word and the state of the units (46_host_and_timers.md R271). -/
def hostWrite (n : Nat) (v : Word) (s : State) : Out :=
  if n < Config.scbWords then .next (memWrite n v s) else .refused .outsideScb

/-- `HOST: read` of a word 0 to 54: the word is returned, nothing else changes (46_host_and_timers.md R272). -/
def hostRead (n : Nat) (s : State) : Out :=
  if n < Config.scbWords then .next { s with ret := .word (memRead n s) } else .refused .outsideScb

/-- A host access by byte address and width: only 32 bits, only aligned, only inside the SCB (20_memory.md R71, R74,
R77; 93_implementation_defined.md U9), and then the access of the word at that address. -/
def hostAccess (addr bytes : Nat) (s : State) (access : Nat → Out) : Out :=
  if bytes ≠ 4 then .refused .narrowAccess
  else if addr % 4 ≠ 0 ∨ (addr - s.par.scbBase) % 4 ≠ 0 then .refused .misaligned
  else if addr < s.par.scbBase then .refused .outsideScb
  else access ((addr - s.par.scbBase) / 4)

/-- `HOST: raise`, one of the four events a host raises (46_host_and_timers.md R273). -/
def hostRaise (e : Event) (s : State) : Out :=
  match e with
  | .newData | .setArmed | .clearArmed | .controllerStop => .next (raiseEvent e s)
  | .none | .motorStop | .controllerReady | .motorReady | .outputReady | .debug | .sampleTick | .pwmTick
  | .reserved12 | .reserved13 | .reserved14 | .reserved15 => .refused .noSuchMove

/-- `HOST: inject`, any channel and any code 1 to 15, as a RAISE would set the latch (46_host_and_timers.md R274,
93_implementation_defined.md U11). -/
def hostInject (ch : Channel) (e : Event) (s : State) : Out :=
  if s.par.mayInject = false then .refused .injectOff
  else if e = .none then .refused .noSuchMove
  else .next (latchSet ch e s)

/-- `HOST: ack`: `HOST_PEND[e] <- 0` (46_host_and_timers.md R275). -/
def hostAck (e : Event) (s : State) : Out :=
  if eventNamed e then .next { s with hostPend := s.hostPend.set e false } else .refused .noSuchMove

/-- `HOST: start CU` and `HOST: start MU`: no effect but on a held unit (46_host_and_timers.md R276). -/
def hostStart (u : UnitId) (s : State) : Out :=
  match u with
  | .cu => .next (if s.cuState = .held then { s with cuState := .await } else s)
  | .mu => .next (if s.muState = .held then { s with muState := .boot } else s)

/-- `HOST: reset`: the table of 10_state.md R50, all at once (46_host_and_timers.md R278). A step under way is gone.
The model's own `par`, `script` and `ret` stay, and the SCB's unspecified content is a new one (log entry 17). -/
def hostReset (s : State) : Out :=
  .next { State.resetWith s.par with script := s.script, ret := s.ret, draws := s.draws + 1, scbSeed := s.draws + 1 }

/-- `TMR_S: fire`, enabled only when `TMR_S.en` is 1 (46_host_and_timers.md R281). -/
def timerSFire (s : State) : Out :=
  if s.tmrS.en then .next (raiseEvent .sampleTick { s with tmrS := { s.tmrS with flag := true } })
  else .refused .notEnabled

/-- The PWM counter `n` ticks on: it wraps at PWM_PERIOD, sets the flag and fires (46_host_and_timers.md R286). -/
def advancePwm (n : Nat) (s : State) : State :=
  let c := s.tmrP.cnt.toNat + n
  if c ≥ s.par.pwmPeriod.toNat then
    raiseEvent .pwmTick
      { s with tmrP := { s.tmrP with cnt := BitVec.ofNat 32 (c - s.par.pwmPeriod.toNat), flag := true } }
  else { s with tmrP := { s.tmrP with cnt := BitVec.ofNat 32 c } }

/-- `TMR_P: advance n`, `1 <= n < PWM_PERIOD`, enabled only when `TMR_P.run` is 1 (46_host_and_timers.md R286). -/
def timerPAdvance (n : Nat) (s : State) : Out :=
  if n = 0 ∨ s.par.pwmPeriod.toNat ≤ n then .refused .noSuchMove
  else if s.tmrP.run then .next (advancePwm n s)
  else .refused .notEnabled

end Sys2Proof.Machine
end

