-- ==== Sys2Proof/Machine/Schedule.lean ====
section
/-! DEFINITION. Which move comes next, and how a unit's move fetches and decodes: the state register's word selects
the step, the polled code's word the handler (30_encoding.md R100; log entries 1, 2, 11, 22). -/

namespace Sys2Proof.Machine

/-- The STATE word of a unit's state register (30_encoding.md R100, R105). -/
def stateWord (u : UnitId) (s : State) : Byte :=
  match u with
  | .cu => cuStateWord s.cuState
  | .mu => muStateWord s.muState

/-- Decode bytes and run the instruction. -/
def runDecoded (f : Format) (bs : List Byte) (s : State) : Out :=
  match decode f bs with
  | .ok (i, _) => exec i s
  | .error _ => .refused .undecodable

/-- A unit's move. `whole`: between two steps, the step its state register selects. `handler`: with a polled code in
hand, the whole handler of that code. Otherwise: one atomic action (log entries 1, 16). -/
def moveUnit (u : UnitId) (g : Grain) (s : State) : Out :=
  match g, pend u s with
  | .whole, [] => runDecoded .state [stateWord u s] s
  | .handler, .dispatch e :: rest => runDecoded (.evt (cuTable s)) [evtWord u e] (setPend u rest s)
  | .whole, _ :: _ => .next (action u s)
  | .handler, _ => .next (action u s)
  | .action, _ => .next (action u s)

/-- One move of an agent. -/
def doMove (m : Move) (s : State) : Out :=
  match m with
  | .hostWrite n v => hostWrite n v s
  | .hostRead n => hostRead n s
  | .hostWriteAt addr bytes v => hostAccess addr bytes s fun n => hostWrite n v s
  | .hostReadAt addr bytes => hostAccess addr bytes s fun n => hostRead n s
  | .hostRaise e => hostRaise e s
  | .hostInject ch e => hostInject ch e s
  | .hostAck e => hostAck e s
  | .hostStart u => hostStart u s
  | .hostReset => hostReset s
  | .timerSFire => timerSFire s
  | .timerPAdvance n => timerPAdvance n s
  | .unit u g => moveUnit u g s

/-- One line of the scenario (00_scope.md R12). -/
def runLine (l : Line) (s : State) : Out :=
  match l with
  | .move m => doMove m s
  | .op bytes => runDecoded .uop bytes s

/-- A move the scenario does not fix: a free one; where it is no move the spec allows, nobody moves (log entry 2). -/
def freeStep (s : State) : Out :=
  let s1 := { s with draws := s.draws + 1 }
  match doMove (Config.freeMove s.draws) s1 with
  | .next s2 => .next s2
  | .fault r => .fault r
  | .refused _ => .next s1

/-- The next move: the scenario's next line, or a free one. -/
def nextMove (s : State) : Out :=
  match s.script with
  | l :: rest => runLine l { s with script := rest }
  | [] => freeStep s

/-! ## Placing an instruction so that the next step runs it (log entry 11) -/

/-- An EVT word: the unit is in its loop, has polled the code, and is to run the handler. -/
def placeEvent (b : Byte) (s : State) : State :=
  if b.toNat < 32 then
    let e := eventOfCode (b.extractLsb' 0 4)
    if b.getLsbD 4 then
      { s with muState := .active, muPend := .dispatch e :: s.muPend, script := .move (.unit .mu .handler) :: s.script }
    else
      { s with cuState := .active, cuPend := .dispatch e :: s.cuPend, script := .move (.unit .cu .handler) :: s.script }
  else { s with script := .op [] :: s.script }

/-- The CU is between two steps, in a state, and is to take its step. -/
def placeCuState (st : CuState) (s : State) : State :=
  { s with cuState := st, cuPend := [], script := .move (.unit .cu .whole) :: s.script }

/-- The MU is between two steps, in a state, and is to take its step. -/
def placeMuState (st : MuState) (s : State) : State :=
  { s with muState := st, muPend := [], script := .move (.unit .mu .whole) :: s.script }

/-- A STATE word: the unit's state register holds the state, and the unit is to take its step. -/
def placeState (b : Byte) (s : State) : State :=
  match b.toNat with
  | 0 => placeCuState .held s
  | 1 => placeCuState .await s
  | 2 => placeCuState .config s
  | 3 => placeCuState .active s
  | 4 => placeCuState .halt s
  | 8 => placeMuState .held s
  | 9 => placeMuState .boot s
  | 10 => placeMuState .active s
  | 11 => placeMuState .halt s
  | _ => { s with script := .op [] :: s.script }

/-- The word of an opcode-table row, read as `decodeTableWord` reads it, placed as the machine's next move. A word that
decodes to nothing is a line that is refused. -/
def placeWord (nbits w : Nat) (s : State) : State :=
  let bs := tableBytes nbits w
  match tableFormat nbits with
  | .evt _ => placeEvent (bs.headD 0) s
  | .state => placeState (bs.headD 0) s
  | .uop => { s with script := .op bs :: s.script }

end Sys2Proof.Machine
end

