-- ==== Sys2Proof/Safety.lean ====
section
/-! DEFINITION. What counts as gone wrong, and the conditions that every step keeps, in the terms claims use. -/

namespace Sys2Proof.Machine

/-- A state with any `CH_OVR` set: "A model treats a state with any `CH_OVR` set as faulted" (41_event_channel.md
R147, 93_implementation_defined.md U1). The machine goes on; a claim is made up to such a state (log entry 8). -/
def State.faulted (s : State) : Bool := s.ovr.cuCtl || s.ovr.cuTick || s.ovr.muCtl || s.ovr.muTick

/-- The SCB is in its canonical form and no byte of it lies outside its 220 bytes. -/
def State.memOk (s : State) : Bool := Memory.wf s.par s.mem && Memory.inScb s.mem

/-- A value in the hardware-valid duty-cycle range (10_state.md R44). -/
def inDutyRange (par : Config.Params) (v : Word) : Bool :=
  decide (par.dutyMin.toNat ≤ v.toNat) && decide (v.toNat ≤ par.dutyMax.toNat)

/-- The parameters are legal, every duty register is in range, and the PWM counter is in 0 to PWM_PERIOD - 1
(00_scope.md R6, 10_state.md R33, R38). -/
def State.rangesOk (s : State) : Bool :=
  s.par.ok && inDutyRange s.par s.duty.q0 && inDutyRange s.par s.duty.q1 && inDutyRange s.par s.duty.q2
    && inDutyRange s.par s.duty.q3 && decide (s.tmrP.cnt.toNat < s.par.pwmPeriod.toNat)

/-- No filter instance is unconfigured. -/
def State.configured (s : State) : Bool :=
  decide (s.fe.q0.state ≠ .unconfigured) && decide (s.fe.q1.state ≠ .unconfigured)
    && decide (s.fe.q2.state ≠ .unconfigured) && decide (s.fe.q3.state ≠ .unconfigured)

/-! ## The actions left of a step under way -/

/-- The words the FCE writes: 40 to 43 and 45 to 54. The others "the FCE never writes" (10_state.md R40 to R47,
20_memory.md R76). -/
def fceWrites (n : WordOff) : Bool := decide (40 ≤ n.val) && decide (n.val ≠ 44)

/-- The actions a unit's own rules give it (10_state.md R20, the column of owners; 44_controller_unit.md,
45_motor_unit.md; log entry 3). -/
def actOf (u : UnitId) (a : Act) : Bool :=
  match u with
  | .cu =>
    match a with
    | .poll ch | .pollIfActive ch => decide (ch.owner = .cu)
    | .dispatch _ | .readCfg _ | .configure _ | .maskNewData | .control | .baseline | .resetFilters | .tmrSConfigure
    | .tmrSEnable | .tmrSDisable | .tmrSClearFlag | .goCu _ => true
    | .write n _ | .writeFree n => fceWrites n
    | .maskSample ws => ws.all fun w => fceWrites w.1
    | .raise e => decide (e = .motorStop ∨ e = .controllerReady ∨ e = .outputReady ∨ e = .debug)
    | .read _ (.duty _) => false
    | .read _ _ => true
    | .tmrPConfigure | .tmrPClearFlag | .assertPins _ | .deassertPins _ | .compareIfActive | .compareOne _ | .goMu _ => false
  | .mu =>
    match a with
    | .poll ch | .pollIfActive ch => decide (ch.owner = .mu)
    | .dispatch _ | .tmrPConfigure | .tmrPClearFlag | .assertPins _ | .deassertPins _ | .compareIfActive | .compareOne _
    | .goMu _ => true
    | .raise e => decide (e = .motorReady)
    | .read _ (.duty _) => true
    | .read _ _ => false
    | .readCfg _ | .configure _ | .maskNewData | .maskSample _ | .write _ _ | .writeFree _ | .control | .baseline
    | .resetFilters | .tmrSConfigure | .tmrSEnable | .tmrSDisable | .tmrSClearFlag | .goCu _ => false

/-- Each unit's step under way is made of that unit's own actions. -/
def State.actsOwned (s : State) : Bool := s.cuPend.all (actOf .cu) && s.muPend.all (actOf .mu)

/-- What a step may still hold when its unit has left the loop: actions that then do nothing (44_controller_unit.md
R204, 45_motor_unit.md R242). -/
def finalActs (acts : List Act) : Bool :=
  acts.all fun a =>
    match a with
    | .pollIfActive _ | .compareIfActive => true
    | _ => false

/-- The CU's actions left enter the loop only after they have configured the filters (44_controller_unit.md R203). -/
def entersConfigured : List Act → Bool
  | [] => true
  | .configure _ :: _ => true
  | .goCu .active :: _ => false
  | .readCfg _ :: _ => true
  | _ :: rest => entersConfigured rest

/-- The CU's actions left end when they halt the unit: nothing but final actions follows a halt, or a code still to
be handled. -/
def haltsCu : List Act → Bool
  | [] => true
  | .goCu .halt :: rest => finalActs rest
  | .poll _ :: rest => finalActs rest
  | .pollIfActive _ :: rest => finalActs rest
  | .dispatch _ :: rest => finalActs rest
  | _ :: rest => haltsCu rest

/-- The same of the MU's actions left, which halt the unit only with every pin low; `low` says that the pins are low
when the list begins. -/
def haltsMu : Bool → List Act → Bool
  | _, [] => true
  | low, .goMu .halt :: rest => low && finalActs rest
  | _, .poll _ :: rest => finalActs rest
  | _, .pollIfActive _ :: rest => finalActs rest
  | _, .dispatch _ :: rest => finalActs rest
  | low, .deassertPins m :: rest => haltsMu (low || decide (m = allPins)) rest
  | _, .assertPins _ :: rest => haltsMu false rest
  | low, _ :: rest => haltsMu low rest

/-- A word of `pid_output` still to be written is in range (10_state.md R44). -/
def writesInRange (par : Config.Params) (acts : List Act) : Bool :=
  acts.all fun a =>
    match a with
    | .write n v => decide (n.val < 40) || decide (43 < n.val) || inDutyRange par v
    | .writeFree n => decide (n.val < 40) || decide (43 < n.val)
    | .maskSample ws => ws.all fun w => decide (w.1.val < 40) || decide (43 < w.1.val)
    | _ => true

/-- An action that reads a word of the `config` group (20_memory.md R76, R86). -/
def readsConfig (a : Act) : Bool :=
  match a with
  | .read n _ => decide (n.val < 33)
  | .readCfg _ => true
  | _ => false

/-! ## Conditions that every step keeps -/

/-- In CU_ACTIVE every instance is configured, and a step under way enters CU_ACTIVE only so (10_state.md R24). -/
def State.configOk (s : State) : Bool :=
  s.configured || (decide (s.cuState ≠ .active) && entersConfigured s.cuPend)

/-- The pins are all deasserted. -/
def State.pinsLow (s : State) : Bool := !s.pin.q0 && !s.pin.q1 && !s.pin.q2 && !s.pin.q3

/-- A unit that has halted has nothing left to do but final actions, and in MU_HALT the pins are low (45_motor_unit.md
R251, 60_exceptions.md R318). -/
def State.haltOk (s : State) : Bool :=
  (if s.cuState = .halt then finalActs s.cuPend else haltsCu s.cuPend)
    && (if s.muState = .halt then s.pinsLow && finalActs s.muPend else haltsMu s.pinsLow s.muPend)

/-- The four words of `pid_output` are in the hardware-valid duty-cycle range, and the CU has nothing else to write
there (10_state.md R44, R48). -/
def State.outputsOk (s : State) : Bool :=
  inDutyRange s.par (memRead 40 s) && inDutyRange s.par (memRead 41 s) && inDutyRange s.par (memRead 42 s)
    && inDutyRange s.par (memRead 43 s) && writesInRange s.par s.cuPend

/-- A move that puts no value out of range into `pid_output`: every move but a host write to words 40 to 43, and such a
write of a value in range. -/
def keepsOutputs (s : State) (m : Move) : Bool :=
  match m with
  | .hostWrite n v => decide (n < 40) || decide (43 < n) || inDutyRange s.par v
  | .hostWriteAt addr _ v =>
    decide ((addr - s.par.scbBase) / 4 < 40) || decide (43 < (addr - s.par.scbBase) / 4) || inDutyRange s.par v
  | .hostRead _ | .hostReadAt _ _ | .hostRaise _ | .hostInject _ _ | .hostAck _ | .hostStart _ | .hostReset | .timerSFire
  | .timerPAdvance _ | .unit _ _ => true

/-- No unit reads the configuration in its next move: the CU is not about to begin its configuration step, and no action
left reads the `config` group. -/
def State.configRead (s : State) : Bool :=
  (decide (s.cuState ≠ .config) || decide (s.cuPend ≠ [])) && s.cuPend.all (fun a => !readsConfig a) && s.muPend.all (fun a => !readsConfig a)

/-- The states from which the CU can come to a read of the configuration. -/
def beforeLoop (st : CuState) : Bool :=
  match st with
  | .held | .await | .config => true
  | .active | .halt => false

/-- An action that puts the CU before its configuration step. -/
def leadsBack (a : Act) : Bool :=
  match a with
  | .goCu st => beforeLoop st
  | _ => false

/-- An action that puts the CU into its loop, or past it. -/
def entersLoop (a : Act) : Bool :=
  match a with
  | .goCu st => !beforeLoop st
  | _ => false

/-- The configuration is read, and stays so until reset: the CU is in its loop or halted, or in its configuration step
with the reads behind it (20_memory.md R86, 70_reset_and_hazards.md R356). -/
def State.configFrozen (s : State) : Bool :=
  s.configRead && s.cuPend.all (fun a => !leadsBack a)
    && (!beforeLoop s.cuState || (decide (s.cuState = .config) && s.cuPend.any entersLoop))

end Sys2Proof.Machine
end

