-- ==== Sys2Proof/Certificates/Slice0/Obligations.lean ====
section
/-! DEFINITION. The statements about the model, for the provers: one `def` each, listed in OBLIGATIONS.json. A
statement about a free value holds for every value of it. -/

section

open Sys2Proof Sys2Proof.Machine

/-! ### Decoding -/

/-- Decoding the bytes of a well-formed instruction gives it back and leaves the bytes after it (30_encoding.md R100 to
R106); an MU row reads the same beside either of the CU's tables. -/
def Obligations.DecodeOfEncode : Prop :=
  (∀ (i : Instr) (rest : List Byte), i.wf = true → decode (formatOf i) (encode i ++ rest) = .ok (i, rest)) ∧
  ∀ (e : Event) (rest : List Byte), decode (.evt .await) (encode (muRow e) ++ rest) = .ok (muRow e, rest)

/-- What decodes is well-formed, and encoding it gives back exactly the bytes taken, so that each word of a format has
one meaning. -/
def Obligations.EncodeOfDecode : Prop :=
  ∀ (f : Format) (bs rest : List Byte) (i : Instr), decode f bs = .ok (i, rest) → i.wf = true ∧ encode i ++ rest = bs

/-- Words written out from 30_encoding.md: EVT {unit, code}, STATE {unit, state}, UOP op; and words that no row has
(R105, R106). The operand bytes of POLL and RAISE are the model's own (log entry 10). -/
def Obligations.WrittenWordsDecode : Prop :=
  decode (.evt .active) [0b00011#8] = .ok (.cuNewData, []) ∧
  decode (.evt .active) [0b01010#8] = .ok (.cuSampleTick, []) ∧
  decode (.evt .active) [0b01101#8] = .ok (.cuReserved13, []) ∧
  decode (.evt .await) [0b00101#8] = .ok (.awaitMotorReady, []) ∧
  decode (.evt .await) [0b00111#8] = .ok (.awaitSetArmed, []) ∧
  decode (.evt .active) [0b10110#8] = .ok (.muOutputReady, []) ∧
  decode (.evt .await) [0b11011#8] = .ok (.muPwmTick, []) ∧
  decode .state [0b0010#8] = .ok (.stepCuConfig, []) ∧
  decode .state [0b1001#8] = .ok (.stepMuBoot, []) ∧
  decode .state [0b1011#8] = .ok (.stepMuHalt, []) ∧
  decode .uop [0b000#8, 0x06#8] = .ok (.poll .mu .muCtl, []) ∧
  decode .uop [0b001#8, 0x0B#8] = .ok (.raise .pwmTick, []) ∧
  decode .uop [0b100#8, 0x03#8] = .ok (.reset 3, []) ∧
  decode .state [0b0101#8] = .error .reservedState ∧
  decode .state [0b1100#8] = .error .reservedState ∧
  decode .uop [0b110#8] = .error .reservedOp ∧
  decode .uop [0b111#8] = .error .reservedOp ∧
  decode (.evt .active) [0b100000#8] = .error .highBits

/-! ### Reset -/

/-- The table of 10_state.md section 7 (its values are decision D28): the state after power-on and after the host's
reset, whatever went before. The words the table calls unspecified are not in the statement. -/
def Obligations.ResetLeavesTable : Prop :=
  (∀ s : State, ∃ t, doMove .hostReset s = .next t ∧ t.par = s.par) ∧
  ∀ t : State, (t = State.reset ∨ ∃ s : State, doMove .hostReset s = .next t) →
    (∀ k, t.fe.get k = ⟨0, 0, 0, 0, 0, 0, 0, 0, 0, 0, 0, 0, .unconfigured⟩) ∧
    t.kpa = ⟨0, 0, 0⟩ ∧ t.periodL = 0 ∧ t.wsAtt = ⟨0, 0, 0⟩ ∧ t.wsRate = ⟨0, 0, 0⟩ ∧ t.wsThrust = 0 ∧
    t.cuState = .held ∧ t.muState = .held ∧
    (∀ ch, t.latch.get ch = .none ∧ t.ovr.get ch = false) ∧
    (∀ e, t.hostPend.get e = false) ∧
    (∀ m, t.duty.get m = t.par.dutyBase ∧ t.pin.get m = false) ∧
    t.tmrS = ⟨false, false⟩ ∧ t.tmrP = ⟨false, 0, false⟩ ∧
    memRead 40 t = t.par.dutyBase ∧ memRead 41 t = t.par.dutyBase ∧ memRead 42 t = t.par.dutyBase ∧
    memRead 43 t = t.par.dutyBase

/-- After reset, with any legal parameters, every condition of Safety.lean holds and no channel is marked; the default
parameters are legal (00_scope.md R6, R8). -/
def Obligations.ResetMeetsInvariants : Prop :=
  Config.Params.default.ok = true ∧ Config.Params.default.fmtOk = true ∧
  ∀ par : Config.Params, par.ok = true →
    (State.resetWith par).memOk = true ∧ (State.resetWith par).rangesOk = true ∧
    (State.resetWith par).actsOwned = true ∧ (State.resetWith par).configOk = true ∧
    (State.resetWith par).haltOk = true ∧ (State.resetWith par).outputsOk = true ∧
    (State.resetWith par).faulted = false

/-! ### Memory -/

/-- The host writes and reads any word 0 to 54, whatever the word and the state of the units (46_host_and_timers.md
R271, R272). -/
def Obligations.HostWordAccess : Prop :=
  ∀ (s : State) (n : Nat) (v : Word), s.memOk = true → n < 55 →
    (∃ t, doMove (.hostWrite n v) s = .next t ∧ t = { s with mem := t.mem } ∧ memRead n t = v ∧
      ∀ a, ¬(4 * n ≤ a ∧ a < 4 * n + 4) → readByte a t = readByte a s) ∧
    doMove (.hostRead n) s = .next { s with ret := .word (memRead n s) }

/-- The host's byte view is little-endian from SCB_BASE; a whole aligned word of the SCB is accessed as that word, and
every other width, alignment or address is refused (20_memory.md R71, R73, R74, decision D5; log entry 13). -/
def Obligations.HostByteAccess : Prop :=
  ∀ (s : State), s.par.scbBase % 4 = 0 →
    (∀ n i : Nat, n < 55 → i < 4 →
      hostByte (s.par.scbBase + 4 * n + i) s = some ((memRead n s).extractLsb' (8 * i) 8)) ∧
    (∀ addr : Nat, addr < s.par.scbBase ∨ s.par.scbBase + 220 ≤ addr → hostByte addr s = none) ∧
    (∀ (n : Nat) (v : Word), n < 55 →
      doMove (.hostReadAt (s.par.scbBase + 4 * n) 4) s = doMove (.hostRead n) s ∧
      doMove (.hostWriteAt (s.par.scbBase + 4 * n) 4 v) s = doMove (.hostWrite n v) s) ∧
    (∀ (addr bytes : Nat) (v : Word),
      bytes ≠ 4 ∨ addr % 4 ≠ 0 ∨ addr < s.par.scbBase ∨ s.par.scbBase + 220 ≤ addr →
      ∃ r, doMove (.hostReadAt addr bytes) s = .refused r ∧ doMove (.hostWriteAt addr bytes v) s = .refused r) ∧
    ∀ (n : Nat) (v : Word), 55 ≤ n →
      doMove (.hostRead n) s = .refused .outsideScb ∧ doMove (.hostWrite n v) s = .refused .outsideScb

/-! ### Conditions that every step keeps -/

/-- Every step keeps the SCB in its canonical form and inside its 220 bytes (20_memory.md R71; log entry 6). -/
def Obligations.MemoryStaysCanonical : Prop :=
  ∀ s t : State, s.memOk = true → step s = .next t → t.memOk = true

/-- Every step keeps the duty registers in the hardware-valid range and the PWM counter in 0 to PWM_PERIOD - 1
(10_state.md R33, R38). -/
def Obligations.RangesStay : Prop :=
  ∀ s t : State, s.rangesOk = true → step s = .next t → t.rangesOk = true

/-- Every step keeps each unit's step under way made of that unit's own actions (10_state.md R20; log entry 3). -/
def Obligations.ActionsStayOwned : Prop :=
  ∀ s t : State, s.actsOwned = true → step s = .next t → t.actsOwned = true

/-- The CU is in its loop only with all four filters configured, so that it never runs or resets an unconfigured one
(10_state.md R24, 44_controller_unit.md R203). -/
def Obligations.ConfiguredBeforeActive : Prop :=
  ∀ s t : State, s.actsOwned = true → s.configOk = true → step s = .next t →
    t.configOk = true ∧ (t.cuState = .active → ∀ k, (t.fe.get k).state ≠ .unconfigured)

/-- In MU_HALT the pins are low, and stay so (45_motor_unit.md R250, R251): no step reaches MU_HALT with a pin high or
raises a pin there, whatever acts between the actions of the exit sequence. -/
def Obligations.HaltedMotorsStayLow : Prop :=
  ∀ s t : State, s.actsOwned = true → s.haltOk = true → step s = .next t →
    t.haltOk = true ∧ (t.muState = .halt → ∀ m, t.pin.get m = false)

/-- A halted unit stays halted under every move but reset; its registers keep their values and its latches, once set,
are never cleared (44_controller_unit.md R200, R223; 45_motor_unit.md R240, R251). -/
def Obligations.HaltIsFinal : Prop :=
  ∀ (s t : State) (m : Move), s.actsOwned = true → s.haltOk = true → m ≠ .hostReset → doMove m s = .next t →
    (s.cuState = .halt →
      t.cuState = .halt ∧ t.fe = s.fe ∧ t.kpa = s.kpa ∧ t.periodL = s.periodL ∧ t.wsAtt = s.wsAtt ∧
      t.wsRate = s.wsRate ∧ t.wsThrust = s.wsThrust ∧ t.tmrS.en = s.tmrS.en ∧
      (s.latch.cuCtl ≠ .none → t.latch.cuCtl ≠ .none) ∧ (s.latch.cuTick ≠ .none → t.latch.cuTick ≠ .none)) ∧
    (s.muState = .halt →
      t.muState = .halt ∧ t.duty = s.duty ∧ t.pin = s.pin ∧ t.tmrP.run = s.tmrP.run ∧
      (s.latch.muCtl ≠ .none → t.latch.muCtl ≠ .none) ∧ (s.latch.muTick ≠ .none → t.latch.muTick ≠ .none))

/-- Invariant (2) of 10_state.md R48, "kept by the FCE's own rules": `pid_output` stays in the hardware-valid range
under every move that is not the host writing a value out of range there, after each single word a unit writes. -/
def Obligations.OutputsStayInRange : Prop :=
  ∀ (s t : State) (m : Move), s.par.ok = true → s.memOk = true → s.actsOwned = true → s.outputsOk = true →
    keepsOutputs s m = true → doMove m s = .next t → t.outputsOk = true

/-- An overrun mark, once set, stays set under every line of a scenario but a reset (10_state.md R39, decision D9). -/
def Obligations.OverrunMarkSticky : Prop :=
  ∀ (s t : State) (l : Line) (ch : Channel), l ≠ .move .hostReset → runLine l s = .next t →
    s.ovr.get ch = true → t.ovr.get ch = true

/-- The owners of 10_state.md section 1: no unit writes the other's registers, the MU writes no word of the SCB and the
CU only words 40 to 43 and 45 to 54 (R40 to R47), and the host and the timers write no register of a unit but by a
start. -/
def Obligations.OnlyOwnersWrite : Prop :=
  ∀ (s t : State), s.actsOwned = true →
    (∀ g, doMove (.unit .cu g) s = .next t →
      t.duty = s.duty ∧ t.muState = s.muState ∧ t.pin = s.pin ∧ t.tmrP = s.tmrP ∧ t.muPend = s.muPend ∧ t.par = s.par ∧
      (s.memOk = true → ∀ a, a < 160 ∨ (176 ≤ a ∧ a < 180) ∨ 220 ≤ a → readByte a t = readByte a s)) ∧
    (∀ g, doMove (.unit .mu g) s = .next t →
      t.fe = s.fe ∧ t.kpa = s.kpa ∧ t.periodL = s.periodL ∧ t.wsAtt = s.wsAtt ∧ t.wsRate = s.wsRate ∧
      t.wsThrust = s.wsThrust ∧ t.cuState = s.cuState ∧ t.tmrS = s.tmrS ∧ t.cuPend = s.cuPend ∧ t.par = s.par ∧
      ∀ a, readByte a t = readByte a s) ∧
    (∀ m, m ≠ .hostReset → (∀ u g, m ≠ .unit u g) → doMove m s = .next t →
      t.fe = s.fe ∧ t.kpa = s.kpa ∧ t.periodL = s.periodL ∧ t.wsAtt = s.wsAtt ∧ t.wsRate = s.wsRate ∧
      t.wsThrust = s.wsThrust ∧ t.duty = s.duty ∧ t.pin = s.pin ∧ t.cuPend = s.cuPend ∧ t.muPend = s.muPend ∧
      (t.cuState = s.cuState ∨ (s.cuState = .held ∧ t.cuState = .await)) ∧
      (t.muState = s.muState ∨ (s.muState = .held ∧ t.muState = .boot)))

/-- The configuration is frozen from the last of the configuration step's reads until reset (20_memory.md R86,
70_reset_and_hazards.md R356). The configuration step leaves a frozen state, and so does its last read; every line but a
reset keeps one frozen; and while no read is under way, so in every frozen state, a host write to `period` or
`pid_config` changes nothing of what any unit does next but the word itself. -/
def Obligations.ConfigurationFrozen : Prop :=
  (∀ s : State, s.configFrozen = true → s.configRead = true) ∧
  (∀ s t : State, s.cuPend = [] → s.muPend.all (fun a => !readsConfig a) = true → exec .stepCuConfig s = .next t →
    t.configFrozen = true) ∧
  (∀ (s : State) (got : List Word), s.cuState = .config → s.cuPend = [.readCfg got] → got.length = 31 →
    s.muPend.all (fun a => !readsConfig a) = true → (action .cu s).configFrozen = true) ∧
  (∀ (s t : State) (l : Line), s.actsOwned = true → s.configFrozen = true → l ≠ .move .hostReset →
    runLine l s = .next t → t.configFrozen = true) ∧
  ∀ (s s1 t2 : State) (u : UnitId) (g : Grain) (n : Nat) (v : Word),
    s.memOk = true → s.actsOwned = true → s.configRead = true → n < 33 →
    doMove (.hostWrite n v) s = .next s1 → doMove (.unit u g) s = .next t2 →
    ∃ t1, doMove (.unit u g) s1 = .next t1 ∧ { t1 with mem := t2.mem } = t2 ∧
      ∀ m, memRead m t1 = if m = n then v else memRead m t2

/-! ### A step runs the decoded instruction -/

/-- When the next line gives a unit its whole step, `step` runs the instruction its state register's word decodes to;
when the unit has polled a code, the instruction that code's word decodes to beside the unit's table; when the line is
an operation taken alone, the instruction its bytes decode to; and a line of the host or a timer is that move (log
entries 1, 10, 16, 22). The line is taken off the script. -/
def Obligations.StepRunsDecoded : Prop :=
  (∀ (s : State) (u : UnitId) (rest : List Line) (i : Instr) (bs : List Byte),
    s.script = .move (.unit u .whole) :: rest → pend u s = [] → decode .state [stateWord u s] = .ok (i, bs) →
    step s = exec i { s with script := rest }) ∧
  (∀ (s : State) (u : UnitId) (rest : List Line) (e : Event) (acts : List Act) (i : Instr) (bs : List Byte),
    s.script = .move (.unit u .handler) :: rest → pend u s = .dispatch e :: acts →
    decode (.evt (cuTable s)) [evtWord u e] = .ok (i, bs) →
    step s = exec i (setPend u acts { s with script := rest })) ∧
  (∀ (s : State) (rest : List Line) (bytes bs : List Byte) (i : Instr),
    s.script = .op bytes :: rest → decode .uop bytes = .ok (i, bs) → step s = exec i { s with script := rest }) ∧
  ∀ (s : State) (m : Move) (rest : List Line),
    s.script = .move m :: rest → step s = doMove m { s with script := rest }

/-- A table word that decodes to an instruction, placed by `withFetchWord`, is what the next step runs, with nothing
changed but the unit's state and its step under way (log entry 11). -/
def Obligations.FetchWordRuns : Prop :=
  ∀ (s : State) (nbits w : Nat) (i : Instr), decodeTableWord nbits w = some i →
    ∃ cuState muState cuPend muPend,
      step (s.withFetchWord nbits w) = exec i { s with cuState, muState, cuPend, muPend }

/-! ### Atomic actions -/

/-- The CU's whole step is its atomic actions one after another with nothing between (44_controller_unit.md R204). -/
def Obligations.CuActionsMakeStep : Prop :=
  (∀ s : State, doMove (.unit .cu .action) s = .next (action .cu s)) ∧
  ∀ s t : State, s.cuPend = [] → doMove (.unit .cu .whole) s = .next t → ∃ k, actions .cu k s = t

/-- The MU's whole step is its atomic actions one after another with nothing between (45_motor_unit.md R242). -/
def Obligations.MuActionsMakeStep : Prop :=
  (∀ s : State, doMove (.unit .mu .action) s = .next (action .mu s)) ∧
  ∀ s t : State, s.muPend = [] → doMove (.unit .mu .whole) s = .next t → ∃ k, actions .mu k s = t

/-- A torn record is a run of the model (20_memory.md R83; 95_test_vectors.md section 2.8): the CU writes words 40 and
41, the MU copies all four, the CU writes the rest; the MU then holds a record that nobody published, and no channel
is marked. -/
def Obligations.TornRecordAdmitted : Prop :=
  ∃ s : State, s.duty = ⟨1000, 1000, 1000, 1000⟩ ∧
    s.cuPend = writeActs (outputWrites ⟨1500, 1400, 1300, 1200⟩) ++ [.raise .outputReady] ∧
    s.latch.muCtl = .outputReady ∧ s.faulted = false ∧
    (actions .cu 3 (actions .mu 6 (actions .cu 2 s))).duty = ⟨1500, 1400, 1000, 1000⟩ ∧
    (actions .cu 3 (actions .mu 6 (actions .cu 2 s))).latch.muCtl = .outputReady ∧
    memRead 42 (actions .cu 3 (actions .mu 6 (actions .cu 2 s))) = 1300 ∧
    (actions .cu 3 (actions .mu 6 (actions .cu 2 s))).faulted = false

/-! ### Faults -/

/-- The stop cascade (60_exceptions.md R305), with nothing else pending: a stop or an unexpected code at the CU, then
the MU, then the CU; or an unexpected code or a stop at the MU, then the CU. Both units halt, the pins are low, the
sampling timer is off, the host finds both signals, `pid_output` is as it was, and no channel is newly marked. -/
def Obligations.StopCascade : Prop :=
  ∀ (s : State) (e : Event), s.cuState = .active → s.muState = .active → s.cuPend = [] → s.muPend = [] →
    (s.latch = ⟨e, .none, .none, .none⟩ →
      e ∈ [.motorStop, .controllerStop, .controllerReady, .outputReady, .debug, .pwmTick, .reserved12, .reserved13,
        .reserved14, .reserved15] →
      ∃ s1 s2 t, doMove (.unit .cu .whole) s = .next s1 ∧ doMove (.unit .mu .whole) s1 = .next s2 ∧
        doMove (.unit .cu .whole) s2 = .next t ∧ s1.cuState = .active ∧ s1.latch.muCtl = .motorStop ∧
        t.cuState = .halt ∧ t.muState = .halt ∧ t.pin = ⟨false, false, false, false⟩ ∧ t.tmrS.en = false ∧
        t.hostPend.motorReady = true ∧ t.hostPend.controllerReady = true ∧ t.mem = s.mem ∧ t.ovr = s.ovr) ∧
    (s.latch = ⟨.none, .none, e, .none⟩ → e ∉ [.none, .outputReady, .pwmTick] →
      ∃ s2 t, doMove (.unit .mu .whole) s = .next s2 ∧ doMove (.unit .cu .whole) s2 = .next t ∧
        t.cuState = .halt ∧ t.muState = .halt ∧ t.pin = ⟨false, false, false, false⟩ ∧ t.tmrS.en = false ∧
        t.hostPend.motorReady = true ∧ t.hostPend.controllerReady = true ∧ t.mem = s.mem ∧ t.ovr = s.ovr)

/-! ### POLL and RAISE -/

/-- POLL (41_event_channel.md R142): the latch is read and cleared in one action, nothing else is written (the returned
value is the model's own field `ret`); a second poll returns `none`; a unit cannot poll a channel it does not own. -/
def Obligations.PollReadsAndClears : Prop :=
  ∀ (s : State) (u : UnitId) (ch : Channel),
    (ch.owner = u →
      exec (.poll u ch) s = .next { s with latch := s.latch.set ch .none, ret := .event (s.latch.get ch) } ∧
      exec (.poll u ch) { s with latch := s.latch.set ch .none, ret := .event (s.latch.get ch) }
        = .next { s with latch := s.latch.set ch .none, ret := .event .none } ∧
      (s.latch.get ch = .none → exec (.poll u ch) s = .next { s with ret := .event .none })) ∧
    (ch.owner ≠ u → exec (.poll u ch) s = .refused .notOwner)

/-- RAISE (41_event_channel.md R145 to R147, decisions D7, D9, D33): the routing table, an empty latch that takes the
code, an overrun that keeps either code and sets the mark, the sticky host bit, and the frame. -/
def Obligations.RaiseRoutes : Prop :=
  (routeChannel .motorStop = some .muCtl ∧ routeChannel .outputReady = some .muCtl ∧
    routeChannel .controllerStop = some .cuCtl ∧ routeChannel .newData = some .cuCtl ∧
    routeChannel .motorReady = some .cuCtl ∧ routeChannel .setArmed = some .cuCtl ∧
    routeChannel .clearArmed = some .cuCtl ∧ routeChannel .sampleTick = some .cuTick ∧
    routeChannel .pwmTick = some .muTick ∧
    (∀ e ∈ [Event.none, .controllerReady, .debug, .reserved12, .reserved13, .reserved14, .reserved15],
      routeChannel e = none) ∧
    ∀ e, routeHost e = true ↔ e ∈ [Event.controllerReady, .motorReady, .debug]) ∧
  ∀ (s : State) (e : Event), ∃ t, exec (.raise e) s = .next t ∧
    t = { s with latch := t.latch, ovr := t.ovr, hostPend := t.hostPend, draws := t.draws } ∧
    (∀ ch, routeChannel e ≠ some ch → t.latch.get ch = s.latch.get ch ∧ t.ovr.get ch = s.ovr.get ch) ∧
    (∀ ch, routeChannel e = some ch → s.latch.get ch = .none → t.latch.get ch = e ∧ t.ovr.get ch = s.ovr.get ch) ∧
    (∀ ch, routeChannel e = some ch → s.latch.get ch ≠ .none →
      (t.latch.get ch = s.latch.get ch ∨ t.latch.get ch = e) ∧ t.ovr.get ch = true) ∧
    (∀ f, t.hostPend.get f = (s.hostPend.get f || (routeHost e && decide (f = e))))

/-- The source's property of a channel (41_event_channel.md R142, worked example): after a raise onto an empty latch,
the owner's poll returns the event and a second immediate poll returns `none`. -/
def Obligations.RaiseThenPoll : Prop :=
  ∀ (s : State) (e : Event) (ch : Channel), routeChannel e = some ch → s.latch.get ch = .none →
    ∃ t1 t2 t3, exec (.raise e) s = .next t1 ∧ exec (.poll ch.owner ch) t1 = .next t2 ∧
      exec (.poll ch.owner ch) t2 = .next t3 ∧ t2.ret = .event e ∧ t3.ret = .event .none ∧
      t3.latch = s.latch ∧ t3.ovr = s.ovr

/-! ### Arithmetic (40_arithmetic.md; the formats and roundings are decisions D1 and D2) -/

/-- `sat`, `fx_add` and `fx_sub` give the exact result brought into the range of an `fx`; doubling never gives zero but
for zero (40_arithmetic.md section 2, R131). For every format (R6). -/
def Obligations.SumsSaturate : Prop :=
  ∀ par : Config.Params, par.fmtOk = true →
    let n := fxInt par
    let hi : Int := 2 ^ (par.numW - 1) - 1
    let saturated : Int → Int := fun v => if hi < v then hi else if v < -hi - 1 then -hi - 1 else v
    (∀ v : Int, n (sat par v) = saturated v) ∧
    (∀ a b : Word, n (fxAdd par a b) = saturated (n a + n b)) ∧
    (∀ a b : Word, n (fxSub par a b) = saturated (n a - n b)) ∧
    ∀ a : Word, n (fxAdd par a a) = 0 → n a = 0

/-- `fx_mul` is the exact product rounded toward minus infinity to one unit in the last place, or saturated;
multiplying by ONE and by zero is exact (40_arithmetic.md section 2). For every format (R6). -/
def Obligations.ProductFloors : Prop :=
  ∀ par : Config.Params, par.fmtOk = true →
    let n := fxInt par
    let hi : Int := 2 ^ (par.numW - 1) - 1
    let q : Int := 2 ^ par.numF
    ∀ a b : Word,
      ((-hi - 1) * q ≤ n a * n b → n a * n b < (hi + 1) * q →
        n (fxMul par a b) * q ≤ n a * n b ∧ n a * n b < (n (fxMul par a b) + 1) * q) ∧
      ((hi + 1) * q ≤ n a * n b → n (fxMul par a b) = hi) ∧
      (n a * n b < (-hi - 1) * q → n (fxMul par a b) = -hi - 1) ∧
      fxMul par a b = fxMul par b a ∧ n (fxMul par a (BitVec.ofInt 32 q)) = n a ∧ fxMul par a 0 = 0

/-- `fx_div` truncates the magnitude of the exact quotient, with the sign of the operands, or saturates; a zero divisor
gives the extremes (40_arithmetic.md section 2). For every format (R6). -/
def Obligations.QuotientTruncates : Prop :=
  ∀ par : Config.Params, par.fmtOk = true →
    let n := fxInt par
    let hi : Int := 2 ^ (par.numW - 1) - 1
    (∀ (a b : Word) (m : Nat), n b ≠ 0 → m = (n a).natAbs * 2 ^ par.numF / (n b).natAbs →
      ((decide (n a < 0) = decide (n b < 0)) → n (fxDiv par a b) = if (m : Int) ≤ hi then (m : Int) else hi) ∧
      ((decide (n a < 0) ≠ decide (n b < 0)) → n (fxDiv par a b) = if (m : Int) ≤ hi + 1 then -(m : Int) else -hi - 1)) ∧
    (∀ a b : Word, n b = 0 → n (fxDiv par a b) = if 0 < n a then hi else if n a < 0 then -hi - 1 else 0) ∧
    ∀ a : Word, n (fxDiv par a (BitVec.ofInt 32 (2 ^ par.numF))) = n a

/-- `clampDuty` gives the value itself inside the hardware-valid range and the nearer end outside it
(40_arithmetic.md section 2, decision D18). -/
def Obligations.DutyClamps : Prop :=
  ∀ (par : Config.Params) (v : Int), par.ok = true →
    ((clampDuty par v).toNat : Int) =
      if v < par.dutyMin.toNat then (par.dutyMin.toNat : Int)
      else if (par.dutyMax.toNat : Int) < v then (par.dutyMax.toNat : Int) else v

/-! ### The filter engine -/

/-- With `td` zero the derivative coefficients are exactly {kp, 0, 0}, whatever the period and the filter coefficient
(42_filter_engine.md R164). -/
def Obligations.ZeroTdIsPureGain : Prop :=
  ∀ (s : State) (k : Fin 4) (cfg : PidCfg) (period filter' : Word), fxInt s.par cfg.td = 0 →
    ∃ t, exec (.configure k cfg period) s = .next t ∧
      (t.fe.get k).c0 = cfg.kpr ∧ (t.fe.get k).c1 = 0 ∧ (t.fe.get k).c2 = 0 ∧
      exec (.configure k { cfg with filter := filter' } period) s = .next t ∧
      t = { s with fe := t.fe } ∧ ∀ j, j ≠ k → t.fe.get j = s.fe.get j

/-- With `ti` zero the integral gain and the anti-windup gain are exactly 0 (42_filter_engine.md R167). -/
def Obligations.ZeroTiHasNoIntegral : Prop :=
  ∀ (s : State) (k : Fin 4) (cfg : PidCfg) (period : Word), fxInt s.par cfg.ti = 0 →
    ∃ t, exec (.configure k cfg period) s = .next t ∧ (t.fe.get k).ki = 0 ∧ (t.fe.get k).kaw = 0 ∧
      t = { s with fe := t.fe } ∧ ∀ j, j ≠ k → t.fe.get j = s.fe.get j

/-- CONFIGURE in every case: the coefficients of 42_filter_engine.md section 2 (the formulas are decisions D11 and
D12), bounds verbatim, zero history, FE_READY; nothing else changes. -/
def Obligations.ConfigureDerives : Prop :=
  ∀ (s : State) (k : Fin 4) (cfg : PidCfg) (period : Word),
    let n := fxInt s.par
    let add := fxAdd s.par
    let sub := fxSub s.par
    let mul := fxMul s.par
    let div := fxDiv s.par
    let nt := mul cfg.filter period
    let td2 := add cfg.td cfg.td
    let den := add nt td2
    let g := mul td2 (add (BitVec.ofInt 32 (2 ^ s.par.numF)) cfg.filter)
    let f : FilterInst :=
      { c0 := if n cfg.td = 0 then cfg.kpr else if n period = 0 then 0 else mul cfg.kpr (div (add nt g) den)
        c1 := if n cfg.td = 0 ∨ n period = 0 then 0 else mul cfg.kpr (div (sub nt g) den)
        c2 := if n cfg.td = 0 ∨ n period = 0 then 0 else div (sub nt td2) den
        ki := if n cfg.ti = 0 ∨ n period = 0 then 0 else div (mul cfg.kpr period) (add cfg.ti cfg.ti)
        kaw := if n cfg.ti = 0 ∨ n period = 0 then 0 else cfg.kaw
        omin := cfg.min, omax := cfg.max, xp := 0, dp := 0, ip := 0, se0 := 0, se1 := 0, state := .ready }
    exec (.configure k cfg period) s = .next { s with fe := s.fe.set k f }

/-- RUN: the seven steps of 42_filter_engine.md section 3 (made exact by decision D14), the output returned, nothing
outside the instance written. `/ q` on the integers is the floor. -/
def Obligations.RunStepsRecurrence : Prop :=
  ∀ (s : State) (k : Fin 4) (x : Word), (s.fe.get k).state ≠ .unconfigured →
    let f := s.fe.get k
    let n := fxInt s.par
    let q : Int := 2 ^ s.par.numF
    let d := sat s.par ((n x * n f.c0 + n f.xp * n f.c1 - n f.dp * n f.c2) / q)
    let ii := sat s.par (n x + n f.se0 * n f.kaw / q)
    let i := sat s.par (n f.ki * (n ii + n f.se1) / q + n f.ip)
    let u := sat s.par (n d + n i)
    let y := if n f.omax < n u then f.omax else if n u < n f.omin then f.omin else u
    exec (.run k x) s =
      .next { s with
        fe := s.fe.set k
          { f with se0 := sat s.par (n y - n u), se1 := ii, xp := x, dp := d, ip := i, state := .running }
        ret := .word y }

/-- With ordered bounds the output of RUN lies in them for every input and every history (42_filter_engine.md R172). -/
def Obligations.RunStaysInBounds : Prop :=
  ∀ (s : State) (k : Fin 4) (x : Word), (s.fe.get k).state ≠ .unconfigured →
    fxInt s.par (s.fe.get k).omin ≤ fxInt s.par (s.fe.get k).omax →
    ∃ t y, exec (.run k x) s = .next t ∧ t.ret = .word y ∧
      fxInt s.par (s.fe.get k).omin ≤ fxInt s.par y ∧ fxInt s.par y ≤ fxInt s.par (s.fe.get k).omax

/-- RESET zeroes the five history registers of one instance and nothing else (42_filter_engine.md R175). -/
def Obligations.ResetZeroesHistory : Prop :=
  ∀ (s : State) (k : Fin 4), (s.fe.get k).state ≠ .unconfigured →
    exec (.reset k) s =
      .next { s with fe := s.fe.set k { s.fe.get k with xp := 0, dp := 0, ip := 0, se0 := 0, se1 := 0 } }

/-- RUN and RESET, taken alone, of an instance that was never configured have no meaning (93_implementation_defined.md
U7, "refuse"). -/
def Obligations.UnconfiguredIsRefused : Prop :=
  ∀ (s : State) (k : Fin 4) (x : Word), (s.fe.get k).state = .unconfigured →
    exec (.run k x) s = .refused .unconfigured ∧ exec (.reset k) s = .refused .unconfigured

/-- RESET and then RUN gives what a freshly configured engine's first RUN gives, output and instance, for any prior
history (42_filter_engine.md section 4; 95_test_vectors.md T3). -/
def Obligations.ResetThenRunIsFresh : Prop :=
  ∀ (s : State) (k : Fin 4) (cfg : PidCfg) (period : Word) (xs : List Word) (x : Word),
    let fresh : FilterInst := feConfigure s.par cfg period
    let used : FilterInst := xs.foldl (fun f x' => (feRun s.par f x').1) fresh
    ∃ t1 t2 t3, exec (.reset k) { s with fe := s.fe.set k used } = .next t1 ∧ exec (.run k x) t1 = .next t2 ∧
      exec (.run k x) { s with fe := s.fe.set k fresh } = .next t3 ∧ t2 = t3

/-! ### The mixer -/

/-- MIX: the signs of 43_motor_mixer.md R192, one floor for each lane, the baseline, the clamp (decision D18); with all
commands zero the four outputs equal the baseline. Nothing but the returned value changes. -/
def Obligations.MixAddsLanes : Prop :=
  ∀ (s : State) (t r p y : Word), s.par.ok = true →
    let n := fxInt s.par
    let lane : Word → Int → Prop := fun out sum =>
      let v : Int := s.par.dutyBase.toNat + sum / 2 ^ s.par.numF
      (out.toNat : Int) =
        if v < s.par.dutyMin.toNat then (s.par.dutyMin.toNat : Int)
        else if (s.par.dutyMax.toNat : Int) < v then (s.par.dutyMax.toNat : Int) else v
    (∃ o0 o1 o2 o3, exec (.mix t r p y) s = .next { s with ret := .duties ⟨o0, o1, o2, o3⟩ } ∧
      lane o0 (n t + n r + n p + n y) ∧ lane o1 (n t - n r + n p - n y) ∧
      lane o2 (n t + n r - n p - n y) ∧ lane o3 (n t - n r - n p + n y)) ∧
    exec (.mix 0 0 0 0) s =
      .next { s with ret := .duties ⟨s.par.dutyBase, s.par.dutyBase, s.par.dutyBase, s.par.dutyBase⟩ }

/-! ### The controller unit -/

/-- `none` selects no handler, and an iteration of the CU with both latches empty changes no state at all
(44_controller_unit.md R222). -/
def Obligations.CuIdleChangesNothing : Prop :=
  ∀ s : State, exec .cuNone s = .next s ∧
    (s.latch.cuCtl = .none → s.latch.cuTick = .none → exec .stepCuActive s = .next s)

/-- A held or halted unit takes no step, and `none` at the MU selects no handler (44_controller_unit.md R200, R223;
45_motor_unit.md R240, R251). -/
def Obligations.HeldAndHaltedTakeNoStep : Prop :=
  ∀ s : State, exec .stepCuHeld s = .next s ∧ exec .stepCuHalt s = .next s ∧ exec .stepMuHeld s = .next s ∧
    exec .stepMuHalt s = .next s ∧ exec .muNone s = .next s

/-- In CU_AWAIT every code but `motor-ready` is discarded (44_controller_unit.md R202, decision D22). -/
def Obligations.AwaitDiscards : Prop :=
  ∀ (s : State), ∀ i ∈ [Instr.awaitNone, .awaitMotorStop, .awaitControllerStop, .awaitNewData, .awaitControllerReady,
      .awaitOutputReady, .awaitSetArmed, .awaitClearArmed, .awaitDebug, .awaitSampleTick, .awaitPwmTick,
      .awaitReserved12, .awaitReserved13, .awaitReserved14, .awaitReserved15],
    exec i s = .next s

/-- CU_AWAIT (44_controller_unit.md R201): only `CU.ctl` is polled; `motor-ready` raises `controller-ready` and ends the
wait, anything else leaves the CU waiting. -/
def Obligations.AwaitEndsOnMotorReady : Prop :=
  ∀ s : State,
    exec .awaitMotorReady s =
      .next { s with hostPend := { s.hostPend with controllerReady := true }, cuState := .config } ∧
    (s.latch.cuCtl = .motorReady →
      exec .stepCuAwait s =
        .next { s with
          latch := { s.latch with cuCtl := .none }
          hostPend := { s.hostPend with controllerReady := true }
          cuState := .config }) ∧
    (s.latch.cuCtl ≠ .motorReady → exec .stepCuAwait s = .next { s with latch := { s.latch with cuCtl := .none } })

/-- `controller-stop` and every unexpected code raise `motor-stop` and nothing else, and the CU keeps looping
(44_controller_unit.md R215, R220). -/
def Obligations.CuStopsRaiseMotorStop : Prop :=
  ∀ (s : State), ∀ i ∈ [Instr.cuControllerStop, .cuMotorStop, .cuControllerReady, .cuOutputReady, .cuDebug, .cuPwmTick,
      .cuReserved12, .cuReserved13, .cuReserved14, .cuReserved15],
    exec i s = exec (.raise .motorStop) s ∧
    (∃ latched mark draws,
      exec i s =
        .next { s with latch := { s.latch with muCtl := latched }, ovr := { s.ovr with muCtl := mark }, draws }) ∧
    (s.latch.muCtl = .none → exec i s = .next { s with latch := { s.latch with muCtl := .motorStop } })

/-- `new-data` (44_controller_unit.md R216): the seven words go to the working set; without the mask's bit 0 nothing
else changes, with it only the words of the debug snapshot and the host's `debug` bit do. -/
def Obligations.NewDataCopiesOdometry : Prop :=
  ∀ s : State, s.memOk = true →
    ∃ t, exec .cuNewData s = .next t ∧
      t = { s with
        wsAtt := ⟨memRead 33 s, memRead 34 s, memRead 35 s⟩
        wsRate := ⟨memRead 36 s, memRead 37 s, memRead 38 s⟩
        wsThrust := memRead 39 s
        mem := t.mem
        hostPend := t.hostPend } ∧
      ((memRead 44 s).getLsbD 0 = false → t.mem = s.mem ∧ t.hostPend = s.hostPend) ∧
      ((memRead 44 s).getLsbD 0 = true →
        t.hostPend = { s.hostPend with debug := true } ∧
        ∀ a, a < 180 ∨ 212 ≤ a → readByte a t = readByte a s)

/-- The debug snapshot's eight words in both phases (10_state.md R46, 44_controller_unit.md R214, decision D20). -/
def Obligations.SnapshotHoldsPhase : Prop :=
  ∀ s t : State, s.memOk = true →
    ((memRead 44 s).getLsbD 0 = true → exec .cuNewData s = .next t →
      memRead 45 t = memRead 33 s ∧ memRead 46 t = memRead 34 s ∧ memRead 47 t = memRead 35 s ∧
      memRead 48 t = memRead 36 s ∧ memRead 49 t = memRead 37 s ∧ memRead 50 t = memRead 38 s ∧
      memRead 51 t = memRead 39 s ∧ memRead 52 t = 0x00000000) ∧
    ((memRead 44 s).getLsbD 1 = true → exec .cuSampleTick s = .next t →
      memRead 45 t = fxMul s.par s.wsAtt.t0 s.kpa.t0 ∧ memRead 46 t = fxMul s.par s.wsAtt.t1 s.kpa.t1 ∧
      memRead 47 t = fxMul s.par s.wsAtt.t2 s.kpa.t2 ∧
      memRead 48 t = (feRun s.par s.fe.q0 (fxSub s.par (fxMul s.par s.wsAtt.t0 s.kpa.t0) s.wsRate.t0)).2 ∧
      memRead 49 t = (feRun s.par s.fe.q1 (fxSub s.par (fxMul s.par s.wsAtt.t1 s.kpa.t1) s.wsRate.t1)).2 ∧
      memRead 50 t = (feRun s.par s.fe.q2 (fxSub s.par (fxMul s.par s.wsAtt.t2 s.kpa.t2) s.wsRate.t2)).2 ∧
      memRead 51 t = (feRun s.par s.fe.q3 s.wsThrust).2 ∧ memRead 52 t = 0x00000001)

/-- `set-armed` enables the sampling timer and does nothing else (44_controller_unit.md R217). -/
def Obligations.SetArmedEnablesTimer : Prop :=
  ∀ s : State, exec .cuSetArmed s = .next { s with tmrS := { s.tmrS with en := true } }

/-- `clear-armed` (44_controller_unit.md R218): the timer off, the baseline published, every filter's history zero,
then RAISE(output-ready); nothing else. -/
def Obligations.ClearArmedPublishesBaseline : Prop :=
  ∀ s : State, s.memOk = true →
    ∃ t0 t, exec .cuClearArmed s = .next t ∧ exec (.raise .outputReady) t0 = .next t ∧
      t0 = { s with tmrS := { s.tmrS with en := false }, fe := t0.fe, mem := t0.mem } ∧
      (∀ k, t0.fe.get k = { s.fe.get k with xp := 0, dp := 0, ip := 0, se0 := 0, se1 := 0 }) ∧
      memRead 40 t0 = s.par.dutyBase ∧ memRead 41 t0 = s.par.dutyBase ∧ memRead 42 t0 = s.par.dutyBase ∧
      memRead 43 t0 = s.par.dutyBase ∧
      (∀ a, a < 160 ∨ 176 ≤ a → readByte a t0 = readByte a s) ∧
      (∀ a, readByte a t = readByte a t0) ∧
      (s.latch.muCtl = .none → t.latch.muCtl = .outputReady)

/-- `sample-tick` (44_controller_unit.md R210 to R213; the place of the two counters is decision D21): the flag is
cleared, the four filters run, the mixed values are published in words 40 to 43 before RAISE(output-ready), words 53 and
54 may hold anything, and every other byte is as before but for the snapshot's, if the mask's bit 1 selects it. -/
def Obligations.SampleTickPublishes : Prop :=
  ∀ s : State, s.memOk = true →
    let r0 := feRun s.par s.fe.q0 (fxSub s.par (fxMul s.par s.wsAtt.t0 s.kpa.t0) s.wsRate.t0)
    let r1 := feRun s.par s.fe.q1 (fxSub s.par (fxMul s.par s.wsAtt.t1 s.kpa.t1) s.wsRate.t1)
    let r2 := feRun s.par s.fe.q2 (fxSub s.par (fxMul s.par s.wsAtt.t2 s.kpa.t2) s.wsRate.t2)
    let r3 := feRun s.par s.fe.q3 s.wsThrust
    ∃ t0 t1 t, exec .cuSampleTick s = .next t ∧ exec (.raise .outputReady) t0 = .next t1 ∧
      t0 = { s with tmrS := { s.tmrS with flag := false }, fe := ⟨r0.1, r1.1, r2.1, r3.1⟩, mem := t0.mem, draws := t0.draws } ∧
      exec (.mix r3.2 r0.2 r1.2 r2.2) s =
        .next { s with ret := .duties ⟨memRead 40 t0, memRead 41 t0, memRead 42 t0, memRead 43 t0⟩ } ∧
      (∀ a, a < 160 ∨ (176 ≤ a ∧ a < 212) ∨ 220 ≤ a → readByte a t0 = readByte a s) ∧
      ((memRead 44 s).getLsbD 1 = false → t = t1) ∧
      ((memRead 44 s).getLsbD 1 = true →
        t = { t1 with mem := t.mem, hostPend := { t1.hostPend with debug := true } } ∧
        ∀ a, a < 180 ∨ 212 ≤ a → readByte a t = readByte a t1)

/-- `motor-ready` in the loop shuts the CU down, armed or not (44_controller_unit.md R219, R221, decisions D23, D24). -/
def Obligations.MotorReadyShutsDown : Prop :=
  ∀ s : State, exec .cuMotorReady s =
    .next { s with
      tmrS := { s.tmrS with en := false }
      hostPend := { s.hostPend with controllerReady := true }
      cuState := .halt }

/-- The configuration step (44_controller_unit.md R203): the period, the outer gains, CONFIGURE of each instance with its
own eight words and the period, and into the loop, idle or armed as before. -/
def Obligations.ConfigStepLoadsAll : Prop :=
  ∀ s : State,
    let cfg : Fin 4 → PidCfg := fun k =>
      ⟨memRead (1 + 8 * k.val) s, memRead (1 + 8 * k.val + 1) s, memRead (1 + 8 * k.val + 2) s,
       memRead (1 + 8 * k.val + 3) s, memRead (1 + 8 * k.val + 4) s, memRead (1 + 8 * k.val + 5) s,
       memRead (1 + 8 * k.val + 6) s, memRead (1 + 8 * k.val + 7) s⟩
    ∃ t, exec .stepCuConfig s = .next t ∧
      t = { s with
        periodL := memRead 0 s
        kpa := ⟨memRead 1 s, memRead 9 s, memRead 17 s⟩
        fe := t.fe
        cuState := .active } ∧
      ∀ k, ∃ u, exec (.configure k (cfg k) (memRead 0 s)) s = .next u ∧ t.fe.get k = u.fe.get k

/-- One iteration of the CU's loop (44_controller_unit.md R204, decision D10): poll and dispatch `CU.ctl`, and then, if
the CU is still in the loop, `CU.tick`. -/
def Obligations.CuActiveIterates : Prop :=
  ∀ s : State,
    ∃ t1 t, exec (cuActiveRow s.latch.cuCtl) { s with latch := { s.latch with cuCtl := .none } } = .next t1 ∧
      (t1.cuState = .active →
        exec (cuActiveRow t1.latch.cuTick) { t1 with latch := { t1.latch with cuTick := .none } } = .next t) ∧
      (t1.cuState ≠ .active → t = t1) ∧
      exec .stepCuActive s = .next t

/-! ### The motor unit -/

/-- One iteration of the MU's loop (45_motor_unit.md R242, R249, decisions D10, D31): poll and dispatch `MU.ctl`; if still
in the loop, `MU.tick`; if still in the loop, the compare step, which deasserts each pin whose motor's duty value the
counter has reached. -/
def Obligations.MuActiveIterates : Prop :=
  ∀ s : State,
    ∃ t1 t2 t, exec (muRow s.latch.muCtl) { s with latch := { s.latch with muCtl := .none } } = .next t1 ∧
      (t1.muState = .active →
        exec (muRow t1.latch.muTick) { t1 with latch := { t1.latch with muTick := .none } } = .next t2) ∧
      (t1.muState ≠ .active → t2 = t1) ∧
      (t2.muState = .active →
        t = { t2 with pin := t.pin } ∧
        ∀ m, t.pin.get m = (t2.pin.get m && decide (t2.tmrP.cnt.toNat < (t2.duty.get m).toNat))) ∧
      (t2.muState ≠ .active → t = t2) ∧
      exec .stepMuActive s = .next t

/-- `pwm-tick`: the flag is cleared and all four pins are asserted (45_motor_unit.md R245). -/
def Obligations.PwmTickAssertsPins : Prop :=
  ∀ s : State, exec .muPwmTick s =
    .next { s with tmrP := { s.tmrP with flag := false }, pin := ⟨true, true, true, true⟩ }

/-- `output-ready`: the four words of `pid_output`, clamped, go to the duty registers (45_motor_unit.md R246). -/
def Obligations.OutputReadyLoadsDuty : Prop :=
  ∀ s : State, exec .muOutputReady s =
    .next { s with
      duty := ⟨clampDuty s.par (memRead 40 s).toNat, clampDuty s.par (memRead 41 s).toNat,
        clampDuty s.par (memRead 42 s).toNat, clampDuty s.par (memRead 43 s).toNat⟩ }

/-- `motor-stop` and every unexpected code leave the MU's loop by the exit sequence: pins low, RAISE(motor-ready), halt
(45_motor_unit.md R247, R248, R250). -/
def Obligations.MuExitsOnStop : Prop :=
  ∀ (s : State), ∀ i ∈ [Instr.muMotorStop, .muControllerStop, .muNewData, .muControllerReady, .muMotorReady, .muSetArmed,
      .muClearArmed, .muDebug, .muSampleTick, .muReserved12, .muReserved13, .muReserved14, .muReserved15],
    ∃ t, exec (.raise .motorReady) { s with pin := ⟨false, false, false, false⟩ } = .next t ∧
      exec i s = .next { t with muState := .halt } ∧ t.hostPend = { s.hostPend with motorReady := true } ∧
      (s.latch.cuCtl = .none → t.latch = { s.latch with cuCtl := .motorReady })

/-- MU_BOOT (45_motor_unit.md R241; the clamp is decision D32): RAISE(motor-ready), the PWM timer started at zero, the
duty registers loaded, and into the loop. -/
def Obligations.MuBootStarts : Prop :=
  ∀ s : State, ∃ t, exec (.raise .motorReady) s = .next t ∧
    exec .stepMuBoot s =
      .next { t with
        tmrP := { s.tmrP with run := true, cnt := 0 }
        duty := ⟨clampDuty s.par (memRead 40 s).toNat, clampDuty s.par (memRead 41 s).toNat,
          clampDuty s.par (memRead 42 s).toNat, clampDuty s.par (memRead 43 s).toNat⟩
        muState := .active }

/-! ### The host, the timers and the pins -/

/-- The host's other moves (46_host_and_timers.md R273 to R276, decisions D8, D33, D36): the four events it raises, `ack`,
`inject`, and the two starts; what is no such move is refused (log entry 14). -/
def Obligations.HostMovesAct : Prop :=
  ∀ s : State,
    (∀ e ∈ [Event.newData, .setArmed, .clearArmed, .controllerStop],
      doMove (.hostRaise e) s = exec (.raise e) s) ∧
    (∀ e, e ∉ [Event.newData, .setArmed, .clearArmed, .controllerStop] →
      doMove (.hostRaise e) s = .refused .noSuchMove) ∧
    (∀ e, eventNamed e = true →
      ∃ t, doMove (.hostAck e) s = .next t ∧ t = { s with hostPend := t.hostPend } ∧
        ∀ f, t.hostPend.get f = (s.hostPend.get f && decide (f ≠ e))) ∧
    (∀ ch e, s.par.mayInject = true → e ≠ .none →
      ∃ t, doMove (.hostInject ch e) s = .next t ∧
        t = { s with latch := s.latch.set ch (t.latch.get ch), ovr := s.ovr.set ch (t.ovr.get ch), draws := t.draws } ∧
        (s.latch.get ch = .none → t.latch.get ch = e ∧ t.ovr.get ch = s.ovr.get ch) ∧
        (s.latch.get ch ≠ .none →
          (t.latch.get ch = s.latch.get ch ∨ t.latch.get ch = e) ∧ t.ovr.get ch = true)) ∧
    (∀ e, eventNamed e = false → doMove (.hostAck e) s = .refused .noSuchMove) ∧
    (∀ ch, s.par.mayInject = true → doMove (.hostInject ch .none) s = .refused .noSuchMove) ∧
    (∀ ch e, s.par.mayInject = false → doMove (.hostInject ch e) s = .refused .injectOff) ∧
    doMove (.hostStart .cu) s = .next { s with cuState := if s.cuState = .held then .await else s.cuState } ∧
    doMove (.hostStart .mu) s = .next { s with muState := if s.muState = .held then .boot else s.muState }

/-- The timers' moves (46_host_and_timers.md R281, R286, decisions D30, D29): enabled only while the FCE enables them; a
fire sets the flag and raises `sample-tick`; an advance adds to the counter, and on a wrap sets the flag and raises
`pwm-tick`. -/
def Obligations.TimersFire : Prop :=
  ∀ s : State,
    (s.tmrS.en = true →
      doMove .timerSFire s = exec (.raise .sampleTick) { s with tmrS := { s.tmrS with flag := true } }) ∧
    (s.tmrS.en = false → doMove .timerSFire s = .refused .notEnabled) ∧
    (∀ n, n = 0 ∨ s.par.pwmPeriod.toNat ≤ n → doMove (.timerPAdvance n) s = .refused .noSuchMove) ∧
    (∀ n, s.tmrP.run = false → 1 ≤ n → n < s.par.pwmPeriod.toNat →
      doMove (.timerPAdvance n) s = .refused .notEnabled) ∧
    (∀ n, s.tmrP.run = true → 1 ≤ n → n < s.par.pwmPeriod.toNat → s.tmrP.cnt.toNat < s.par.pwmPeriod.toNat →
      ∃ t, doMove (.timerPAdvance n) s = .next t ∧
        (s.tmrP.cnt.toNat + n < s.par.pwmPeriod.toNat →
          t = { s with tmrP := { s.tmrP with cnt := t.tmrP.cnt } } ∧ t.tmrP.cnt.toNat = s.tmrP.cnt.toNat + n) ∧
        (s.par.pwmPeriod.toNat ≤ s.tmrP.cnt.toNat + n →
          t.tmrP.cnt.toNat + s.par.pwmPeriod.toNat = s.tmrP.cnt.toNat + n ∧
          exec (.raise .pwmTick) { s with tmrP := { s.tmrP with cnt := t.tmrP.cnt, flag := true } } = .next t))

/-- The pin operations (46_host_and_timers.md R289): the pins whose mask bit is 1 are set or cleared, the others keep
their value, and nothing else changes. -/
def Obligations.PinsFollowMask : Prop :=
  ∀ (s : State) (m : Word),
    (∀ k : Fin 4, (assertPins m s).pin.get k = if m.getLsbD k.val then true else s.pin.get k) ∧
    (∀ k : Fin 4, (deassertPins m s).pin.get k = if m.getLsbD k.val then false else s.pin.get k) ∧
    assertPins m s = { s with pin := (assertPins m s).pin } ∧
    deassertPins m s = { s with pin := (deassertPins m s).pin }

end
end

