-- ==== Sys2Proof/Laws/State.lean ====
section
/-! SUPPORT. What each update of the state leaves alone, one lemma for each field, and the get and set laws of the
small register files. -/

namespace Sys2Proof

@[simp] theorem Tri.get_set {α : Type} (t : Tri α) (a b : Fin 3) (v : α) :
    (t.set a v).get b = if b = a then v else t.get b := by
  match a, b with
  | 0, 0 | 0, 1 | 0, 2 | 1, 0 | 1, 1 | 1, 2 | 2, 0 | 2, 1 | 2, 2 => rfl

@[simp] theorem Quad.get_set {α : Type} (q : Quad α) (j k : Fin 4) (v : α) :
    (q.set j v).get k = if k = j then v else q.get k := by
  match j, k with
  | 0, 0 | 0, 1 | 0, 2 | 0, 3 | 1, 0 | 1, 1 | 1, 2 | 1, 3 | 2, 0 | 2, 1 | 2, 2 | 2, 3 | 3, 0 | 3, 1 | 3, 2 | 3, 3 => rfl

@[simp] theorem Quad.get_fill {α : Type} (a : α) (k : Fin 4) : (Quad.fill a).get k = a := by
  match k with
  | 0 | 1 | 2 | 3 => rfl

@[simp] theorem Quad.get_map {α β : Type} (f : α → β) (q : Quad α) (k : Fin 4) : (q.map f).get k = f (q.get k) := by
  match k with
  | 0 | 1 | 2 | 3 => rfl

namespace Machine

@[simp] theorem PerChannel.get_set {α : Type} (p : PerChannel α) (c d : Channel) (v : α) :
    (p.set c v).get d = if d = c then v else p.get d := by
  cases c <;> cases d <;> rfl

@[simp] theorem HostPend.get_set (p : HostPend) (e f : Event) (b : Bool) :
    (p.set e b).get f = if f = e ∧ eventNamed e = true then b else p.get f := by
  cases e <;> cases f <;> rfl

/-! ### memWrite -/

@[simp] theorem memWrite_fe (n : Nat) (v : Word) (s : State) : (memWrite n v s).fe = s.fe := rfl
@[simp] theorem memWrite_kpa (n : Nat) (v : Word) (s : State) : (memWrite n v s).kpa = s.kpa := rfl
@[simp] theorem memWrite_periodL (n : Nat) (v : Word) (s : State) : (memWrite n v s).periodL = s.periodL := rfl
@[simp] theorem memWrite_wsAtt (n : Nat) (v : Word) (s : State) : (memWrite n v s).wsAtt = s.wsAtt := rfl
@[simp] theorem memWrite_wsRate (n : Nat) (v : Word) (s : State) : (memWrite n v s).wsRate = s.wsRate := rfl
@[simp] theorem memWrite_wsThrust (n : Nat) (v : Word) (s : State) : (memWrite n v s).wsThrust = s.wsThrust := rfl
@[simp] theorem memWrite_cuState (n : Nat) (v : Word) (s : State) : (memWrite n v s).cuState = s.cuState := rfl
@[simp] theorem memWrite_latch (n : Nat) (v : Word) (s : State) : (memWrite n v s).latch = s.latch := rfl
@[simp] theorem memWrite_duty (n : Nat) (v : Word) (s : State) : (memWrite n v s).duty = s.duty := rfl
@[simp] theorem memWrite_muState (n : Nat) (v : Word) (s : State) : (memWrite n v s).muState = s.muState := rfl
@[simp] theorem memWrite_hostPend (n : Nat) (v : Word) (s : State) : (memWrite n v s).hostPend = s.hostPend := rfl
@[simp] theorem memWrite_pin (n : Nat) (v : Word) (s : State) : (memWrite n v s).pin = s.pin := rfl
@[simp] theorem memWrite_tmrS (n : Nat) (v : Word) (s : State) : (memWrite n v s).tmrS = s.tmrS := rfl
@[simp] theorem memWrite_tmrP (n : Nat) (v : Word) (s : State) : (memWrite n v s).tmrP = s.tmrP := rfl
@[simp] theorem memWrite_ovr (n : Nat) (v : Word) (s : State) : (memWrite n v s).ovr = s.ovr := rfl
@[simp] theorem memWrite_par (n : Nat) (v : Word) (s : State) : (memWrite n v s).par = s.par := rfl
@[simp] theorem memWrite_script (n : Nat) (v : Word) (s : State) : (memWrite n v s).script = s.script := rfl
@[simp] theorem memWrite_cuPend (n : Nat) (v : Word) (s : State) : (memWrite n v s).cuPend = s.cuPend := rfl
@[simp] theorem memWrite_muPend (n : Nat) (v : Word) (s : State) : (memWrite n v s).muPend = s.muPend := rfl
@[simp] theorem memWrite_ret (n : Nat) (v : Word) (s : State) : (memWrite n v s).ret = s.ret := rfl
@[simp] theorem memWrite_draws (n : Nat) (v : Word) (s : State) : (memWrite n v s).draws = s.draws := rfl
@[simp] theorem memWrite_scbSeed (n : Nat) (v : Word) (s : State) : (memWrite n v s).scbSeed = s.scbSeed := rfl

/-! ### memWriteFree -/

@[simp] theorem memWriteFree_fe (n : Nat) (s : State) : (memWriteFree n s).fe = s.fe := rfl
@[simp] theorem memWriteFree_kpa (n : Nat) (s : State) : (memWriteFree n s).kpa = s.kpa := rfl
@[simp] theorem memWriteFree_periodL (n : Nat) (s : State) : (memWriteFree n s).periodL = s.periodL := rfl
@[simp] theorem memWriteFree_wsAtt (n : Nat) (s : State) : (memWriteFree n s).wsAtt = s.wsAtt := rfl
@[simp] theorem memWriteFree_wsRate (n : Nat) (s : State) : (memWriteFree n s).wsRate = s.wsRate := rfl
@[simp] theorem memWriteFree_wsThrust (n : Nat) (s : State) : (memWriteFree n s).wsThrust = s.wsThrust := rfl
@[simp] theorem memWriteFree_cuState (n : Nat) (s : State) : (memWriteFree n s).cuState = s.cuState := rfl
@[simp] theorem memWriteFree_latch (n : Nat) (s : State) : (memWriteFree n s).latch = s.latch := rfl
@[simp] theorem memWriteFree_duty (n : Nat) (s : State) : (memWriteFree n s).duty = s.duty := rfl
@[simp] theorem memWriteFree_muState (n : Nat) (s : State) : (memWriteFree n s).muState = s.muState := rfl
@[simp] theorem memWriteFree_hostPend (n : Nat) (s : State) : (memWriteFree n s).hostPend = s.hostPend := rfl
@[simp] theorem memWriteFree_pin (n : Nat) (s : State) : (memWriteFree n s).pin = s.pin := rfl
@[simp] theorem memWriteFree_tmrS (n : Nat) (s : State) : (memWriteFree n s).tmrS = s.tmrS := rfl
@[simp] theorem memWriteFree_tmrP (n : Nat) (s : State) : (memWriteFree n s).tmrP = s.tmrP := rfl
@[simp] theorem memWriteFree_ovr (n : Nat) (s : State) : (memWriteFree n s).ovr = s.ovr := rfl
@[simp] theorem memWriteFree_par (n : Nat) (s : State) : (memWriteFree n s).par = s.par := rfl
@[simp] theorem memWriteFree_script (n : Nat) (s : State) : (memWriteFree n s).script = s.script := rfl
@[simp] theorem memWriteFree_cuPend (n : Nat) (s : State) : (memWriteFree n s).cuPend = s.cuPend := rfl
@[simp] theorem memWriteFree_muPend (n : Nat) (s : State) : (memWriteFree n s).muPend = s.muPend := rfl
@[simp] theorem memWriteFree_ret (n : Nat) (s : State) : (memWriteFree n s).ret = s.ret := rfl
@[simp] theorem memWriteFree_scbSeed (n : Nat) (s : State) : (memWriteFree n s).scbSeed = s.scbSeed := rfl

/-! ### pollChannel -/

@[simp] theorem pollChannel_fe (ch : Channel) (s : State) : (pollChannel ch s).2.fe = s.fe := rfl
@[simp] theorem pollChannel_kpa (ch : Channel) (s : State) : (pollChannel ch s).2.kpa = s.kpa := rfl
@[simp] theorem pollChannel_periodL (ch : Channel) (s : State) : (pollChannel ch s).2.periodL = s.periodL := rfl
@[simp] theorem pollChannel_wsAtt (ch : Channel) (s : State) : (pollChannel ch s).2.wsAtt = s.wsAtt := rfl
@[simp] theorem pollChannel_wsRate (ch : Channel) (s : State) : (pollChannel ch s).2.wsRate = s.wsRate := rfl
@[simp] theorem pollChannel_wsThrust (ch : Channel) (s : State) : (pollChannel ch s).2.wsThrust = s.wsThrust := rfl
@[simp] theorem pollChannel_cuState (ch : Channel) (s : State) : (pollChannel ch s).2.cuState = s.cuState := rfl
@[simp] theorem pollChannel_duty (ch : Channel) (s : State) : (pollChannel ch s).2.duty = s.duty := rfl
@[simp] theorem pollChannel_muState (ch : Channel) (s : State) : (pollChannel ch s).2.muState = s.muState := rfl
@[simp] theorem pollChannel_hostPend (ch : Channel) (s : State) : (pollChannel ch s).2.hostPend = s.hostPend := rfl
@[simp] theorem pollChannel_pin (ch : Channel) (s : State) : (pollChannel ch s).2.pin = s.pin := rfl
@[simp] theorem pollChannel_tmrS (ch : Channel) (s : State) : (pollChannel ch s).2.tmrS = s.tmrS := rfl
@[simp] theorem pollChannel_tmrP (ch : Channel) (s : State) : (pollChannel ch s).2.tmrP = s.tmrP := rfl
@[simp] theorem pollChannel_ovr (ch : Channel) (s : State) : (pollChannel ch s).2.ovr = s.ovr := rfl
@[simp] theorem pollChannel_mem (ch : Channel) (s : State) : (pollChannel ch s).2.mem = s.mem := rfl
@[simp] theorem pollChannel_par (ch : Channel) (s : State) : (pollChannel ch s).2.par = s.par := rfl
@[simp] theorem pollChannel_script (ch : Channel) (s : State) : (pollChannel ch s).2.script = s.script := rfl
@[simp] theorem pollChannel_cuPend (ch : Channel) (s : State) : (pollChannel ch s).2.cuPend = s.cuPend := rfl
@[simp] theorem pollChannel_muPend (ch : Channel) (s : State) : (pollChannel ch s).2.muPend = s.muPend := rfl
@[simp] theorem pollChannel_ret (ch : Channel) (s : State) : (pollChannel ch s).2.ret = s.ret := rfl
@[simp] theorem pollChannel_draws (ch : Channel) (s : State) : (pollChannel ch s).2.draws = s.draws := rfl
@[simp] theorem pollChannel_scbSeed (ch : Channel) (s : State) : (pollChannel ch s).2.scbSeed = s.scbSeed := rfl

/-! ### latchSet -/

@[simp] theorem latchSet_fe (ch : Channel) (e : Event) (s : State) : (latchSet ch e s).fe = s.fe := rfl
@[simp] theorem latchSet_kpa (ch : Channel) (e : Event) (s : State) : (latchSet ch e s).kpa = s.kpa := rfl
@[simp] theorem latchSet_periodL (ch : Channel) (e : Event) (s : State) : (latchSet ch e s).periodL = s.periodL := rfl
@[simp] theorem latchSet_wsAtt (ch : Channel) (e : Event) (s : State) : (latchSet ch e s).wsAtt = s.wsAtt := rfl
@[simp] theorem latchSet_wsRate (ch : Channel) (e : Event) (s : State) : (latchSet ch e s).wsRate = s.wsRate := rfl
@[simp] theorem latchSet_wsThrust (ch : Channel) (e : Event) (s : State) : (latchSet ch e s).wsThrust = s.wsThrust := rfl
@[simp] theorem latchSet_cuState (ch : Channel) (e : Event) (s : State) : (latchSet ch e s).cuState = s.cuState := rfl
@[simp] theorem latchSet_duty (ch : Channel) (e : Event) (s : State) : (latchSet ch e s).duty = s.duty := rfl
@[simp] theorem latchSet_muState (ch : Channel) (e : Event) (s : State) : (latchSet ch e s).muState = s.muState := rfl
@[simp] theorem latchSet_hostPend (ch : Channel) (e : Event) (s : State) : (latchSet ch e s).hostPend = s.hostPend := rfl
@[simp] theorem latchSet_pin (ch : Channel) (e : Event) (s : State) : (latchSet ch e s).pin = s.pin := rfl
@[simp] theorem latchSet_tmrS (ch : Channel) (e : Event) (s : State) : (latchSet ch e s).tmrS = s.tmrS := rfl
@[simp] theorem latchSet_tmrP (ch : Channel) (e : Event) (s : State) : (latchSet ch e s).tmrP = s.tmrP := rfl
@[simp] theorem latchSet_mem (ch : Channel) (e : Event) (s : State) : (latchSet ch e s).mem = s.mem := rfl
@[simp] theorem latchSet_par (ch : Channel) (e : Event) (s : State) : (latchSet ch e s).par = s.par := rfl
@[simp] theorem latchSet_script (ch : Channel) (e : Event) (s : State) : (latchSet ch e s).script = s.script := rfl
@[simp] theorem latchSet_cuPend (ch : Channel) (e : Event) (s : State) : (latchSet ch e s).cuPend = s.cuPend := rfl
@[simp] theorem latchSet_muPend (ch : Channel) (e : Event) (s : State) : (latchSet ch e s).muPend = s.muPend := rfl
@[simp] theorem latchSet_ret (ch : Channel) (e : Event) (s : State) : (latchSet ch e s).ret = s.ret := rfl
@[simp] theorem latchSet_scbSeed (ch : Channel) (e : Event) (s : State) : (latchSet ch e s).scbSeed = s.scbSeed := rfl

/-! ### hostSignal -/

@[simp] theorem hostSignal_fe (e : Event) (s : State) : (hostSignal e s).fe = s.fe := rfl
@[simp] theorem hostSignal_kpa (e : Event) (s : State) : (hostSignal e s).kpa = s.kpa := rfl
@[simp] theorem hostSignal_periodL (e : Event) (s : State) : (hostSignal e s).periodL = s.periodL := rfl
@[simp] theorem hostSignal_wsAtt (e : Event) (s : State) : (hostSignal e s).wsAtt = s.wsAtt := rfl
@[simp] theorem hostSignal_wsRate (e : Event) (s : State) : (hostSignal e s).wsRate = s.wsRate := rfl
@[simp] theorem hostSignal_wsThrust (e : Event) (s : State) : (hostSignal e s).wsThrust = s.wsThrust := rfl
@[simp] theorem hostSignal_cuState (e : Event) (s : State) : (hostSignal e s).cuState = s.cuState := rfl
@[simp] theorem hostSignal_latch (e : Event) (s : State) : (hostSignal e s).latch = s.latch := rfl
@[simp] theorem hostSignal_duty (e : Event) (s : State) : (hostSignal e s).duty = s.duty := rfl
@[simp] theorem hostSignal_muState (e : Event) (s : State) : (hostSignal e s).muState = s.muState := rfl
@[simp] theorem hostSignal_pin (e : Event) (s : State) : (hostSignal e s).pin = s.pin := rfl
@[simp] theorem hostSignal_tmrS (e : Event) (s : State) : (hostSignal e s).tmrS = s.tmrS := rfl
@[simp] theorem hostSignal_tmrP (e : Event) (s : State) : (hostSignal e s).tmrP = s.tmrP := rfl
@[simp] theorem hostSignal_ovr (e : Event) (s : State) : (hostSignal e s).ovr = s.ovr := rfl
@[simp] theorem hostSignal_mem (e : Event) (s : State) : (hostSignal e s).mem = s.mem := rfl
@[simp] theorem hostSignal_par (e : Event) (s : State) : (hostSignal e s).par = s.par := rfl
@[simp] theorem hostSignal_script (e : Event) (s : State) : (hostSignal e s).script = s.script := rfl
@[simp] theorem hostSignal_cuPend (e : Event) (s : State) : (hostSignal e s).cuPend = s.cuPend := rfl
@[simp] theorem hostSignal_muPend (e : Event) (s : State) : (hostSignal e s).muPend = s.muPend := rfl
@[simp] theorem hostSignal_ret (e : Event) (s : State) : (hostSignal e s).ret = s.ret := rfl
@[simp] theorem hostSignal_draws (e : Event) (s : State) : (hostSignal e s).draws = s.draws := rfl
@[simp] theorem hostSignal_scbSeed (e : Event) (s : State) : (hostSignal e s).scbSeed = s.scbSeed := rfl

/-! ### raiseEvent -/

@[simp] theorem raiseEvent_fe (e : Event) (s : State) : (raiseEvent e s).fe = s.fe := by cases e <;> rfl
@[simp] theorem raiseEvent_kpa (e : Event) (s : State) : (raiseEvent e s).kpa = s.kpa := by cases e <;> rfl
@[simp] theorem raiseEvent_periodL (e : Event) (s : State) : (raiseEvent e s).periodL = s.periodL := by cases e <;> rfl
@[simp] theorem raiseEvent_wsAtt (e : Event) (s : State) : (raiseEvent e s).wsAtt = s.wsAtt := by cases e <;> rfl
@[simp] theorem raiseEvent_wsRate (e : Event) (s : State) : (raiseEvent e s).wsRate = s.wsRate := by cases e <;> rfl
@[simp] theorem raiseEvent_wsThrust (e : Event) (s : State) : (raiseEvent e s).wsThrust = s.wsThrust := by cases e <;> rfl
@[simp] theorem raiseEvent_cuState (e : Event) (s : State) : (raiseEvent e s).cuState = s.cuState := by cases e <;> rfl
@[simp] theorem raiseEvent_duty (e : Event) (s : State) : (raiseEvent e s).duty = s.duty := by cases e <;> rfl
@[simp] theorem raiseEvent_muState (e : Event) (s : State) : (raiseEvent e s).muState = s.muState := by cases e <;> rfl
@[simp] theorem raiseEvent_pin (e : Event) (s : State) : (raiseEvent e s).pin = s.pin := by cases e <;> rfl
@[simp] theorem raiseEvent_tmrS (e : Event) (s : State) : (raiseEvent e s).tmrS = s.tmrS := by cases e <;> rfl
@[simp] theorem raiseEvent_tmrP (e : Event) (s : State) : (raiseEvent e s).tmrP = s.tmrP := by cases e <;> rfl
@[simp] theorem raiseEvent_mem (e : Event) (s : State) : (raiseEvent e s).mem = s.mem := by cases e <;> rfl
@[simp] theorem raiseEvent_par (e : Event) (s : State) : (raiseEvent e s).par = s.par := by cases e <;> rfl
@[simp] theorem raiseEvent_script (e : Event) (s : State) : (raiseEvent e s).script = s.script := by cases e <;> rfl
@[simp] theorem raiseEvent_cuPend (e : Event) (s : State) : (raiseEvent e s).cuPend = s.cuPend := by cases e <;> rfl
@[simp] theorem raiseEvent_muPend (e : Event) (s : State) : (raiseEvent e s).muPend = s.muPend := by cases e <;> rfl
@[simp] theorem raiseEvent_ret (e : Event) (s : State) : (raiseEvent e s).ret = s.ret := by cases e <;> rfl
@[simp] theorem raiseEvent_scbSeed (e : Event) (s : State) : (raiseEvent e s).scbSeed = s.scbSeed := by cases e <;> rfl

/-! ### tmrSEnable -/

@[simp] theorem tmrSEnable_fe (s : State) : (tmrSEnable s).fe = s.fe := rfl
@[simp] theorem tmrSEnable_kpa (s : State) : (tmrSEnable s).kpa = s.kpa := rfl
@[simp] theorem tmrSEnable_periodL (s : State) : (tmrSEnable s).periodL = s.periodL := rfl
@[simp] theorem tmrSEnable_wsAtt (s : State) : (tmrSEnable s).wsAtt = s.wsAtt := rfl
@[simp] theorem tmrSEnable_wsRate (s : State) : (tmrSEnable s).wsRate = s.wsRate := rfl
@[simp] theorem tmrSEnable_wsThrust (s : State) : (tmrSEnable s).wsThrust = s.wsThrust := rfl
@[simp] theorem tmrSEnable_cuState (s : State) : (tmrSEnable s).cuState = s.cuState := rfl
@[simp] theorem tmrSEnable_latch (s : State) : (tmrSEnable s).latch = s.latch := rfl
@[simp] theorem tmrSEnable_duty (s : State) : (tmrSEnable s).duty = s.duty := rfl
@[simp] theorem tmrSEnable_muState (s : State) : (tmrSEnable s).muState = s.muState := rfl
@[simp] theorem tmrSEnable_hostPend (s : State) : (tmrSEnable s).hostPend = s.hostPend := rfl
@[simp] theorem tmrSEnable_pin (s : State) : (tmrSEnable s).pin = s.pin := rfl
@[simp] theorem tmrSEnable_tmrP (s : State) : (tmrSEnable s).tmrP = s.tmrP := rfl
@[simp] theorem tmrSEnable_ovr (s : State) : (tmrSEnable s).ovr = s.ovr := rfl
@[simp] theorem tmrSEnable_mem (s : State) : (tmrSEnable s).mem = s.mem := rfl
@[simp] theorem tmrSEnable_par (s : State) : (tmrSEnable s).par = s.par := rfl
@[simp] theorem tmrSEnable_script (s : State) : (tmrSEnable s).script = s.script := rfl
@[simp] theorem tmrSEnable_cuPend (s : State) : (tmrSEnable s).cuPend = s.cuPend := rfl
@[simp] theorem tmrSEnable_muPend (s : State) : (tmrSEnable s).muPend = s.muPend := rfl
@[simp] theorem tmrSEnable_ret (s : State) : (tmrSEnable s).ret = s.ret := rfl
@[simp] theorem tmrSEnable_draws (s : State) : (tmrSEnable s).draws = s.draws := rfl
@[simp] theorem tmrSEnable_scbSeed (s : State) : (tmrSEnable s).scbSeed = s.scbSeed := rfl

/-! ### tmrSDisable -/

@[simp] theorem tmrSDisable_fe (s : State) : (tmrSDisable s).fe = s.fe := rfl
@[simp] theorem tmrSDisable_kpa (s : State) : (tmrSDisable s).kpa = s.kpa := rfl
@[simp] theorem tmrSDisable_periodL (s : State) : (tmrSDisable s).periodL = s.periodL := rfl
@[simp] theorem tmrSDisable_wsAtt (s : State) : (tmrSDisable s).wsAtt = s.wsAtt := rfl
@[simp] theorem tmrSDisable_wsRate (s : State) : (tmrSDisable s).wsRate = s.wsRate := rfl
@[simp] theorem tmrSDisable_wsThrust (s : State) : (tmrSDisable s).wsThrust = s.wsThrust := rfl
@[simp] theorem tmrSDisable_cuState (s : State) : (tmrSDisable s).cuState = s.cuState := rfl
@[simp] theorem tmrSDisable_latch (s : State) : (tmrSDisable s).latch = s.latch := rfl
@[simp] theorem tmrSDisable_duty (s : State) : (tmrSDisable s).duty = s.duty := rfl
@[simp] theorem tmrSDisable_muState (s : State) : (tmrSDisable s).muState = s.muState := rfl
@[simp] theorem tmrSDisable_hostPend (s : State) : (tmrSDisable s).hostPend = s.hostPend := rfl
@[simp] theorem tmrSDisable_pin (s : State) : (tmrSDisable s).pin = s.pin := rfl
@[simp] theorem tmrSDisable_tmrP (s : State) : (tmrSDisable s).tmrP = s.tmrP := rfl
@[simp] theorem tmrSDisable_ovr (s : State) : (tmrSDisable s).ovr = s.ovr := rfl
@[simp] theorem tmrSDisable_mem (s : State) : (tmrSDisable s).mem = s.mem := rfl
@[simp] theorem tmrSDisable_par (s : State) : (tmrSDisable s).par = s.par := rfl
@[simp] theorem tmrSDisable_script (s : State) : (tmrSDisable s).script = s.script := rfl
@[simp] theorem tmrSDisable_cuPend (s : State) : (tmrSDisable s).cuPend = s.cuPend := rfl
@[simp] theorem tmrSDisable_muPend (s : State) : (tmrSDisable s).muPend = s.muPend := rfl
@[simp] theorem tmrSDisable_ret (s : State) : (tmrSDisable s).ret = s.ret := rfl
@[simp] theorem tmrSDisable_draws (s : State) : (tmrSDisable s).draws = s.draws := rfl
@[simp] theorem tmrSDisable_scbSeed (s : State) : (tmrSDisable s).scbSeed = s.scbSeed := rfl

/-! ### tmrSClearFlag -/

@[simp] theorem tmrSClearFlag_fe (s : State) : (tmrSClearFlag s).fe = s.fe := rfl
@[simp] theorem tmrSClearFlag_kpa (s : State) : (tmrSClearFlag s).kpa = s.kpa := rfl
@[simp] theorem tmrSClearFlag_periodL (s : State) : (tmrSClearFlag s).periodL = s.periodL := rfl
@[simp] theorem tmrSClearFlag_wsAtt (s : State) : (tmrSClearFlag s).wsAtt = s.wsAtt := rfl
@[simp] theorem tmrSClearFlag_wsRate (s : State) : (tmrSClearFlag s).wsRate = s.wsRate := rfl
@[simp] theorem tmrSClearFlag_wsThrust (s : State) : (tmrSClearFlag s).wsThrust = s.wsThrust := rfl
@[simp] theorem tmrSClearFlag_cuState (s : State) : (tmrSClearFlag s).cuState = s.cuState := rfl
@[simp] theorem tmrSClearFlag_latch (s : State) : (tmrSClearFlag s).latch = s.latch := rfl
@[simp] theorem tmrSClearFlag_duty (s : State) : (tmrSClearFlag s).duty = s.duty := rfl
@[simp] theorem tmrSClearFlag_muState (s : State) : (tmrSClearFlag s).muState = s.muState := rfl
@[simp] theorem tmrSClearFlag_hostPend (s : State) : (tmrSClearFlag s).hostPend = s.hostPend := rfl
@[simp] theorem tmrSClearFlag_pin (s : State) : (tmrSClearFlag s).pin = s.pin := rfl
@[simp] theorem tmrSClearFlag_tmrP (s : State) : (tmrSClearFlag s).tmrP = s.tmrP := rfl
@[simp] theorem tmrSClearFlag_ovr (s : State) : (tmrSClearFlag s).ovr = s.ovr := rfl
@[simp] theorem tmrSClearFlag_mem (s : State) : (tmrSClearFlag s).mem = s.mem := rfl
@[simp] theorem tmrSClearFlag_par (s : State) : (tmrSClearFlag s).par = s.par := rfl
@[simp] theorem tmrSClearFlag_script (s : State) : (tmrSClearFlag s).script = s.script := rfl
@[simp] theorem tmrSClearFlag_cuPend (s : State) : (tmrSClearFlag s).cuPend = s.cuPend := rfl
@[simp] theorem tmrSClearFlag_muPend (s : State) : (tmrSClearFlag s).muPend = s.muPend := rfl
@[simp] theorem tmrSClearFlag_ret (s : State) : (tmrSClearFlag s).ret = s.ret := rfl
@[simp] theorem tmrSClearFlag_draws (s : State) : (tmrSClearFlag s).draws = s.draws := rfl
@[simp] theorem tmrSClearFlag_scbSeed (s : State) : (tmrSClearFlag s).scbSeed = s.scbSeed := rfl

/-! ### tmrPConfigure -/

@[simp] theorem tmrPConfigure_fe (s : State) : (tmrPConfigure s).fe = s.fe := rfl
@[simp] theorem tmrPConfigure_kpa (s : State) : (tmrPConfigure s).kpa = s.kpa := rfl
@[simp] theorem tmrPConfigure_periodL (s : State) : (tmrPConfigure s).periodL = s.periodL := rfl
@[simp] theorem tmrPConfigure_wsAtt (s : State) : (tmrPConfigure s).wsAtt = s.wsAtt := rfl
@[simp] theorem tmrPConfigure_wsRate (s : State) : (tmrPConfigure s).wsRate = s.wsRate := rfl
@[simp] theorem tmrPConfigure_wsThrust (s : State) : (tmrPConfigure s).wsThrust = s.wsThrust := rfl
@[simp] theorem tmrPConfigure_cuState (s : State) : (tmrPConfigure s).cuState = s.cuState := rfl
@[simp] theorem tmrPConfigure_latch (s : State) : (tmrPConfigure s).latch = s.latch := rfl
@[simp] theorem tmrPConfigure_duty (s : State) : (tmrPConfigure s).duty = s.duty := rfl
@[simp] theorem tmrPConfigure_muState (s : State) : (tmrPConfigure s).muState = s.muState := rfl
@[simp] theorem tmrPConfigure_hostPend (s : State) : (tmrPConfigure s).hostPend = s.hostPend := rfl
@[simp] theorem tmrPConfigure_pin (s : State) : (tmrPConfigure s).pin = s.pin := rfl
@[simp] theorem tmrPConfigure_tmrS (s : State) : (tmrPConfigure s).tmrS = s.tmrS := rfl
@[simp] theorem tmrPConfigure_ovr (s : State) : (tmrPConfigure s).ovr = s.ovr := rfl
@[simp] theorem tmrPConfigure_mem (s : State) : (tmrPConfigure s).mem = s.mem := rfl
@[simp] theorem tmrPConfigure_par (s : State) : (tmrPConfigure s).par = s.par := rfl
@[simp] theorem tmrPConfigure_script (s : State) : (tmrPConfigure s).script = s.script := rfl
@[simp] theorem tmrPConfigure_cuPend (s : State) : (tmrPConfigure s).cuPend = s.cuPend := rfl
@[simp] theorem tmrPConfigure_muPend (s : State) : (tmrPConfigure s).muPend = s.muPend := rfl
@[simp] theorem tmrPConfigure_ret (s : State) : (tmrPConfigure s).ret = s.ret := rfl
@[simp] theorem tmrPConfigure_draws (s : State) : (tmrPConfigure s).draws = s.draws := rfl
@[simp] theorem tmrPConfigure_scbSeed (s : State) : (tmrPConfigure s).scbSeed = s.scbSeed := rfl

/-! ### tmrPClearFlag -/

@[simp] theorem tmrPClearFlag_fe (s : State) : (tmrPClearFlag s).fe = s.fe := rfl
@[simp] theorem tmrPClearFlag_kpa (s : State) : (tmrPClearFlag s).kpa = s.kpa := rfl
@[simp] theorem tmrPClearFlag_periodL (s : State) : (tmrPClearFlag s).periodL = s.periodL := rfl
@[simp] theorem tmrPClearFlag_wsAtt (s : State) : (tmrPClearFlag s).wsAtt = s.wsAtt := rfl
@[simp] theorem tmrPClearFlag_wsRate (s : State) : (tmrPClearFlag s).wsRate = s.wsRate := rfl
@[simp] theorem tmrPClearFlag_wsThrust (s : State) : (tmrPClearFlag s).wsThrust = s.wsThrust := rfl
@[simp] theorem tmrPClearFlag_cuState (s : State) : (tmrPClearFlag s).cuState = s.cuState := rfl
@[simp] theorem tmrPClearFlag_latch (s : State) : (tmrPClearFlag s).latch = s.latch := rfl
@[simp] theorem tmrPClearFlag_duty (s : State) : (tmrPClearFlag s).duty = s.duty := rfl
@[simp] theorem tmrPClearFlag_muState (s : State) : (tmrPClearFlag s).muState = s.muState := rfl
@[simp] theorem tmrPClearFlag_hostPend (s : State) : (tmrPClearFlag s).hostPend = s.hostPend := rfl
@[simp] theorem tmrPClearFlag_pin (s : State) : (tmrPClearFlag s).pin = s.pin := rfl
@[simp] theorem tmrPClearFlag_tmrS (s : State) : (tmrPClearFlag s).tmrS = s.tmrS := rfl
@[simp] theorem tmrPClearFlag_ovr (s : State) : (tmrPClearFlag s).ovr = s.ovr := rfl
@[simp] theorem tmrPClearFlag_mem (s : State) : (tmrPClearFlag s).mem = s.mem := rfl
@[simp] theorem tmrPClearFlag_par (s : State) : (tmrPClearFlag s).par = s.par := rfl
@[simp] theorem tmrPClearFlag_script (s : State) : (tmrPClearFlag s).script = s.script := rfl
@[simp] theorem tmrPClearFlag_cuPend (s : State) : (tmrPClearFlag s).cuPend = s.cuPend := rfl
@[simp] theorem tmrPClearFlag_muPend (s : State) : (tmrPClearFlag s).muPend = s.muPend := rfl
@[simp] theorem tmrPClearFlag_ret (s : State) : (tmrPClearFlag s).ret = s.ret := rfl
@[simp] theorem tmrPClearFlag_draws (s : State) : (tmrPClearFlag s).draws = s.draws := rfl
@[simp] theorem tmrPClearFlag_scbSeed (s : State) : (tmrPClearFlag s).scbSeed = s.scbSeed := rfl

/-! ### assertPins -/

@[simp] theorem assertPins_fe (m : Word) (s : State) : (assertPins m s).fe = s.fe := rfl
@[simp] theorem assertPins_kpa (m : Word) (s : State) : (assertPins m s).kpa = s.kpa := rfl
@[simp] theorem assertPins_periodL (m : Word) (s : State) : (assertPins m s).periodL = s.periodL := rfl
@[simp] theorem assertPins_wsAtt (m : Word) (s : State) : (assertPins m s).wsAtt = s.wsAtt := rfl
@[simp] theorem assertPins_wsRate (m : Word) (s : State) : (assertPins m s).wsRate = s.wsRate := rfl
@[simp] theorem assertPins_wsThrust (m : Word) (s : State) : (assertPins m s).wsThrust = s.wsThrust := rfl
@[simp] theorem assertPins_cuState (m : Word) (s : State) : (assertPins m s).cuState = s.cuState := rfl
@[simp] theorem assertPins_latch (m : Word) (s : State) : (assertPins m s).latch = s.latch := rfl
@[simp] theorem assertPins_duty (m : Word) (s : State) : (assertPins m s).duty = s.duty := rfl
@[simp] theorem assertPins_muState (m : Word) (s : State) : (assertPins m s).muState = s.muState := rfl
@[simp] theorem assertPins_hostPend (m : Word) (s : State) : (assertPins m s).hostPend = s.hostPend := rfl
@[simp] theorem assertPins_tmrS (m : Word) (s : State) : (assertPins m s).tmrS = s.tmrS := rfl
@[simp] theorem assertPins_tmrP (m : Word) (s : State) : (assertPins m s).tmrP = s.tmrP := rfl
@[simp] theorem assertPins_ovr (m : Word) (s : State) : (assertPins m s).ovr = s.ovr := rfl
@[simp] theorem assertPins_mem (m : Word) (s : State) : (assertPins m s).mem = s.mem := rfl
@[simp] theorem assertPins_par (m : Word) (s : State) : (assertPins m s).par = s.par := rfl
@[simp] theorem assertPins_script (m : Word) (s : State) : (assertPins m s).script = s.script := rfl
@[simp] theorem assertPins_cuPend (m : Word) (s : State) : (assertPins m s).cuPend = s.cuPend := rfl
@[simp] theorem assertPins_muPend (m : Word) (s : State) : (assertPins m s).muPend = s.muPend := rfl
@[simp] theorem assertPins_ret (m : Word) (s : State) : (assertPins m s).ret = s.ret := rfl
@[simp] theorem assertPins_draws (m : Word) (s : State) : (assertPins m s).draws = s.draws := rfl
@[simp] theorem assertPins_scbSeed (m : Word) (s : State) : (assertPins m s).scbSeed = s.scbSeed := rfl

/-! ### deassertPins -/

@[simp] theorem deassertPins_fe (m : Word) (s : State) : (deassertPins m s).fe = s.fe := rfl
@[simp] theorem deassertPins_kpa (m : Word) (s : State) : (deassertPins m s).kpa = s.kpa := rfl
@[simp] theorem deassertPins_periodL (m : Word) (s : State) : (deassertPins m s).periodL = s.periodL := rfl
@[simp] theorem deassertPins_wsAtt (m : Word) (s : State) : (deassertPins m s).wsAtt = s.wsAtt := rfl
@[simp] theorem deassertPins_wsRate (m : Word) (s : State) : (deassertPins m s).wsRate = s.wsRate := rfl
@[simp] theorem deassertPins_wsThrust (m : Word) (s : State) : (deassertPins m s).wsThrust = s.wsThrust := rfl
@[simp] theorem deassertPins_cuState (m : Word) (s : State) : (deassertPins m s).cuState = s.cuState := rfl
@[simp] theorem deassertPins_latch (m : Word) (s : State) : (deassertPins m s).latch = s.latch := rfl
@[simp] theorem deassertPins_duty (m : Word) (s : State) : (deassertPins m s).duty = s.duty := rfl
@[simp] theorem deassertPins_muState (m : Word) (s : State) : (deassertPins m s).muState = s.muState := rfl
@[simp] theorem deassertPins_hostPend (m : Word) (s : State) : (deassertPins m s).hostPend = s.hostPend := rfl
@[simp] theorem deassertPins_tmrS (m : Word) (s : State) : (deassertPins m s).tmrS = s.tmrS := rfl
@[simp] theorem deassertPins_tmrP (m : Word) (s : State) : (deassertPins m s).tmrP = s.tmrP := rfl
@[simp] theorem deassertPins_ovr (m : Word) (s : State) : (deassertPins m s).ovr = s.ovr := rfl
@[simp] theorem deassertPins_mem (m : Word) (s : State) : (deassertPins m s).mem = s.mem := rfl
@[simp] theorem deassertPins_par (m : Word) (s : State) : (deassertPins m s).par = s.par := rfl
@[simp] theorem deassertPins_script (m : Word) (s : State) : (deassertPins m s).script = s.script := rfl
@[simp] theorem deassertPins_cuPend (m : Word) (s : State) : (deassertPins m s).cuPend = s.cuPend := rfl
@[simp] theorem deassertPins_muPend (m : Word) (s : State) : (deassertPins m s).muPend = s.muPend := rfl
@[simp] theorem deassertPins_ret (m : Word) (s : State) : (deassertPins m s).ret = s.ret := rfl
@[simp] theorem deassertPins_draws (m : Word) (s : State) : (deassertPins m s).draws = s.draws := rfl
@[simp] theorem deassertPins_scbSeed (m : Word) (s : State) : (deassertPins m s).scbSeed = s.scbSeed := rfl

/-! ### loadOdometry -/

@[simp] theorem loadOdometry_fe (s : State) : (loadOdometry s).fe = s.fe := rfl
@[simp] theorem loadOdometry_kpa (s : State) : (loadOdometry s).kpa = s.kpa := rfl
@[simp] theorem loadOdometry_periodL (s : State) : (loadOdometry s).periodL = s.periodL := rfl
@[simp] theorem loadOdometry_cuState (s : State) : (loadOdometry s).cuState = s.cuState := rfl
@[simp] theorem loadOdometry_latch (s : State) : (loadOdometry s).latch = s.latch := rfl
@[simp] theorem loadOdometry_duty (s : State) : (loadOdometry s).duty = s.duty := rfl
@[simp] theorem loadOdometry_muState (s : State) : (loadOdometry s).muState = s.muState := rfl
@[simp] theorem loadOdometry_hostPend (s : State) : (loadOdometry s).hostPend = s.hostPend := rfl
@[simp] theorem loadOdometry_pin (s : State) : (loadOdometry s).pin = s.pin := rfl
@[simp] theorem loadOdometry_tmrS (s : State) : (loadOdometry s).tmrS = s.tmrS := rfl
@[simp] theorem loadOdometry_tmrP (s : State) : (loadOdometry s).tmrP = s.tmrP := rfl
@[simp] theorem loadOdometry_ovr (s : State) : (loadOdometry s).ovr = s.ovr := rfl
@[simp] theorem loadOdometry_mem (s : State) : (loadOdometry s).mem = s.mem := rfl
@[simp] theorem loadOdometry_par (s : State) : (loadOdometry s).par = s.par := rfl
@[simp] theorem loadOdometry_script (s : State) : (loadOdometry s).script = s.script := rfl
@[simp] theorem loadOdometry_cuPend (s : State) : (loadOdometry s).cuPend = s.cuPend := rfl
@[simp] theorem loadOdometry_muPend (s : State) : (loadOdometry s).muPend = s.muPend := rfl
@[simp] theorem loadOdometry_ret (s : State) : (loadOdometry s).ret = s.ret := rfl
@[simp] theorem loadOdometry_draws (s : State) : (loadOdometry s).draws = s.draws := rfl
@[simp] theorem loadOdometry_scbSeed (s : State) : (loadOdometry s).scbSeed = s.scbSeed := rfl

/-! ### loadDuty -/

@[simp] theorem loadDuty_fe (s : State) : (loadDuty s).fe = s.fe := rfl
@[simp] theorem loadDuty_kpa (s : State) : (loadDuty s).kpa = s.kpa := rfl
@[simp] theorem loadDuty_periodL (s : State) : (loadDuty s).periodL = s.periodL := rfl
@[simp] theorem loadDuty_wsAtt (s : State) : (loadDuty s).wsAtt = s.wsAtt := rfl
@[simp] theorem loadDuty_wsRate (s : State) : (loadDuty s).wsRate = s.wsRate := rfl
@[simp] theorem loadDuty_wsThrust (s : State) : (loadDuty s).wsThrust = s.wsThrust := rfl
@[simp] theorem loadDuty_cuState (s : State) : (loadDuty s).cuState = s.cuState := rfl
@[simp] theorem loadDuty_latch (s : State) : (loadDuty s).latch = s.latch := rfl
@[simp] theorem loadDuty_muState (s : State) : (loadDuty s).muState = s.muState := rfl
@[simp] theorem loadDuty_hostPend (s : State) : (loadDuty s).hostPend = s.hostPend := rfl
@[simp] theorem loadDuty_pin (s : State) : (loadDuty s).pin = s.pin := rfl
@[simp] theorem loadDuty_tmrS (s : State) : (loadDuty s).tmrS = s.tmrS := rfl
@[simp] theorem loadDuty_tmrP (s : State) : (loadDuty s).tmrP = s.tmrP := rfl
@[simp] theorem loadDuty_ovr (s : State) : (loadDuty s).ovr = s.ovr := rfl
@[simp] theorem loadDuty_mem (s : State) : (loadDuty s).mem = s.mem := rfl
@[simp] theorem loadDuty_par (s : State) : (loadDuty s).par = s.par := rfl
@[simp] theorem loadDuty_script (s : State) : (loadDuty s).script = s.script := rfl
@[simp] theorem loadDuty_cuPend (s : State) : (loadDuty s).cuPend = s.cuPend := rfl
@[simp] theorem loadDuty_muPend (s : State) : (loadDuty s).muPend = s.muPend := rfl
@[simp] theorem loadDuty_ret (s : State) : (loadDuty s).ret = s.ret := rfl
@[simp] theorem loadDuty_draws (s : State) : (loadDuty s).draws = s.draws := rfl
@[simp] theorem loadDuty_scbSeed (s : State) : (loadDuty s).scbSeed = s.scbSeed := rfl

/-! ### resetFilters -/

@[simp] theorem resetFilters_kpa (s : State) : (resetFilters s).kpa = s.kpa := rfl
@[simp] theorem resetFilters_periodL (s : State) : (resetFilters s).periodL = s.periodL := rfl
@[simp] theorem resetFilters_wsAtt (s : State) : (resetFilters s).wsAtt = s.wsAtt := rfl
@[simp] theorem resetFilters_wsRate (s : State) : (resetFilters s).wsRate = s.wsRate := rfl
@[simp] theorem resetFilters_wsThrust (s : State) : (resetFilters s).wsThrust = s.wsThrust := rfl
@[simp] theorem resetFilters_cuState (s : State) : (resetFilters s).cuState = s.cuState := rfl
@[simp] theorem resetFilters_latch (s : State) : (resetFilters s).latch = s.latch := rfl
@[simp] theorem resetFilters_duty (s : State) : (resetFilters s).duty = s.duty := rfl
@[simp] theorem resetFilters_muState (s : State) : (resetFilters s).muState = s.muState := rfl
@[simp] theorem resetFilters_hostPend (s : State) : (resetFilters s).hostPend = s.hostPend := rfl
@[simp] theorem resetFilters_pin (s : State) : (resetFilters s).pin = s.pin := rfl
@[simp] theorem resetFilters_tmrS (s : State) : (resetFilters s).tmrS = s.tmrS := rfl
@[simp] theorem resetFilters_tmrP (s : State) : (resetFilters s).tmrP = s.tmrP := rfl
@[simp] theorem resetFilters_ovr (s : State) : (resetFilters s).ovr = s.ovr := rfl
@[simp] theorem resetFilters_mem (s : State) : (resetFilters s).mem = s.mem := rfl
@[simp] theorem resetFilters_par (s : State) : (resetFilters s).par = s.par := rfl
@[simp] theorem resetFilters_script (s : State) : (resetFilters s).script = s.script := rfl
@[simp] theorem resetFilters_cuPend (s : State) : (resetFilters s).cuPend = s.cuPend := rfl
@[simp] theorem resetFilters_muPend (s : State) : (resetFilters s).muPend = s.muPend := rfl
@[simp] theorem resetFilters_ret (s : State) : (resetFilters s).ret = s.ret := rfl
@[simp] theorem resetFilters_draws (s : State) : (resetFilters s).draws = s.draws := rfl
@[simp] theorem resetFilters_scbSeed (s : State) : (resetFilters s).scbSeed = s.scbSeed := rfl

/-! ### configureAll -/

@[simp] theorem configureAll_periodL (cfg : Quad PidCfg) (s : State) : (configureAll cfg s).periodL = s.periodL := rfl
@[simp] theorem configureAll_wsAtt (cfg : Quad PidCfg) (s : State) : (configureAll cfg s).wsAtt = s.wsAtt := rfl
@[simp] theorem configureAll_wsRate (cfg : Quad PidCfg) (s : State) : (configureAll cfg s).wsRate = s.wsRate := rfl
@[simp] theorem configureAll_wsThrust (cfg : Quad PidCfg) (s : State) : (configureAll cfg s).wsThrust = s.wsThrust := rfl
@[simp] theorem configureAll_cuState (cfg : Quad PidCfg) (s : State) : (configureAll cfg s).cuState = s.cuState := rfl
@[simp] theorem configureAll_latch (cfg : Quad PidCfg) (s : State) : (configureAll cfg s).latch = s.latch := rfl
@[simp] theorem configureAll_duty (cfg : Quad PidCfg) (s : State) : (configureAll cfg s).duty = s.duty := rfl
@[simp] theorem configureAll_muState (cfg : Quad PidCfg) (s : State) : (configureAll cfg s).muState = s.muState := rfl
@[simp] theorem configureAll_hostPend (cfg : Quad PidCfg) (s : State) : (configureAll cfg s).hostPend = s.hostPend := rfl
@[simp] theorem configureAll_pin (cfg : Quad PidCfg) (s : State) : (configureAll cfg s).pin = s.pin := rfl
@[simp] theorem configureAll_tmrS (cfg : Quad PidCfg) (s : State) : (configureAll cfg s).tmrS = s.tmrS := rfl
@[simp] theorem configureAll_tmrP (cfg : Quad PidCfg) (s : State) : (configureAll cfg s).tmrP = s.tmrP := rfl
@[simp] theorem configureAll_ovr (cfg : Quad PidCfg) (s : State) : (configureAll cfg s).ovr = s.ovr := rfl
@[simp] theorem configureAll_mem (cfg : Quad PidCfg) (s : State) : (configureAll cfg s).mem = s.mem := rfl
@[simp] theorem configureAll_par (cfg : Quad PidCfg) (s : State) : (configureAll cfg s).par = s.par := rfl
@[simp] theorem configureAll_script (cfg : Quad PidCfg) (s : State) : (configureAll cfg s).script = s.script := rfl
@[simp] theorem configureAll_cuPend (cfg : Quad PidCfg) (s : State) : (configureAll cfg s).cuPend = s.cuPend := rfl
@[simp] theorem configureAll_muPend (cfg : Quad PidCfg) (s : State) : (configureAll cfg s).muPend = s.muPend := rfl
@[simp] theorem configureAll_ret (cfg : Quad PidCfg) (s : State) : (configureAll cfg s).ret = s.ret := rfl
@[simp] theorem configureAll_draws (cfg : Quad PidCfg) (s : State) : (configureAll cfg s).draws = s.draws := rfl
@[simp] theorem configureAll_scbSeed (cfg : Quad PidCfg) (s : State) : (configureAll cfg s).scbSeed = s.scbSeed := rfl

@[simp] theorem memWriteAll_fe (ws : List (WordOff × Word)) (s : State) : (memWriteAll ws s).fe = s.fe := by
  induction ws generalizing s with
  | nil => rfl
  | cons w ws ih => simp [memWriteAll, ih]
@[simp] theorem memWriteAll_kpa (ws : List (WordOff × Word)) (s : State) : (memWriteAll ws s).kpa = s.kpa := by
  induction ws generalizing s with
  | nil => rfl
  | cons w ws ih => simp [memWriteAll, ih]
@[simp] theorem memWriteAll_periodL (ws : List (WordOff × Word)) (s : State) : (memWriteAll ws s).periodL = s.periodL := by
  induction ws generalizing s with
  | nil => rfl
  | cons w ws ih => simp [memWriteAll, ih]
@[simp] theorem memWriteAll_wsAtt (ws : List (WordOff × Word)) (s : State) : (memWriteAll ws s).wsAtt = s.wsAtt := by
  induction ws generalizing s with
  | nil => rfl
  | cons w ws ih => simp [memWriteAll, ih]
@[simp] theorem memWriteAll_wsRate (ws : List (WordOff × Word)) (s : State) : (memWriteAll ws s).wsRate = s.wsRate := by
  induction ws generalizing s with
  | nil => rfl
  | cons w ws ih => simp [memWriteAll, ih]
@[simp] theorem memWriteAll_wsThrust (ws : List (WordOff × Word)) (s : State) : (memWriteAll ws s).wsThrust = s.wsThrust := by
  induction ws generalizing s with
  | nil => rfl
  | cons w ws ih => simp [memWriteAll, ih]
@[simp] theorem memWriteAll_cuState (ws : List (WordOff × Word)) (s : State) : (memWriteAll ws s).cuState = s.cuState := by
  induction ws generalizing s with
  | nil => rfl
  | cons w ws ih => simp [memWriteAll, ih]
@[simp] theorem memWriteAll_latch (ws : List (WordOff × Word)) (s : State) : (memWriteAll ws s).latch = s.latch := by
  induction ws generalizing s with
  | nil => rfl
  | cons w ws ih => simp [memWriteAll, ih]
@[simp] theorem memWriteAll_duty (ws : List (WordOff × Word)) (s : State) : (memWriteAll ws s).duty = s.duty := by
  induction ws generalizing s with
  | nil => rfl
  | cons w ws ih => simp [memWriteAll, ih]
@[simp] theorem memWriteAll_muState (ws : List (WordOff × Word)) (s : State) : (memWriteAll ws s).muState = s.muState := by
  induction ws generalizing s with
  | nil => rfl
  | cons w ws ih => simp [memWriteAll, ih]
@[simp] theorem memWriteAll_hostPend (ws : List (WordOff × Word)) (s : State) : (memWriteAll ws s).hostPend = s.hostPend := by
  induction ws generalizing s with
  | nil => rfl
  | cons w ws ih => simp [memWriteAll, ih]
@[simp] theorem memWriteAll_pin (ws : List (WordOff × Word)) (s : State) : (memWriteAll ws s).pin = s.pin := by
  induction ws generalizing s with
  | nil => rfl
  | cons w ws ih => simp [memWriteAll, ih]
@[simp] theorem memWriteAll_tmrS (ws : List (WordOff × Word)) (s : State) : (memWriteAll ws s).tmrS = s.tmrS := by
  induction ws generalizing s with
  | nil => rfl
  | cons w ws ih => simp [memWriteAll, ih]
@[simp] theorem memWriteAll_tmrP (ws : List (WordOff × Word)) (s : State) : (memWriteAll ws s).tmrP = s.tmrP := by
  induction ws generalizing s with
  | nil => rfl
  | cons w ws ih => simp [memWriteAll, ih]
@[simp] theorem memWriteAll_ovr (ws : List (WordOff × Word)) (s : State) : (memWriteAll ws s).ovr = s.ovr := by
  induction ws generalizing s with
  | nil => rfl
  | cons w ws ih => simp [memWriteAll, ih]
@[simp] theorem memWriteAll_par (ws : List (WordOff × Word)) (s : State) : (memWriteAll ws s).par = s.par := by
  induction ws generalizing s with
  | nil => rfl
  | cons w ws ih => simp [memWriteAll, ih]
@[simp] theorem memWriteAll_script (ws : List (WordOff × Word)) (s : State) : (memWriteAll ws s).script = s.script := by
  induction ws generalizing s with
  | nil => rfl
  | cons w ws ih => simp [memWriteAll, ih]
@[simp] theorem memWriteAll_cuPend (ws : List (WordOff × Word)) (s : State) : (memWriteAll ws s).cuPend = s.cuPend := by
  induction ws generalizing s with
  | nil => rfl
  | cons w ws ih => simp [memWriteAll, ih]
@[simp] theorem memWriteAll_muPend (ws : List (WordOff × Word)) (s : State) : (memWriteAll ws s).muPend = s.muPend := by
  induction ws generalizing s with
  | nil => rfl
  | cons w ws ih => simp [memWriteAll, ih]
@[simp] theorem memWriteAll_ret (ws : List (WordOff × Word)) (s : State) : (memWriteAll ws s).ret = s.ret := by
  induction ws generalizing s with
  | nil => rfl
  | cons w ws ih => simp [memWriteAll, ih]
@[simp] theorem memWriteAll_draws (ws : List (WordOff × Word)) (s : State) : (memWriteAll ws s).draws = s.draws := by
  induction ws generalizing s with
  | nil => rfl
  | cons w ws ih => simp [memWriteAll, ih]
@[simp] theorem memWriteAll_scbSeed (ws : List (WordOff × Word)) (s : State) : (memWriteAll ws s).scbSeed = s.scbSeed := by
  induction ws generalizing s with
  | nil => rfl
  | cons w ws ih => simp [memWriteAll, ih]

@[simp] theorem setPend_cu_fe (acts : List Act) (s : State) : (setPend .cu acts s).fe = s.fe := rfl
@[simp] theorem setPend_cu_kpa (acts : List Act) (s : State) : (setPend .cu acts s).kpa = s.kpa := rfl
@[simp] theorem setPend_cu_periodL (acts : List Act) (s : State) : (setPend .cu acts s).periodL = s.periodL := rfl
@[simp] theorem setPend_cu_wsAtt (acts : List Act) (s : State) : (setPend .cu acts s).wsAtt = s.wsAtt := rfl
@[simp] theorem setPend_cu_wsRate (acts : List Act) (s : State) : (setPend .cu acts s).wsRate = s.wsRate := rfl
@[simp] theorem setPend_cu_wsThrust (acts : List Act) (s : State) : (setPend .cu acts s).wsThrust = s.wsThrust := rfl
@[simp] theorem setPend_cu_cuState (acts : List Act) (s : State) : (setPend .cu acts s).cuState = s.cuState := rfl
@[simp] theorem setPend_cu_latch (acts : List Act) (s : State) : (setPend .cu acts s).latch = s.latch := rfl
@[simp] theorem setPend_cu_duty (acts : List Act) (s : State) : (setPend .cu acts s).duty = s.duty := rfl
@[simp] theorem setPend_cu_muState (acts : List Act) (s : State) : (setPend .cu acts s).muState = s.muState := rfl
@[simp] theorem setPend_cu_hostPend (acts : List Act) (s : State) : (setPend .cu acts s).hostPend = s.hostPend := rfl
@[simp] theorem setPend_cu_pin (acts : List Act) (s : State) : (setPend .cu acts s).pin = s.pin := rfl
@[simp] theorem setPend_cu_tmrS (acts : List Act) (s : State) : (setPend .cu acts s).tmrS = s.tmrS := rfl
@[simp] theorem setPend_cu_tmrP (acts : List Act) (s : State) : (setPend .cu acts s).tmrP = s.tmrP := rfl
@[simp] theorem setPend_cu_ovr (acts : List Act) (s : State) : (setPend .cu acts s).ovr = s.ovr := rfl
@[simp] theorem setPend_cu_mem (acts : List Act) (s : State) : (setPend .cu acts s).mem = s.mem := rfl
@[simp] theorem setPend_cu_par (acts : List Act) (s : State) : (setPend .cu acts s).par = s.par := rfl
@[simp] theorem setPend_cu_script (acts : List Act) (s : State) : (setPend .cu acts s).script = s.script := rfl
@[simp] theorem setPend_cu_cuPend (acts : List Act) (s : State) : (setPend .cu acts s).cuPend = acts := rfl
@[simp] theorem setPend_cu_muPend (acts : List Act) (s : State) : (setPend .cu acts s).muPend = s.muPend := rfl
@[simp] theorem setPend_cu_ret (acts : List Act) (s : State) : (setPend .cu acts s).ret = s.ret := rfl
@[simp] theorem setPend_cu_draws (acts : List Act) (s : State) : (setPend .cu acts s).draws = s.draws := rfl
@[simp] theorem setPend_cu_scbSeed (acts : List Act) (s : State) : (setPend .cu acts s).scbSeed = s.scbSeed := rfl
@[simp] theorem setPend_mu_fe (acts : List Act) (s : State) : (setPend .mu acts s).fe = s.fe := rfl
@[simp] theorem setPend_mu_kpa (acts : List Act) (s : State) : (setPend .mu acts s).kpa = s.kpa := rfl
@[simp] theorem setPend_mu_periodL (acts : List Act) (s : State) : (setPend .mu acts s).periodL = s.periodL := rfl
@[simp] theorem setPend_mu_wsAtt (acts : List Act) (s : State) : (setPend .mu acts s).wsAtt = s.wsAtt := rfl
@[simp] theorem setPend_mu_wsRate (acts : List Act) (s : State) : (setPend .mu acts s).wsRate = s.wsRate := rfl
@[simp] theorem setPend_mu_wsThrust (acts : List Act) (s : State) : (setPend .mu acts s).wsThrust = s.wsThrust := rfl
@[simp] theorem setPend_mu_cuState (acts : List Act) (s : State) : (setPend .mu acts s).cuState = s.cuState := rfl
@[simp] theorem setPend_mu_latch (acts : List Act) (s : State) : (setPend .mu acts s).latch = s.latch := rfl
@[simp] theorem setPend_mu_duty (acts : List Act) (s : State) : (setPend .mu acts s).duty = s.duty := rfl
@[simp] theorem setPend_mu_muState (acts : List Act) (s : State) : (setPend .mu acts s).muState = s.muState := rfl
@[simp] theorem setPend_mu_hostPend (acts : List Act) (s : State) : (setPend .mu acts s).hostPend = s.hostPend := rfl
@[simp] theorem setPend_mu_pin (acts : List Act) (s : State) : (setPend .mu acts s).pin = s.pin := rfl
@[simp] theorem setPend_mu_tmrS (acts : List Act) (s : State) : (setPend .mu acts s).tmrS = s.tmrS := rfl
@[simp] theorem setPend_mu_tmrP (acts : List Act) (s : State) : (setPend .mu acts s).tmrP = s.tmrP := rfl
@[simp] theorem setPend_mu_ovr (acts : List Act) (s : State) : (setPend .mu acts s).ovr = s.ovr := rfl
@[simp] theorem setPend_mu_mem (acts : List Act) (s : State) : (setPend .mu acts s).mem = s.mem := rfl
@[simp] theorem setPend_mu_par (acts : List Act) (s : State) : (setPend .mu acts s).par = s.par := rfl
@[simp] theorem setPend_mu_script (acts : List Act) (s : State) : (setPend .mu acts s).script = s.script := rfl
@[simp] theorem setPend_mu_cuPend (acts : List Act) (s : State) : (setPend .mu acts s).cuPend = s.cuPend := rfl
@[simp] theorem setPend_mu_muPend (acts : List Act) (s : State) : (setPend .mu acts s).muPend = acts := rfl
@[simp] theorem setPend_mu_ret (acts : List Act) (s : State) : (setPend .mu acts s).ret = s.ret := rfl
@[simp] theorem setPend_mu_draws (acts : List Act) (s : State) : (setPend .mu acts s).draws = s.draws := rfl
@[simp] theorem setPend_mu_scbSeed (acts : List Act) (s : State) : (setPend .mu acts s).scbSeed = s.scbSeed := rfl

end Machine

end Sys2Proof
end

