-- ==== Sys2Proof/Laws/Memory.lean ====
section
/-! SUPPORT. The laws of the SCB: every write keeps the canonical form, and a read after a write. -/

namespace Sys2Proof.Machine

/-! ### Offsets in rising order -/

theorem Memory.risingFrom_mono {lo lo' : Nat} (h : lo' ≤ lo) :
    ∀ {m : List Host.Cell}, Memory.risingFrom lo m = true → Memory.risingFrom lo' m = true
  | [], _ => rfl
  | c :: rest, hm => by
    simp only [Memory.risingFrom, Bool.and_eq_true, decide_eq_true_eq] at hm ⊢
    exact ⟨Nat.le_trans h hm.1, hm.2⟩

theorem Memory.find_below {lo a : Nat} (h : a < lo) :
    ∀ {m : List Host.Cell}, Memory.risingFrom lo m = true → Memory.find m a = none
  | [], _ => rfl
  | c :: rest, hm => by
    simp only [Memory.risingFrom, Bool.and_eq_true, decide_eq_true_eq] at hm
    have hne : c.1 ≠ a := by omega
    simp only [Memory.find, hne, if_false]
    exact Memory.find_below (by omega) hm.2

theorem Memory.insert_rising {a : Nat} (b : Byte) :
    ∀ {m : List Host.Cell} {lo : Nat}, lo ≤ a → Memory.risingFrom lo m = true →
      Memory.risingFrom lo (Memory.insert m a b) = true
  | [], lo, h, _ => by simp [Memory.insert, Memory.risingFrom, h]
  | c :: rest, lo, h, hm => by
    simp only [Memory.risingFrom, Bool.and_eq_true, decide_eq_true_eq] at hm
    unfold Memory.insert
    by_cases h1 : a < c.1
    · simp only [h1, if_true, Memory.risingFrom, Bool.and_eq_true, decide_eq_true_eq]
      exact ⟨h, by omega, hm.2⟩
    · by_cases h2 : a = c.1
      · subst h2
        simp only [Nat.lt_irrefl, if_false, if_true, Memory.risingFrom, Bool.and_eq_true, decide_eq_true_eq]
        exact hm
      · simp only [h1, h2, if_false, Memory.risingFrom, Bool.and_eq_true, decide_eq_true_eq]
        exact ⟨hm.1, Memory.insert_rising b (by omega) hm.2⟩

theorem Memory.erase_rising (a : Nat) :
    ∀ {m : List Host.Cell} {lo : Nat}, Memory.risingFrom lo m = true → Memory.risingFrom lo (Memory.erase m a) = true
  | [], _, _ => rfl
  | c :: rest, lo, hm => by
    simp only [Memory.risingFrom, Bool.and_eq_true, decide_eq_true_eq] at hm
    unfold Memory.erase
    by_cases h : c.1 = a
    · simp only [h, if_true]
      exact Memory.risingFrom_mono (by omega) hm.2
    · simp only [h, if_false, Memory.risingFrom, Bool.and_eq_true, decide_eq_true_eq]
      exact ⟨hm.1, Memory.erase_rising a hm.2⟩

/-! ### What a lookup finds -/

theorem Memory.find_insert (a a' : Nat) (b : Byte) :
    ∀ m : List Host.Cell, Memory.find (Memory.insert m a b) a' = if a' = a then some b else Memory.find m a'
  | [] => by
    by_cases h : a' = a
    · simp [Memory.insert, Memory.find, h]
    · have h' : a ≠ a' := fun he => h he.symm
      simp [Memory.insert, Memory.find, h, h']
  | c :: rest => by
    have ih := Memory.find_insert a a' b rest
    unfold Memory.insert
    split
    · by_cases h : a' = a
      · simp [Memory.find, h]
      · have h' : a ≠ a' := fun he => h he.symm
        simp [Memory.find, h, h']
    · split
      · by_cases h : a' = a
        · simp [Memory.find, h]
        · have h' : a ≠ a' := fun he => h he.symm
          have h'' : c.1 ≠ a' := by omega
          simp [Memory.find, h, h', h'']
      · by_cases hc : c.1 = a'
        · have h : a' ≠ a := by omega
          simp [Memory.find, hc, h]
        · simp [Memory.find, hc, ih]

theorem Memory.find_erase (a a' : Nat) :
    ∀ {m : List Host.Cell} {lo : Nat}, Memory.risingFrom lo m = true →
      Memory.find (Memory.erase m a) a' = if a' = a then none else Memory.find m a'
  | [], _, _ => by simp [Memory.erase, Memory.find]
  | c :: rest, lo, hm => by
    simp only [Memory.risingFrom, Bool.and_eq_true, decide_eq_true_eq] at hm
    unfold Memory.erase
    by_cases h : c.1 = a
    · by_cases h' : a' = a
      · subst h'
        simp only [h, if_true]
        exact Memory.find_below (by omega) hm.2
      · have h'' : c.1 ≠ a' := by omega
        simp only [h, if_true, Memory.find, if_neg h', if_neg (Ne.symm h')]
    · by_cases h' : c.1 = a'
      · have h'' : a' ≠ a := by omega
        simp [Memory.find, h', h'']
      · simp only [h, if_false, Memory.find, h']
        exact Memory.find_erase a a' hm.2

theorem Memory.mem_insert {a : Nat} {b : Byte} {c : Host.Cell} :
    ∀ {m : List Host.Cell}, c ∈ Memory.insert m a b → c = (a, b) ∨ c ∈ m
  | [], h => by simpa [Memory.insert] using h
  | d :: rest, h => by
    unfold Memory.insert at h
    split at h
    · simpa using h
    · split at h
      · rcases List.mem_cons.1 h with h | h
        · exact .inl h
        · exact .inr (List.mem_cons_of_mem _ h)
      · rcases List.mem_cons.1 h with h | h
        · exact .inr (h ▸ List.mem_cons_self)
        · exact (Memory.mem_insert h).imp id (List.mem_cons_of_mem _)

theorem Memory.mem_erase {a : Nat} {c : Host.Cell} :
    ∀ {m : List Host.Cell}, c ∈ Memory.erase m a → c ∈ m
  | [], h => h
  | d :: rest, h => by
    unfold Memory.erase at h
    split at h
    · exact List.mem_cons_of_mem _ h
    · rcases List.mem_cons.1 h with h | h
      · exact h ▸ List.mem_cons_self
      · exact List.mem_cons_of_mem _ (Memory.mem_erase h)

/-! ### The canonical form is kept -/

theorem Memory.wf_iff {par : Config.Params} {m : List Host.Cell} :
    Memory.wf par m = true ↔ Memory.risingFrom 0 m = true ∧ ∀ c ∈ m, Memory.unlisted par c.1 ≠ some c.2 := by
  simp [Memory.wf, List.all_eq_true]

theorem Memory.setByte_wf {par : Config.Params} {m : List Host.Cell} (a : Nat) (b : Byte)
    (h : Memory.wf par m = true) : Memory.wf par (Memory.setByte par m a b) = true := by
  obtain ⟨hr, hu⟩ := Memory.wf_iff.1 h
  refine Memory.wf_iff.2 ?_
  unfold Memory.setByte
  split
  · exact ⟨Memory.erase_rising a hr, fun c hc => hu c (Memory.mem_erase hc)⟩
  · next hne =>
    refine ⟨Memory.insert_rising b (Nat.zero_le a) hr, fun c hc => ?_⟩
    rcases Memory.mem_insert hc with rfl | hc
    · exact hne
    · exact hu c hc

theorem Memory.setBytes_wf {par : Config.Params} :
    ∀ (bs : List Byte) {m : List Host.Cell} (a : Nat), Memory.wf par m = true →
      Memory.wf par (Memory.setBytes par m a bs) = true
  | [], _, _, h => h
  | b :: bs, _, a, h => Memory.setBytes_wf bs (a + 1) (Memory.setByte_wf a b h)

theorem Memory.setByte_inScb {par : Config.Params} {m : List Host.Cell} {a : Nat} (b : Byte)
    (ha : a < 4 * Config.scbWords) (h : Memory.inScb m = true) : Memory.inScb (Memory.setByte par m a b) = true := by
  simp only [Memory.inScb, List.all_eq_true, decide_eq_true_eq] at h ⊢
  intro c hc
  unfold Memory.setByte at hc
  split at hc
  · exact h c (Memory.mem_erase hc)
  · rcases Memory.mem_insert hc with rfl | hc
    · exact ha
    · exact h c hc

theorem Memory.setBytes_inScb {par : Config.Params} :
    ∀ (bs : List Byte) {m : List Host.Cell} {a : Nat}, a + bs.length ≤ 4 * Config.scbWords →
      Memory.inScb m = true → Memory.inScb (Memory.setBytes par m a bs) = true
  | [], _, _, _, h => h
  | b :: bs, _, a, ha, h => by
    simp only [List.length_cons] at ha
    exact Memory.setBytes_inScb bs (by omega) (Memory.setByte_inScb b (by omega) h)

theorem memWrite_wf {s : State} (n : Nat) (v : Word) (h : Memory.wf s.par s.mem = true) :
    Memory.wf s.par (memWrite n v s).mem = true :=
  Memory.setBytes_wf _ _ h

theorem memWrite_inScb {s : State} {n : Nat} (v : Word) (hn : n < Config.scbWords)
    (h : Memory.inScb s.mem = true) : Memory.inScb (memWrite n v s).mem = true :=
  Memory.setBytes_inScb _ (by simp only [wordBytes, List.length_cons, List.length_nil]; omega) h

theorem memWriteAll_wf (ws : List (WordOff × Word)) {s : State} (h : Memory.wf s.par s.mem = true) :
    Memory.wf s.par (memWriteAll ws s).mem = true := by
  induction ws generalizing s with
  | nil => exact h
  | cons w ws ih => exact ih (s := memWrite w.1.val w.2 s) (memWrite_wf _ _ h)

theorem memWriteAll_inScb (ws : List (WordOff × Word)) {s : State} (h : Memory.inScb s.mem = true) :
    Memory.inScb (memWriteAll ws s).mem = true := by
  induction ws generalizing s with
  | nil => exact h
  | cons w ws ih => exact ih (memWrite_inScb _ w.1.isLt h)

/-! ### A read after a write -/

/-- The byte an offset reads as, out of the three fields it depends on. -/
theorem readByte_eq (a : Nat) (s : State) :
    readByte a s = ((Memory.find s.mem a).or (Memory.unlisted s.par a)).getD (Config.freeScbByte s.scbSeed a) := by
  unfold readByte
  cases Memory.find s.mem a <;> cases Memory.unlisted s.par a <;> rfl

/-- The byte an offset reads as, over a plain memory. -/
def Memory.readAt (par : Config.Params) (seed : Nat) (m : List Host.Cell) (a : Nat) : Byte :=
  ((Memory.find m a).or (Memory.unlisted par a)).getD (Config.freeScbByte seed a)

theorem Memory.readAt_setByte {par : Config.Params} {m : List Host.Cell} (seed a a' : Nat) (b : Byte)
    (h : Memory.risingFrom 0 m = true) :
    Memory.readAt par seed (Memory.setByte par m a b) a' = if a' = a then b else Memory.readAt par seed m a' := by
  unfold Memory.readAt Memory.setByte
  split
  · next hu =>
    simp only [Memory.find_erase a a' h]
    by_cases hc : a' = a
    · subst hc
      simp [hu]
    · simp [hc]
  · simp only [Memory.find_insert]
    by_cases hc : a' = a
    · simp [hc]
    · simp [hc]

theorem Memory.setByte_rising {par : Config.Params} {m : List Host.Cell} (a : Nat) (b : Byte)
    (h : Memory.risingFrom 0 m = true) : Memory.risingFrom 0 (Memory.setByte par m a b) = true := by
  unfold Memory.setByte
  split
  · exact Memory.erase_rising a h
  · exact Memory.insert_rising b (Nat.zero_le a) h

/-- Every byte after a word is written: its own four bytes hold it, every other byte reads as before. -/
theorem readByte_memWrite {s : State} (n a : Nat) (v : Word) (h : Memory.risingFrom 0 s.mem = true) :
    readByte a (memWrite n v s) =
      if 4 * n ≤ a ∧ a < 4 * n + 4 then byteOfWord v (a - 4 * n) else readByte a s := by
  have h1 := Memory.setByte_rising (par := s.par) (4 * n) (byteOfWord v 0) h
  have h2 := Memory.setByte_rising (par := s.par) (4 * n + 1) (byteOfWord v 1) h1
  have h3 := Memory.setByte_rising (par := s.par) (4 * n + 1 + 1) (byteOfWord v 2) h2
  have e : readByte a (memWrite n v s) = Memory.readAt s.par s.scbSeed (memWrite n v s).mem a := readByte_eq _ _
  have e' : readByte a s = Memory.readAt s.par s.scbSeed s.mem a := readByte_eq _ _
  rw [e, e']
  simp only [memWrite, wordBytes, Memory.setBytes]
  rw [Memory.readAt_setByte _ _ _ _ h3, Memory.readAt_setByte _ _ _ _ h2, Memory.readAt_setByte _ _ _ _ h1,
    Memory.readAt_setByte _ _ _ _ h]
  have key : a = 4 * n ∨ a = 4 * n + 1 ∨ a = 4 * n + 1 + 1 ∨ a = 4 * n + 1 + 1 + 1 ∨
      ¬ (4 * n ≤ a ∧ a < 4 * n + 4) := by omega
  rcases key with c | c | c | c | c
  · rw [if_neg (by omega), if_neg (by omega), if_neg (by omega), if_pos c, if_pos (by omega), c, Nat.sub_self]
  · rw [if_neg (by omega), if_neg (by omega), if_pos c, if_pos (by omega), show a - 4 * n = 1 by omega]
  · rw [if_neg (by omega), if_pos c, if_pos (by omega), show a - 4 * n = 2 by omega]
  · rw [if_pos c, if_pos (by omega), show a - 4 * n = 3 by omega]
  · rw [if_neg (by omega), if_neg (by omega), if_neg (by omega), if_neg (by omega), if_neg c]

theorem byteOfWord_getLsbD (w : Word) (i j : Nat) :
    (byteOfWord w i).getLsbD j = (decide (j < 8) && w.getLsbD (8 * i + j)) := by
  simp [byteOfWord, BitVec.getLsbD_extractLsb']

/-- A word is made of its four bytes. -/
theorem wordOfBytes_byteOfWord (w : Word) :
    wordOfBytes (byteOfWord w 0) (byteOfWord w 1) (byteOfWord w 2) (byteOfWord w 3) = w := by
  apply BitVec.eq_of_getLsbD_eq
  intro i hi
  simp only [wordOfBytes, BitVec.getLsbD_append, byteOfWord_getLsbD]
  by_cases h0 : i < 8
  · simp [h0]
  · by_cases h1 : i < 16
    · have a1 : i - 8 < 8 := by omega
      have a2 : 8 * 1 + (i - 8) = i := by omega
      simp [h0, a1, a2]
    · by_cases h2 : i < 24
      · have b0 : ¬ (i - 8 < 8) := by omega
        have b1 : i - 8 - 8 < 8 := by omega
        have b2 : 8 * 2 + (i - 8 - 8) = i := by omega
        simp [h0, b0, b1, b2]
      · have b0 : ¬ (i - 8 < 8) := by omega
        have b1 : ¬ (i - 8 - 8 < 8) := by omega
        have b2 : i - 8 - 8 - 8 < 8 := by omega
        have b3 : 8 * 3 + (i - 8 - 8 - 8) = i := by omega
        simp [h0, b0, b1, b2, b3]

/-- MemRead after MemWrite: the word written, every other word as before. -/
theorem memRead_memWrite {s : State} (n m : Nat) (v : Word) (h : Memory.risingFrom 0 s.mem = true) :
    memRead m (memWrite n v s) = if m = n then v else memRead m s := by
  unfold memRead
  simp only [readByte_memWrite _ _ _ h]
  by_cases hm : m = n
  · subst hm
    have a1 : 4 * m ≤ 4 * m + 1 ∧ 4 * m + 1 < 4 * m + 4 := by omega
    have a2 : 4 * m ≤ 4 * m + 2 ∧ 4 * m + 2 < 4 * m + 4 := by omega
    have a3 : 4 * m ≤ 4 * m + 3 ∧ 4 * m + 3 < 4 * m + 4 := by omega
    simp only [a1, a2, a3, Nat.le_refl, Nat.sub_self, Nat.add_sub_cancel_left, and_self, if_true,
      show 4 * m < 4 * m + 4 by omega]
    exact wordOfBytes_byteOfWord v
  · have a0 : ¬ (4 * n ≤ 4 * m ∧ 4 * m < 4 * n + 4) := by omega
    have a1 : ¬ (4 * n ≤ 4 * m + 1 ∧ 4 * m + 1 < 4 * n + 4) := by omega
    have a2 : ¬ (4 * n ≤ 4 * m + 2 ∧ 4 * m + 2 < 4 * n + 4) := by omega
    have a3 : ¬ (4 * n ≤ 4 * m + 3 ∧ 4 * m + 3 < 4 * n + 4) := by omega
    rw [if_neg a0, if_neg a1, if_neg a2, if_neg a3, if_neg hm]

/-- A read depends on the memory, the parameters and the reset content alone. -/
theorem readByte_congr {s t : State} (a : Nat) (hm : t.mem = s.mem) (hp : t.par = s.par) (hs : t.scbSeed = s.scbSeed) :
    readByte a t = readByte a s := by
  rw [readByte_eq, readByte_eq, hm, hp, hs]

theorem memRead_congr {s t : State} (n : Nat) (hm : t.mem = s.mem) (hp : t.par = s.par) (hs : t.scbSeed = s.scbSeed) :
    memRead n t = memRead n s := by
  unfold memRead
  simp only [readByte_congr _ hm hp hs]

theorem memWrite_rising {s : State} (n : Nat) (v : Word) (h : Memory.risingFrom 0 s.mem = true) :
    Memory.risingFrom 0 (memWrite n v s).mem = true :=
  Memory.setByte_rising _ _ (Memory.setByte_rising _ _ (Memory.setByte_rising _ _ (Memory.setByte_rising _ _ h)))

theorem memWriteAll_rising (ws : List (WordOff × Word)) {s : State} (h : Memory.risingFrom 0 s.mem = true) :
    Memory.risingFrom 0 (memWriteAll ws s).mem = true := by
  induction ws generalizing s with
  | nil => exact h
  | cons w ws ih => exact ih (memWrite_rising _ _ h)

end Sys2Proof.Machine
end

