-- ==== Sys2Proof/Laws/Frames.lean ====
section
/-! SUPPORT. What a unit can change: one frame for the CU and one for the MU, met by every handler, every step and
every atomic action of the unit. -/

namespace Sys2Proof.Machine

/-- `t` differs from `s` only in what the CU may write, and in latches, pending bits, marks and draws. -/
def CuFrame (s t : State) : Prop :=
  ∃ fe kpa periodL wsAtt wsRate wsThrust cuState latch hostPend tmrS ovr mem draws,
    t = { s with fe, kpa, periodL, wsAtt, wsRate, wsThrust, cuState, latch, hostPend, tmrS, ovr, mem, draws }

/-- `t` differs from `s` only in what the MU may write, and in latches, pending bits, marks and draws. -/
def MuFrame (s t : State) : Prop :=
  ∃ duty muState latch hostPend pin tmrP ovr draws,
    t = { s with duty, muState, latch, hostPend, pin, tmrP, ovr, draws }

/-- `t` differs from `s` only in what a RAISE may write. -/
def RaiseFrame (s t : State) : Prop :=
  ∃ latch hostPend ovr draws, t = { s with latch, hostPend, ovr, draws }

theorem CuFrame.refl (s : State) : CuFrame s s :=
  ⟨s.fe, s.kpa, s.periodL, s.wsAtt, s.wsRate, s.wsThrust, s.cuState, s.latch, s.hostPend, s.tmrS, s.ovr, s.mem, s.draws, rfl⟩

theorem MuFrame.refl (s : State) : MuFrame s s :=
  ⟨s.duty, s.muState, s.latch, s.hostPend, s.pin, s.tmrP, s.ovr, s.draws, rfl⟩

theorem CuFrame.trans {s t u : State} (h : CuFrame s t) (h' : CuFrame t u) : CuFrame s u := by
  obtain ⟨_, _, _, _, _, _, _, _, _, _, _, _, _, rfl⟩ := h
  obtain ⟨_, _, _, _, _, _, _, _, _, _, _, _, _, rfl⟩ := h'
  exact ⟨_, _, _, _, _, _, _, _, _, _, _, _, _, rfl⟩

theorem MuFrame.trans {s t u : State} (h : MuFrame s t) (h' : MuFrame t u) : MuFrame s u := by
  obtain ⟨_, _, _, _, _, _, _, _, rfl⟩ := h
  obtain ⟨_, _, _, _, _, _, _, _, rfl⟩ := h'
  exact ⟨_, _, _, _, _, _, _, _, rfl⟩

theorem RaiseFrame.cu {s t : State} (h : RaiseFrame s t) : CuFrame s t := by
  obtain ⟨_, _, _, _, rfl⟩ := h
  exact ⟨_, _, _, _, _, _, _, _, _, _, _, _, _, rfl⟩

theorem RaiseFrame.mu {s t : State} (h : RaiseFrame s t) : MuFrame s t := by
  obtain ⟨_, _, _, _, rfl⟩ := h
  exact ⟨_, _, _, _, _, _, _, _, rfl⟩

/-! ### The shared operations -/

/-- An empty latch takes the code. -/
@[simp] theorem latchAfter_empty (e : Event) (b : Bool) : latchAfter .none e b = e := by
  simp [latchAfter]

/-- The old or the new code. -/
theorem latchAfter_or (old e : Event) (b : Bool) : latchAfter old e b = old ∨ latchAfter old e b = e := by
  unfold latchAfter
  split
  · exact .inr rfl
  · split
    · exact .inr rfl
    · exact .inl rfl

/-- A latch that a code was set on is not empty. -/
theorem latchAfter_ne_none {e : Event} (old : Event) (b : Bool) (h : e ≠ .none) : latchAfter old e b ≠ .none := by
  unfold latchAfter
  split
  · exact h
  · next h1 =>
    split
    · exact h
    · exact fun h2 => h1 (.inl h2)

theorem raiseEvent_frame (e : Event) (s : State) : RaiseFrame s (raiseEvent e s) := by
  cases e <;> exact ⟨_, _, _, _, rfl⟩

theorem latchSet_frame (ch : Channel) (e : Event) (s : State) : RaiseFrame s (latchSet ch e s) :=
  ⟨_, _, _, _, rfl⟩

theorem pollChannel_frame (ch : Channel) (s : State) : RaiseFrame s (pollChannel ch s).2 :=
  ⟨_, _, _, _, rfl⟩

/-- A RAISE changes the latch and the mark of its own channel alone. -/
theorem raiseEvent_latch (e : Event) (s : State) :
    (raiseEvent e s).latch =
      match routeChannel e with
      | some ch => s.latch.set ch (latchAfter (s.latch.get ch) e (Config.freePick s.draws))
      | none => s.latch := by
  cases e <;> rfl

theorem raiseEvent_ovr (e : Event) (s : State) :
    (raiseEvent e s).ovr =
      match routeChannel e with
      | some ch => s.ovr.set ch (ovrAfter (s.latch.get ch) (s.ovr.get ch))
      | none => s.ovr := by
  cases e <;> rfl

theorem raiseEvent_hostPend (e : Event) (s : State) :
    (raiseEvent e s).hostPend = if routeHost e then s.hostPend.set e true else s.hostPend := by
  cases e <;> rfl

theorem memWriteAll_frame (ws : List (WordOff × Word)) (s : State) :
    memWriteAll ws s = { s with mem := (memWriteAll ws s).mem } := by
  induction ws generalizing s with
  | nil => rfl
  | cons w ws ih => exact ih (memWrite w.1.val w.2 s)

theorem memWriteAll_cu (ws : List (WordOff × Word)) (s : State) : CuFrame s (memWriteAll ws s) := by
  rw [memWriteAll_frame]
  exact ⟨_, _, _, _, _, _, _, _, _, _, _, _, _, rfl⟩

/-! ### Each unit's handlers -/

theorem debugSnapshot_cu (ws : List (WordOff × Word)) (s : State) : CuFrame s (debugSnapshot ws s) :=
  (memWriteAll_cu ws s).trans (raiseEvent_frame _ _).cu

theorem cuNewData_cu (s : State) : CuFrame s (cuNewData s) := by
  have h : CuFrame s (loadOdometry s) := ⟨_, _, _, _, _, _, _, _, _, _, _, _, _, rfl⟩
  unfold cuNewData
  dsimp only
  split
  · exact h.trans (debugSnapshot_cu _ _)
  · exact h

/-- The sample-tick handler up to its RAISE. -/
def samplePublished (s : State) : State :=
  memWriteFree 54 (memWriteFree 53 (memWriteAll (outputWrites (mixOutputs s.par (runFilters (tmrSClearFlag s)).2))
    (runFilters (tmrSClearFlag s)).1))

theorem cuSampleTick_eq (s : State) :
    cuSampleTick s =
      if dbgSample (memRead offDebugMask (raiseEvent .outputReady (samplePublished s))) then
        debugSnapshot (snapshotSample (setpoints s) (runFilters (tmrSClearFlag s)).2)
          (raiseEvent .outputReady (samplePublished s))
      else raiseEvent .outputReady (samplePublished s) := rfl

theorem samplePublished_cu (s : State) : CuFrame s (samplePublished s) := by
  have h : CuFrame s (runFilters (tmrSClearFlag s)).1 := ⟨_, _, _, _, _, _, _, _, _, _, _, _, _, rfl⟩
  refine (h.trans (memWriteAll_cu (outputWrites (mixOutputs s.par (runFilters (tmrSClearFlag s)).2)) _)).trans ?_
  exact ⟨_, _, _, _, _, _, _, _, _, _, _, _, _, rfl⟩

theorem cuSampleTick_cu (s : State) : CuFrame s (cuSampleTick s) := by
  have h : CuFrame s (raiseEvent .outputReady (samplePublished s)) :=
    (samplePublished_cu s).trans (raiseEvent_frame _ _).cu
  rw [cuSampleTick_eq]
  split
  · exact h.trans (debugSnapshot_cu _ _)
  · exact h

theorem cuClearArmed_cu (s : State) : CuFrame s (cuClearArmed s) := by
  have h0 : CuFrame s (tmrSDisable s) := ⟨_, _, _, _, _, _, _, _, _, _, _, _, _, rfl⟩
  refine (h0.trans (memWriteAll_cu (outputWrites (.fill s.par.dutyBase)) _)).trans ?_
  refine CuFrame.trans (t := resetFilters (memWriteAll (outputWrites (.fill s.par.dutyBase)) (tmrSDisable s))) ?_ ?_
  · exact ⟨_, _, _, _, _, _, _, _, _, _, _, _, _, rfl⟩
  · exact (raiseEvent_frame .outputReady _).cu

theorem cuShutdown_cu (s : State) : CuFrame s (cuShutdown s) := ⟨_, _, _, _, _, _, _, _, _, _, _, _, _, rfl⟩

theorem muExit_mu (s : State) : MuFrame s (muExit s) := ⟨_, _, _, _, _, _, _, _, rfl⟩

/-- Every handler of the CU answers a next state within the CU's frame. -/
theorem exec_cuActiveRow (e : Event) (s : State) : ∃ t, exec (cuActiveRow e) s = .next t ∧ CuFrame s t := by
  cases e
  case none => exact ⟨s, rfl, .refl s⟩
  case newData => exact ⟨_, rfl, cuNewData_cu s⟩
  case motorReady => exact ⟨_, rfl, cuShutdown_cu s⟩
  case setArmed => exact ⟨_, rfl, ⟨_, _, _, _, _, _, _, _, _, _, _, _, _, rfl⟩⟩
  case clearArmed => exact ⟨_, rfl, cuClearArmed_cu s⟩
  case sampleTick => exact ⟨_, rfl, cuSampleTick_cu s⟩
  all_goals exact ⟨_, rfl, (raiseEvent_frame .motorStop s).cu⟩

theorem exec_cuAwaitRow (e : Event) (s : State) : ∃ t, exec (cuAwaitRow e) s = .next t ∧ CuFrame s t := by
  cases e
  case motorReady => exact ⟨_, rfl, ⟨_, _, _, _, _, _, _, _, _, _, _, _, _, rfl⟩⟩
  all_goals exact ⟨s, rfl, .refl s⟩

/-- Every handler of the MU answers a next state within the MU's frame. -/
theorem exec_muRow (e : Event) (s : State) : ∃ t, exec (muRow e) s = .next t ∧ MuFrame s t := by
  cases e
  case none => exact ⟨s, rfl, .refl s⟩
  case outputReady => exact ⟨_, rfl, ⟨_, _, _, _, _, _, _, _, rfl⟩⟩
  case pwmTick => exact ⟨_, rfl, ⟨_, _, _, _, _, _, _, _, rfl⟩⟩
  all_goals exact ⟨_, rfl, muExit_mu s⟩

/-- The dispatchers inside a whole step run the decoded rows. -/
theorem cuDispatch_eq (e : Event) (s : State) : cuDispatch e s = exec (cuActiveRow e) s := by
  cases e <;> rfl

theorem awaitDispatch_eq (e : Event) (s : State) : awaitDispatch e s = exec (cuAwaitRow e) s := by
  cases e <;> rfl

theorem muDispatch_eq (e : Event) (s : State) : muDispatch e s = exec (muRow e) s := by
  cases e <;> rfl

/-! ### Each unit's steps -/

/-- The row of the unit's state register (30_encoding.md R105). -/
def stateRow (u : UnitId) (s : State) : Instr :=
  match u with
  | .cu =>
    match s.cuState with
    | .held => .stepCuHeld
    | .await => .stepCuAwait
    | .config => .stepCuConfig
    | .active => .stepCuActive
    | .halt => .stepCuHalt
  | .mu =>
    match s.muState with
    | .held => .stepMuHeld
    | .boot => .stepMuBoot
    | .active => .stepMuActive
    | .halt => .stepMuHalt

/-- The row of a code the unit has polled (30_encoding.md R103, R104). -/
def eventRow (u : UnitId) (e : Event) (s : State) : Instr :=
  match u with
  | .cu =>
    match cuTable s with
    | .active => cuActiveRow e
    | .await => cuAwaitRow e
  | .mu => muRow e

theorem decode_stateWord (u : UnitId) (s : State) : decode .state [stateWord u s] = .ok (stateRow u s, []) := by
  cases u
  · unfold stateWord stateRow; cases s.cuState <;> rfl
  · unfold stateWord stateRow; cases s.muState <;> rfl

theorem decode_evtWord (u : UnitId) (e : Event) (s : State) :
    decode (.evt (cuTable s)) [evtWord u e] = .ok (eventRow u e s, []) := by
  unfold eventRow
  cases u <;> cases cuTable s <;> cases e <;> rfl

theorem stepCuActive_cu (s : State) : ∃ t, exec .stepCuActive s = .next t ∧ CuFrame s t := by
  obtain ⟨t1, h1, f1⟩ := exec_cuActiveRow (s.latch.get .cuCtl) (pollChannel .cuCtl s).2
  obtain ⟨t2, h2, f2⟩ := exec_cuActiveRow (t1.latch.get .cuTick) (pollChannel .cuTick t1).2
  have f1' := (pollChannel_frame .cuCtl s).cu.trans f1
  have h : exec .stepCuActive s =
      andThen (cuDispatch (s.latch.get .cuCtl) (pollChannel .cuCtl s).2) fun s1 =>
        if s1.cuState = .active then cuDispatch (s1.latch.get .cuTick) (pollChannel .cuTick s1).2 else .next s1 := rfl
  rw [h, cuDispatch_eq, h1]
  by_cases hc : t1.cuState = .active
  · refine ⟨t2, ?_, f1'.trans ((pollChannel_frame .cuTick t1).cu.trans f2)⟩
    simp only [andThen, hc, if_true, cuDispatch_eq, h2]
  · exact ⟨t1, by simp only [andThen, hc, if_false], f1'⟩

theorem compareMotor_mu (m : Fin 4) (s : State) : MuFrame s (compareMotor m s) := by
  unfold compareMotor
  split
  · exact ⟨_, _, _, _, _, _, _, _, rfl⟩
  · exact .refl s

theorem compareStep_mu (s : State) : MuFrame s (compareStep s) :=
  (compareMotor_mu 0 s).trans ((compareMotor_mu 1 _).trans ((compareMotor_mu 2 _).trans (compareMotor_mu 3 _)))

theorem stepMuActive_mu (s : State) : ∃ t, exec .stepMuActive s = .next t ∧ MuFrame s t := by
  obtain ⟨t1, h1, f1⟩ := exec_muRow (s.latch.get .muCtl) (pollChannel .muCtl s).2
  obtain ⟨t2, h2, f2⟩ := exec_muRow (t1.latch.get .muTick) (pollChannel .muTick t1).2
  have f1' := (pollChannel_frame .muCtl s).mu.trans f1
  have f2' := f1'.trans ((pollChannel_frame .muTick t1).mu.trans f2)
  have h : exec .stepMuActive s =
      andThen (muDispatch (s.latch.get .muCtl) (pollChannel .muCtl s).2) fun s1 =>
        andThen (if s1.muState = .active then muDispatch (s1.latch.get .muTick) (pollChannel .muTick s1).2 else .next s1)
          fun s2 => .next (if s2.muState = .active then compareStep s2 else s2) := rfl
  rw [h, muDispatch_eq, h1]
  have last : ∀ x : State, MuFrame s x → MuFrame s (if x.muState = .active then compareStep x else x) := by
    intro x hx
    split
    · exact hx.trans (compareStep_mu x)
    · exact hx
  by_cases hc : t1.muState = .active
  · refine ⟨_, ?_, last t2 f2'⟩
    simp only [andThen, hc, if_true, muDispatch_eq, h2]
  · refine ⟨_, ?_, last t1 f1'⟩
    simp only [andThen, hc, if_false]

/-- Every step a state register selects answers a next state within the unit's frame. -/
theorem exec_stateRow_cu (s : State) : ∃ t, exec (stateRow .cu s) s = .next t ∧ CuFrame s t := by
  unfold stateRow
  cases s.cuState
  · exact ⟨s, rfl, .refl s⟩
  · obtain ⟨t, h, f⟩ := exec_cuAwaitRow (s.latch.get .cuCtl) (pollChannel .cuCtl s).2
    refine ⟨t, ?_, (pollChannel_frame .cuCtl s).cu.trans f⟩
    rw [← h, ← awaitDispatch_eq]
    rfl
  · exact ⟨_, rfl, ⟨_, _, _, _, _, _, _, _, _, _, _, _, _, rfl⟩⟩
  · exact stepCuActive_cu s
  · exact ⟨s, rfl, .refl s⟩

theorem exec_stateRow_mu (s : State) : ∃ t, exec (stateRow .mu s) s = .next t ∧ MuFrame s t := by
  unfold stateRow
  cases s.muState
  · exact ⟨s, rfl, .refl s⟩
  · exact ⟨_, rfl, ⟨_, _, _, _, _, _, _, _, rfl⟩⟩
  · exact stepMuActive_mu s
  · exact ⟨s, rfl, .refl s⟩

/-! ### Each unit's atomic actions -/

theorem performAct_cu {a : Act} (h : actOf .cu a = true) (s : State) : CuFrame s (performAct .cu a s).2 := by
  cases a
  case poll ch => exact (pollChannel_frame ch s).cu
  case pollIfActive ch =>
    simp only [performAct]
    split
    · exact (pollChannel_frame ch s).cu
    · exact .refl s
  case raise e => exact (raiseEvent_frame e s).cu
  case read n dst =>
    cases dst
    case duty => exact absurd h (by simp [actOf])
    all_goals exact ⟨_, _, _, _, _, _, _, _, _, _, _, _, _, rfl⟩
  case readCfg got =>
    simp only [performAct]
    split <;> exact .refl s
  case tmrPConfigure => exact absurd h (by simp [actOf])
  case tmrPClearFlag => exact absurd h (by simp [actOf])
  case assertPins => exact absurd h (by simp [actOf])
  case deassertPins => exact absurd h (by simp [actOf])
  case compareIfActive => exact absurd h (by simp [actOf])
  case compareOne => exact absurd h (by simp [actOf])
  case goMu => exact absurd h (by simp [actOf])
  all_goals exact ⟨_, _, _, _, _, _, _, _, _, _, _, _, _, rfl⟩

theorem performAct_mu {a : Act} (h : actOf .mu a = true) (s : State) : MuFrame s (performAct .mu a s).2 := by
  cases a
  case poll ch => exact (pollChannel_frame ch s).mu
  case pollIfActive ch =>
    simp only [performAct]
    split
    · exact (pollChannel_frame ch s).mu
    · exact .refl s
  case raise e => exact (raiseEvent_frame e s).mu
  case read n dst =>
    cases dst
    case duty => exact ⟨_, _, _, _, _, _, _, _, rfl⟩
    all_goals exact absurd h (by simp [actOf])
  case dispatch => exact .refl s
  case tmrPConfigure => exact ⟨_, _, _, _, _, _, _, _, rfl⟩
  case tmrPClearFlag => exact ⟨_, _, _, _, _, _, _, _, rfl⟩
  case assertPins => exact ⟨_, _, _, _, _, _, _, _, rfl⟩
  case deassertPins => exact ⟨_, _, _, _, _, _, _, _, rfl⟩
  case compareIfActive => exact .refl s
  case compareOne => exact .refl s
  case goMu => exact ⟨_, _, _, _, _, _, _, _, rfl⟩
  all_goals exact absurd h (by simp [actOf])

end Sys2Proof.Machine
end

