-- ==== Sys2Proof/Laws/Steps.lean ====
section
/-! SUPPORT. What a move can do, case by case: the inversion lemmas that claims about every step rest on. -/

namespace Sys2Proof.Machine

/-- The three things a unit's move does: the step its state register selects, the handler of a polled code, or one
atomic action. -/
theorem moveUnit_cases {u : UnitId} {g : Grain} {s t : State} (h : moveUnit u g s = .next t) :
    (pend u s = [] ∧ exec (stateRow u s) s = .next t) ∨
    (∃ e rest, pend u s = .dispatch e :: rest ∧ exec (eventRow u e s) (setPend u rest s) = .next t) ∨
    t = action u s := by
  have last : ∀ {x : State}, (Host.Outcome.next x : Out) = .next t → t = x := fun h => (Host.Outcome.next.inj h).symm
  unfold moveUnit at h
  split at h
  · next hp =>
    refine .inl ⟨hp, ?_⟩
    rw [runDecoded, decode_stateWord] at h
    exact h
  · next e rest hp =>
    refine .inr (.inl ⟨e, rest, hp, ?_⟩)
    rw [runDecoded, decode_evtWord] at h
    exact h
  · exact .inr (.inr (last h))
  · exact .inr (.inr (last h))
  · exact .inr (.inr (last h))

/-- One atomic action: none, or the first of the actions left, or the first of a new step. -/
theorem action_cases (u : UnitId) (s : State) :
    action u s = s ∨
    ∃ a rest, (pend u s = a :: rest ∨ (pend u s = [] ∧ beginActs u s = a :: rest)) ∧
      action u s = setPend u ((performAct u a s).1 ++ rest) (performAct u a s).2 := by
  unfold action
  split
  · next a rest hp => exact .inr ⟨a, rest, .inl hp, rfl⟩
  · next hp =>
    split
    · next a rest hb => exact .inr ⟨a, rest, .inr ⟨hp, hb⟩, rfl⟩
    · exact .inl rfl

/-- A unit's move always answers a next state. -/
theorem moveUnit_next (u : UnitId) (g : Grain) (s : State) : ∃ t, moveUnit u g s = .next t := by
  unfold moveUnit
  split
  · rw [runDecoded, decode_stateWord]
    cases u
    · exact (exec_stateRow_cu s).imp fun t h => h.1
    · exact (exec_stateRow_mu s).imp fun t h => h.1
  · next e rest _ =>
    rw [runDecoded, decode_evtWord]
    unfold eventRow
    cases u
    · dsimp only
      split
      · exact (exec_cuActiveRow e _).imp fun t h => h.1
      · exact (exec_cuAwaitRow e _).imp fun t h => h.1
    · exact (exec_muRow e _).imp fun t h => h.1
  · exact ⟨_, rfl⟩
  · exact ⟨_, rfl⟩
  · exact ⟨_, rfl⟩

/-! ### The actions of a step belong to its unit -/

theorem beginActs_owned (u : UnitId) (s : State) : (beginActs u s).all (actOf u) = true := by
  unfold beginActs
  cases u
  · cases s.cuState <;> rfl
  · cases s.muState <;> rfl

theorem handlerActs_owned (u : UnitId) (e : Event) (s : State) : (handlerActs u e s).all (actOf u) = true := by
  unfold handlerActs
  cases u
  · cases cuTable s <;> cases e <;> rfl
  · cases e <;> rfl

theorem writeActs_owned {ws : List (WordOff × Word)} (h : ws.all (fun w => fceWrites w.1) = true) :
    (writeActs ws).all (actOf .cu) = true := by
  induction ws with
  | nil => rfl
  | cons w ws ih =>
    simp only [List.all_cons, Bool.and_eq_true] at h
    simp only [writeActs, List.map_cons, List.all_cons, Bool.and_eq_true]
    exact ⟨h.1, ih h.2⟩

/-- What an action puts in front of the rest of its step is the unit's own. -/
theorem performAct_owned {u : UnitId} {a : Act} (h : actOf u a = true) (s : State) :
    (performAct u a s).1.all (actOf u) = true := by
  cases a
  case poll ch => cases u <;> rfl
  case pollIfActive ch =>
    simp only [performAct]
    split
    · cases u <;> rfl
    · rfl
  case dispatch e => exact handlerActs_owned u e s
  case readCfg got =>
    simp only [performAct]
    cases u
    · split <;> rfl
    · exact absurd h (by simp [actOf])
  case maskNewData =>
    cases u
    · simp only [performAct]
      split
      · rw [List.all_append, writeActs_owned (ws := snapshotNewData s) rfl]; rfl
      · rfl
    · exact absurd h (by simp [actOf])
  case maskSample snap =>
    cases u
    · simp only [performAct]
      split
      · rw [List.all_append, writeActs_owned h]; rfl
      · rfl
    · exact absurd h (by simp [actOf])
  case control =>
    cases u
    · simp only [performAct]
      rw [List.all_append, writeActs_owned (ws := outputWrites (mixOutputs s.par (runFilters s).2)) rfl]; rfl
    · exact absurd h (by simp [actOf])
  case baseline =>
    cases u
    · exact writeActs_owned rfl
    · exact absurd h (by simp [actOf])
  case compareIfActive =>
    cases u
    · exact absurd h (by simp [actOf])
    · simp only [performAct]
      split <;> rfl
  case compareOne m =>
    cases u
    · exact absurd h (by simp [actOf])
    · simp only [performAct]
      split <;> rfl
  all_goals rfl

theorem actsOwned_iff {s : State} :
    s.actsOwned = true ↔ s.cuPend.all (actOf .cu) = true ∧ s.muPend.all (actOf .mu) = true := by
  simp [State.actsOwned]

theorem pend_owned (u : UnitId) {s : State} (h : s.actsOwned = true) : (pend u s).all (actOf u) = true := by
  cases u
  · exact (actsOwned_iff.1 h).1
  · exact (actsOwned_iff.1 h).2

/-- The action a unit performs next, and what is left of its step, are its own. -/
theorem next_owned {u : UnitId} {s : State} {a : Act} {rest : List Act} (h : s.actsOwned = true)
    (hp : pend u s = a :: rest ∨ (pend u s = [] ∧ beginActs u s = a :: rest)) :
    actOf u a = true ∧ rest.all (actOf u) = true := by
  rcases hp with hp | ⟨-, hp⟩
  · have := pend_owned u h
    rw [hp] at this
    simpa using this
  · have := beginActs_owned u s
    rw [hp] at this
    simpa using this

theorem exec_eventRow_cu (e : Event) (s : State) : ∃ t, exec (eventRow .cu e s) s = .next t ∧ CuFrame s t := by
  unfold eventRow
  dsimp only
  split
  · exact exec_cuActiveRow e s
  · exact exec_cuAwaitRow e s

theorem exec_eventRow_mu (e : Event) (s : State) : ∃ t, exec (eventRow .mu e s) s = .next t ∧ MuFrame s t :=
  exec_muRow e s

/-- A move of the CU writes within the CU's frame, and its own step under way. -/
theorem moveUnit_cu {g : Grain} {s t : State} (hs : s.actsOwned = true) (h : moveUnit .cu g s = .next t) :
    ∃ x cuPend, CuFrame s x ∧ t = { x with cuPend } := by
  rcases moveUnit_cases h with ⟨-, h⟩ | ⟨e, rest, -, h⟩ | rfl
  · obtain ⟨t', h', f⟩ := exec_stateRow_cu s
    cases h.symm.trans h'
    exact ⟨t, t.cuPend, f, rfl⟩
  · obtain ⟨t', h', f⟩ := exec_eventRow_cu e (setPend .cu rest s)
    cases h.symm.trans h'
    obtain ⟨_, _, _, _, _, _, _, _, _, _, _, _, _, rfl⟩ := f
    exact ⟨_, rest, ⟨_, _, _, _, _, _, _, _, _, _, _, _, _, rfl⟩, rfl⟩
  · rcases action_cases .cu s with h | ⟨a, rest, hp, h⟩
    · exact ⟨s, s.cuPend, .refl s, h⟩
    · exact ⟨_, _, performAct_cu (next_owned hs hp).1 s, h⟩

/-- A move of the MU writes within the MU's frame, and its own step under way. -/
theorem moveUnit_mu {g : Grain} {s t : State} (hs : s.actsOwned = true) (h : moveUnit .mu g s = .next t) :
    ∃ x muPend, MuFrame s x ∧ t = { x with muPend } := by
  rcases moveUnit_cases h with ⟨-, h⟩ | ⟨e, rest, -, h⟩ | rfl
  · obtain ⟨t', h', f⟩ := exec_stateRow_mu s
    cases h.symm.trans h'
    exact ⟨t, t.muPend, f, rfl⟩
  · obtain ⟨t', h', f⟩ := exec_eventRow_mu e (setPend .mu rest s)
    cases h.symm.trans h'
    obtain ⟨_, _, _, _, _, _, _, _, rfl⟩ := f
    exact ⟨_, rest, ⟨_, _, _, _, _, _, _, _, rfl⟩, rfl⟩
  · rcases action_cases .mu s with h | ⟨a, rest, hp, h⟩
    · exact ⟨s, s.muPend, .refl s, h⟩
    · exact ⟨_, _, performAct_mu (next_owned hs hp).1 s, h⟩

/-! ### The moves of the host and the timers -/

theorem hostReset_eq {s t : State} (h : doMove .hostReset s = .next t) :
    t = { State.resetWith s.par with
      script := s.script, ret := s.ret, draws := s.draws + 1, scbSeed := s.draws + 1 } :=
  (Host.Outcome.next.inj h).symm

/-- A move of the host or a timer, other than a reset, changes the SCB, latches, pending bits, marks, the timers'
own bits and counter, and a held unit's state; it changes no other register of a unit and no step under way. -/
theorem doMove_env_frame {m : Move} {s t : State} (hr : m ≠ .hostReset) (hu : ∀ u g, m ≠ .unit u g)
    (h : doMove m s = .next t) :
    ∃ cuState muState latch hostPend flag cnt pflag ovr mem ret draws,
      t = { s with
        cuState, muState, latch, hostPend, tmrS := { s.tmrS with flag }, tmrP := { s.tmrP with cnt, flag := pflag },
        ovr, mem, ret, draws } ∧
      (cuState = s.cuState ∨ (s.cuState = .held ∧ cuState = .await)) ∧
      (muState = s.muState ∨ (s.muState = .held ∧ muState = .boot)) := by
  cases m
  case hostReset => exact absurd rfl hr
  case unit u g => exact absurd rfl (hu u g)
  case hostStart u =>
    cases u
    · simp only [doMove, hostStart] at h
      cases h
      split
      · next hh => exact ⟨_, _, _, _, _, _, _, _, _, _, _, rfl, .inr ⟨hh, rfl⟩, .inl rfl⟩
      · exact ⟨_, _, _, _, _, _, _, _, _, _, _, rfl, .inl rfl, .inl rfl⟩
    · simp only [doMove, hostStart] at h
      cases h
      split
      · next hh => exact ⟨_, _, _, _, _, _, _, _, _, _, _, rfl, .inl rfl, .inr ⟨hh, rfl⟩⟩
      · exact ⟨_, _, _, _, _, _, _, _, _, _, _, rfl, .inl rfl, .inl rfl⟩
  case timerPAdvance n =>
    simp only [doMove, timerPAdvance] at h
    repeat' split at h
    any_goals cases h
    simp only [advancePwm]
    split <;> exact ⟨_, _, _, _, _, _, _, _, _, _, _, rfl, .inl rfl, .inl rfl⟩
  case hostRaise e =>
    cases e <;>
      first
      | (cases h; done)
      | (cases h; exact ⟨_, _, _, _, _, _, _, _, _, _, _, rfl, .inl rfl, .inl rfl⟩)
  all_goals
    simp only [doMove, hostWrite, hostRead, hostAccess, hostInject, hostAck, timerSFire] at h
    repeat' split at h
    all_goals
      first
      | (cases h; done)
      | (cases h; exact ⟨_, _, _, _, _, _, _, _, _, _, _, rfl, .inl rfl, .inl rfl⟩)

/-! ### The operations taken alone -/

/-- An operation's bytes decode only to one of the six operations. -/
theorem decode_uop {bs rest : List Byte} {i : Instr} (h : decode .uop bs = .ok (i, rest)) : formatOf i = .uop := by
  unfold decode at h
  split at h
  · cases h
  · next b bs' =>
    dsimp only at h
    unfold decodeUop at h
    split at h
    · split at h
      · unfold takePoll at h; split at h
        · next c _ =>
          dsimp only at h
          generalize (if c.getLsbD 2 = true then UnitId.mu else UnitId.cu) = u at h
          split at h
          · cases h; rfl
          · cases h
        · cases h
      · unfold takeRaise at h; split at h
        · split at h
          · cases h; rfl
          · cases h
        · cases h
      · unfold takeConfigure at h; split at h
        · cases h
        · split at h
          · cases h; rfl
          · cases h
          · cases h
      · unfold takeRun at h; split at h
        · cases h
        · split at h
          · cases h; rfl
          · cases h
          · cases h
      · unfold takeReset at h; split at h
        · cases h; rfl
        · cases h
      · unfold takeMix at h; split at h
        · cases h; rfl
        · cases h
        · cases h
      · cases h
    · cases h

/-- An operation taken alone changes the filter instances, the latches, the pending bits, the marks, the draws and the
returned value, nothing else. -/
theorem exec_uop_frame {i : Instr} (hf : formatOf i = .uop) {s t : State} (h : exec i s = .next t) :
    ∃ fe latch hostPend ovr ret draws, t = { s with fe, latch, hostPend, ovr, ret, draws } := by
  cases i
  case poll u ch =>
    simp only [exec, execPoll] at h
    split at h
    · cases h; exact ⟨_, _, _, _, _, _, rfl⟩
    · cases h
  case raise e =>
    simp only [exec, execRaise] at h
    cases h
    obtain ⟨_, _, _, _, e⟩ := raiseEvent_frame e s
    rw [e]; exact ⟨_, _, _, _, _, _, rfl⟩
  case configure k c T =>
    simp only [exec, execConfigure] at h
    cases h; exact ⟨_, _, _, _, _, _, rfl⟩
  case run k x =>
    simp only [exec, execRun] at h
    split at h
    · cases h
    · cases h; exact ⟨_, _, _, _, _, _, rfl⟩
  case reset k =>
    simp only [exec, execReset] at h
    split at h
    · cases h
    · cases h; exact ⟨_, _, _, _, _, _, rfl⟩
  case mix =>
    simp only [exec, execMix] at h
    cases h; exact ⟨_, _, _, _, _, _, rfl⟩
  all_goals exact absurd hf (by simp [formatOf])

/-- A filter instance that is configured stays configured under an operation taken alone. -/
theorem exec_uop_configured {i : Instr} (hf : formatOf i = .uop) {s t : State} (h : exec i s = .next t) (k : Fin 4)
    (hk : (s.fe.get k).state ≠ .unconfigured) : (t.fe.get k).state ≠ .unconfigured := by
  cases i
  case poll u ch =>
    simp only [exec, execPoll] at h
    split at h
    · cases h; exact hk
    · cases h
  case raise e =>
    simp only [exec, execRaise] at h
    cases h
    rw [raiseEvent_fe]; exact hk
  case configure j c T =>
    simp only [exec, execConfigure] at h
    cases h
    rw [Quad.get_set]; split
    · simp [feConfigure]
    · exact hk
  case run j x =>
    simp only [exec, execRun] at h
    split at h
    · cases h
    · cases h
      rw [Quad.get_set]; split
      · simp [feRun]
      · exact hk
  case reset j =>
    simp only [exec, execReset] at h
    split at h
    · cases h
    · next hj =>
      cases h
      rw [Quad.get_set]; split
      · simpa [feReset] using hj
      · exact hk
  case mix =>
    simp only [exec, execMix] at h
    cases h; exact hk
  all_goals exact absurd hf (by simp [formatOf])

/-! ### A condition that every move keeps -/

/-- A condition that does not look at the script, the returned value or the draws, and that every host move, timer
move, unit move and operation keeps, is kept by every step. -/
theorem step_keeps {P : State → Prop}
    (hside : ∀ s script ret draws, P s → P { s with script, ret, draws })
    (hmove : ∀ m s t, P s → doMove m s = .next t → P t)
    (hop : ∀ i s t, P s → formatOf i = .uop → exec i s = .next t → P t)
    {s t : State} (hs : P s) (h : step s = .next t) : P t := by
  unfold step nextMove at h
  split at h
  · next l rest _ =>
    have hs' : P { s with script := rest } := hside s rest s.ret s.draws hs
    cases l with
    | move m => exact hmove m _ t hs' h
    | op bs =>
      unfold runLine runDecoded at h
      dsimp only at h
      split at h
      · next i r hd => exact hop i _ t hs' (decode_uop hd) h
      · cases h
  · unfold freeStep at h
    have hs' : P { s with draws := s.draws + 1 } := hside s s.script s.ret (s.draws + 1) hs
    dsimp only at h
    split at h
    · next s2 hm => cases h; exact hmove _ _ _ hs' hm
    · cases h
    · cases h; exact hs'

end Sys2Proof.Machine
end

