-- ==== Sys2Proof/Laws/Writes.lean ====
section
/-! SUPPORT. What each move writes to the SCB: a list of whole words, so that a condition on memory is kept if a write
of a word keeps it. -/

namespace Sys2Proof.Machine

/-- `t`'s SCB is `s`'s after the words `ws` are written in order. -/
def Wrote (s t : State) (ws : List (WordOff × Word)) : Prop := t.mem = (memWriteAll ws s).mem ∧ t.par = s.par

theorem memWriteAll_mem_congr (ws : List (WordOff × Word)) {s t : State} (hm : t.mem = s.mem) (hp : t.par = s.par) :
    (memWriteAll ws t).mem = (memWriteAll ws s).mem := by
  induction ws generalizing s t with
  | nil => exact hm
  | cons w ws ih =>
    refine ih (s := memWrite w.1.val w.2 s) (t := memWrite w.1.val w.2 t) ?_ hp
    simp only [memWrite, hm, hp]

theorem memWriteAll_append (ws vs : List (WordOff × Word)) (s : State) :
    memWriteAll (ws ++ vs) s = memWriteAll vs (memWriteAll ws s) := by
  induction ws generalizing s with
  | nil => rfl
  | cons w ws ih => exact ih (memWrite w.1.val w.2 s)

theorem Wrote.refl {s t : State} (hm : t.mem = s.mem) (hp : t.par = s.par) : Wrote s t [] := ⟨hm, hp⟩

theorem Wrote.trans {s t u : State} {ws vs : List (WordOff × Word)} (h : Wrote s t ws) (h' : Wrote t u vs) :
    Wrote s u (ws ++ vs) := by
  refine ⟨?_, h'.2.trans h.2⟩
  rw [h'.1, memWriteAll_append]
  exact memWriteAll_mem_congr vs h.1 (by rw [memWriteAll_par]; exact h.2)

/-- Writing words keeps the canonical form. -/
theorem Wrote.memOk {s t : State} {ws : List (WordOff × Word)} (h : Wrote s t ws) (hs : s.memOk = true) :
    t.memOk = true := by
  simp only [State.memOk, Bool.and_eq_true] at hs ⊢
  rw [h.1, h.2]
  exact ⟨memWriteAll_par ws s ▸ memWriteAll_wf ws hs.1, memWriteAll_inScb ws hs.2⟩

theorem State.memOk_rising {s : State} (h : s.memOk = true) : Memory.risingFrom 0 s.mem = true := by
  simp only [State.memOk, Memory.wf, Bool.and_eq_true] at h
  exact h.1.1

/-- A word is, after words are written, one of the words written to it or the word that was there. -/
theorem memRead_memWriteAll {P : Word → Prop} (ws : List (WordOff × Word)) (n : Nat) {s : State}
    (hr : Memory.risingFrom 0 s.mem = true) (hs : P (memRead n s)) (hw : ∀ w ∈ ws, w.1.val = n → P w.2) :
    P (memRead n (memWriteAll ws s)) := by
  induction ws generalizing s with
  | nil => exact hs
  | cons w ws ih =>
    refine ih (s := memWrite w.1.val w.2 s) (memWrite_rising _ _ hr) ?_ fun v hv => hw v (List.mem_cons_of_mem _ hv)
    rw [memRead_memWrite _ _ _ hr]
    split
    · next h => exact hw w List.mem_cons_self h.symm
    · exact hs

/-- The last value that a list of writes puts into a word. -/
def lastWrite : List (WordOff × Word) → Nat → Option Word
  | [], _ => none
  | w :: rest, n =>
    match lastWrite rest n with
    | some v => some v
    | none => if w.1.val = n then some w.2 else none

/-- Every word after words are written: the last value written to it, or what was there. -/
theorem memRead_memWriteAll_eq (ws : List (WordOff × Word)) (n : Nat) {s : State}
    (hr : Memory.risingFrom 0 s.mem = true) :
    memRead n (memWriteAll ws s) = (lastWrite ws n).getD (memRead n s) := by
  induction ws generalizing s with
  | nil => rfl
  | cons w ws ih =>
    refine (ih (s := memWrite w.1.val w.2 s) (memWrite_rising _ _ hr)).trans ?_
    rw [memRead_memWrite _ _ _ hr]
    simp only [lastWrite]
    cases lastWrite ws n with
    | some v => rfl
    | none =>
      by_cases h : n = w.1.val
      · simp [h]
      · have h' : w.1.val ≠ n := fun he => h he.symm
        simp [h, h']

/-- Words not written keep their bytes. -/
theorem readByte_memWriteAll (ws : List (WordOff × Word)) (a : Nat) {s : State}
    (hr : Memory.risingFrom 0 s.mem = true) (hw : ∀ w ∈ ws, ¬(4 * w.1.val ≤ a ∧ a < 4 * w.1.val + 4)) :
    readByte a (memWriteAll ws s) = readByte a s := by
  induction ws generalizing s with
  | nil => rfl
  | cons w ws ih =>
    refine (ih (s := memWrite w.1.val w.2 s) (memWrite_rising _ _ hr) fun v hv => hw v (List.mem_cons_of_mem _ hv)).trans ?_
    rw [readByte_memWrite _ _ _ hr, if_neg (hw w List.mem_cons_self)]

/-- Reading a word after words are written. -/
theorem Wrote.memRead {s t : State} {ws : List (WordOff × Word)} (h : Wrote s t ws) (hs : t.scbSeed = s.scbSeed)
    (hr : Memory.risingFrom 0 s.mem = true) (n : Nat) : memRead n t = (lastWrite ws n).getD (memRead n s) := by
  rw [← memRead_memWriteAll_eq _ _ hr]
  exact memRead_congr n h.1 (by rw [memWriteAll_par, h.2]) (by rw [memWriteAll_scbSeed, hs])

/-- Reading a byte that no word written holds. -/
theorem Wrote.readByte {s t : State} {ws : List (WordOff × Word)} (h : Wrote s t ws) (hs : t.scbSeed = s.scbSeed)
    (hr : Memory.risingFrom 0 s.mem = true) {a : Nat} (hw : ∀ w ∈ ws, ¬(4 * w.1.val ≤ a ∧ a < 4 * w.1.val + 4)) :
    readByte a t = readByte a s := by
  rw [← readByte_memWriteAll ws a hr hw]
  exact readByte_congr a h.1 (by rw [memWriteAll_par, h.2]) (by rw [memWriteAll_scbSeed, hs])

/-! ### What the handlers write -/

/-- The words a sample-tick handler writes before its RAISE. -/
def samplePubWrites (s : State) : List (WordOff × Word) :=
  outputWrites (mixOutputs s.par (runFilters (tmrSClearFlag s)).2)
    ++ [(53, Config.freeWord s.draws), (54, Config.freeWord (s.draws + 1))]

theorem samplePublished_mem (s : State) : (samplePublished s).mem = (memWriteAll (samplePubWrites s) s).mem := by
  rw [samplePubWrites, memWriteAll_append]
  rfl

/-- The words the handler of a polled code writes in CU_ACTIVE. -/
def cuRowWrites (e : Event) (s : State) : List (WordOff × Word) :=
  match e with
  | .newData => if dbgNewData (memRead offDebugMask s) then snapshotNewData (loadOdometry s) else []
  | .clearArmed => outputWrites (.fill s.par.dutyBase)
  | .sampleTick =>
    samplePubWrites s ++
      if dbgSample (memRead offDebugMask (raiseEvent .outputReady (samplePublished s))) then
        snapshotSample (setpoints s) (runFilters (tmrSClearFlag s)).2
      else []
  | .none | .motorStop | .controllerStop | .controllerReady | .motorReady | .outputReady | .setArmed | .debug | .pwmTick
  | .reserved12 | .reserved13 | .reserved14 | .reserved15 => []

/-- A debug snapshot writes its words and sets the host's `debug` bit, nothing else. -/
theorem debugSnapshot_eq (ws : List (WordOff × Word)) (s : State) :
    debugSnapshot ws s =
      { s with mem := (memWriteAll ws s).mem, hostPend := { s.hostPend with debug := true } } := by
  unfold debugSnapshot
  rw [memWriteAll_frame]
  exact Eq.refl { s with mem := (memWriteAll ws s).mem, hostPend := { s.hostPend with debug := true } }

theorem debugSnapshot_wrote (ws : List (WordOff × Word)) (s : State) : Wrote s (debugSnapshot ws s) ws := by
  unfold debugSnapshot
  refine ⟨?_, ?_⟩
  · simp
  · simp

/-! ### The handlers that write, as one update each -/

/-- The sample-tick handler up to its RAISE. -/
theorem samplePublished_eq (s : State) :
    samplePublished s =
      { s with
        tmrS := { s.tmrS with flag := false }
        fe := (runFilters (tmrSClearFlag s)).1.fe
        mem := (memWriteAll (samplePubWrites s) s).mem
        draws := s.draws + 2 } := by
  have all : ∀ ws (x : State), ∃ m, memWriteAll ws x = { x with mem := m } :=
    fun ws x => ⟨_, memWriteAll_frame ws x⟩
  have free : ∀ n (x : State), ∃ m, memWriteFree n x = { x with mem := m, draws := x.draws + 1 } :=
    fun n x => ⟨_, rfl⟩
  rw [← samplePublished_mem]
  generalize hp : samplePublished s = p
  unfold samplePublished at hp
  obtain ⟨m1, e1⟩ :=
    all (outputWrites (mixOutputs s.par (runFilters (tmrSClearFlag s)).2)) (runFilters (tmrSClearFlag s)).1
  obtain ⟨m2, e2⟩ := free 53 { (runFilters (tmrSClearFlag s)).1 with mem := m1 }
  obtain ⟨m3, e3⟩ := free 54 { (runFilters (tmrSClearFlag s)).1 with mem := m2, draws := s.draws + 1 }
  rw [e1, e2] at hp
  have e : p = { s with
      tmrS := { s.tmrS with flag := false }
      fe := (runFilters (tmrSClearFlag s)).1.fe
      mem := m3
      draws := s.draws + 2 } := hp.symm.trans e3
  rw [show p.mem = m3 by rw [e]]
  exact e

/-- The new-data handler. -/
theorem cuNewData_eq (s : State) :
    cuNewData s =
      { loadOdometry s with
        mem := (memWriteAll (cuRowWrites .newData s) s).mem
        hostPend := { s.hostPend with debug := s.hostPend.debug || dbgNewData (memRead 44 s) } } := by
  have hx : memRead offDebugMask (loadOdometry s) = memRead 44 s := rfl
  have hm : (memWriteAll (snapshotNewData (loadOdometry s)) (loadOdometry s)).mem
      = (memWriteAll (snapshotNewData (loadOdometry s)) s).mem := memWriteAll_mem_congr _ rfl rfl
  simp only [cuNewData, cuRowWrites, hx, show memRead offDebugMask s = memRead 44 s from rfl]
  cases dbgNewData (memRead 44 s) with
  | true =>
    simp only [if_true, debugSnapshot_eq, hm, Bool.or_true]
    generalize (memWriteAll (snapshotNewData (loadOdometry s)) s).mem = m
    rfl
  | false =>
    simp only [Bool.or_false]
    rfl

/-- The clear-armed handler. -/
theorem cuClearArmed_eq (s : State) :
    cuClearArmed s =
      raiseEvent .outputReady
        { s with
          tmrS := { s.tmrS with en := false }
          fe := s.fe.map feReset
          mem := (memWriteAll (outputWrites (.fill s.par.dutyBase)) s).mem } := by
  have hm : (memWriteAll (outputWrites (.fill s.par.dutyBase)) (tmrSDisable s)).mem
      = (memWriteAll (outputWrites (.fill s.par.dutyBase)) s).mem := memWriteAll_mem_congr _ rfl rfl
  simp only [cuClearArmed]
  rw [memWriteAll_frame, hm]
  generalize (memWriteAll (outputWrites (.fill s.par.dutyBase)) s).mem = m
  rfl

theorem pollChannel_wrote (ch : Channel) (s : State) : Wrote s (pollChannel ch s).2 [] := ⟨rfl, rfl⟩

theorem exec_cuActiveRow_wrote {e : Event} {s t : State} (h : exec (cuActiveRow e) s = .next t) :
    Wrote s t (cuRowWrites e s) := by
  cases e
  case newData =>
    cases (Host.Outcome.next.inj h : cuNewData s = t)
    simp only [cuNewData, cuRowWrites, show memRead offDebugMask (loadOdometry s) = memRead offDebugMask s from rfl]
    split
    · exact Wrote.trans (ws := []) (t := loadOdometry s) ⟨rfl, rfl⟩ (debugSnapshot_wrote _ _)
    · exact ⟨rfl, rfl⟩
  case sampleTick =>
    cases (Host.Outcome.next.inj h : cuSampleTick s = t)
    rw [cuSampleTick_eq]
    have h1 : Wrote s (raiseEvent .outputReady (samplePublished s)) (samplePubWrites s) :=
      ⟨samplePublished_mem s, by
        obtain ⟨_, _, _, _, _, _, _, _, _, _, _, _, _, e⟩ := samplePublished_cu s
        rw [raiseEvent_par, e]⟩
    simp only [cuRowWrites]
    split
    · exact h1.trans (debugSnapshot_wrote _ _)
    · rw [List.append_nil]; exact h1
  case clearArmed =>
    cases (Host.Outcome.next.inj h : cuClearArmed s = t)
    simp only [cuClearArmed, cuRowWrites]
    refine ⟨?_, ?_⟩
    · rw [raiseEvent_mem, resetFilters_mem]
      exact memWriteAll_mem_congr _ rfl rfl
    · rw [raiseEvent_par, resetFilters_par, memWriteAll_par]
      rfl
  case none => cases h; exact ⟨rfl, rfl⟩
  case motorReady => cases h; exact ⟨rfl, rfl⟩
  case setArmed => cases h; exact ⟨rfl, rfl⟩
  all_goals
    cases (Host.Outcome.next.inj h : raiseEvent .motorStop s = t)
    exact ⟨raiseEvent_mem _ s, raiseEvent_par _ s⟩

theorem exec_cuAwaitRow_wrote {e : Event} {s t : State} (h : exec (cuAwaitRow e) s = .next t) : Wrote s t [] := by
  cases e <;> (cases h; exact ⟨rfl, rfl⟩)

/-- What the step of the CU's state register writes. -/
theorem exec_stateRow_cu_wrote {s t : State} (h : exec (stateRow .cu s) s = .next t) :
    Wrote s t [] ∨ ∃ e1 e2 s1 s2, s1.par = s.par ∧ s2.par = s.par ∧
      (Wrote s t (cuRowWrites e1 s1) ∨ Wrote s t (cuRowWrites e1 s1 ++ cuRowWrites e2 s2)) := by
  unfold stateRow at h
  dsimp only at h
  cases hs : s.cuState <;> rw [hs] at h
  · cases h; exact .inl ⟨rfl, rfl⟩
  · have h' : exec (cuAwaitRow (s.latch.get .cuCtl)) (pollChannel .cuCtl s).2 = .next t := by
      rw [← awaitDispatch_eq]; exact h
    exact .inl ((pollChannel_wrote _ s).trans (exec_cuAwaitRow_wrote h'))
  · cases h; exact .inl ⟨rfl, rfl⟩
  · have hx : exec .stepCuActive s =
        andThen (cuDispatch (s.latch.get .cuCtl) (pollChannel .cuCtl s).2) fun s1 =>
          if s1.cuState = .active then cuDispatch (s1.latch.get .cuTick) (pollChannel .cuTick s1).2 else .next s1 := rfl
    rw [hx, cuDispatch_eq] at h
    obtain ⟨t1, h1, -⟩ := exec_cuActiveRow (s.latch.get .cuCtl) (pollChannel .cuCtl s).2
    have w1 := (pollChannel_wrote .cuCtl s).trans (exec_cuActiveRow_wrote h1)
    rw [h1] at h
    simp only [andThen] at h
    split at h
    · rw [cuDispatch_eq] at h
      have w2 := (pollChannel_wrote .cuTick t1).trans (exec_cuActiveRow_wrote h)
      exact .inr ⟨_, _, (pollChannel .cuCtl s).2, (pollChannel .cuTick t1).2, rfl, w1.2,
        .inr (w1.trans w2)⟩
    · cases h
      exact .inr ⟨_, .none, (pollChannel .cuCtl s).2, s, rfl, rfl, .inl w1⟩
  · cases h; exact .inl ⟨rfl, rfl⟩

/-- What one action writes. -/
def actWrites (a : Act) (s : State) : List (WordOff × Word) :=
  match a with
  | .write n v => [(n, v)]
  | .writeFree n => [(n, Config.freeWord s.draws)]
  | _ => []

theorem performAct_wrote (u : UnitId) (a : Act) (s : State) : Wrote s (performAct u a s).2 (actWrites a s) := by
  cases a
  case pollIfActive ch =>
    simp only [performAct]
    split <;> exact ⟨rfl, rfl⟩
  case read n dst => cases dst <;> exact ⟨rfl, rfl⟩
  case readCfg got =>
    simp only [performAct]
    split <;> exact ⟨rfl, rfl⟩
  case raise e => exact ⟨raiseEvent_mem e s, raiseEvent_par e s⟩
  all_goals exact ⟨rfl, rfl⟩

theorem setPend_wrote (u : UnitId) (acts : List Act) (s : State) : Wrote s (setPend u acts s) [] := by
  cases u <;> exact ⟨rfl, rfl⟩

/-- Every move but a reset writes whole words of the SCB, and nothing else of it. -/
theorem doMove_wrote {m : Move} {s t : State} (hr : m ≠ .hostReset) (h : doMove m s = .next t) :
    ∃ ws, Wrote s t ws := by
  cases m
  case hostWrite n v =>
    simp only [doMove, hostWrite] at h
    split at h
    · next hn => cases h; exact ⟨[(⟨n, hn⟩, v)], rfl, rfl⟩
    · cases h
  case hostRead n =>
    simp only [doMove, hostRead] at h
    split at h
    · cases h; exact ⟨[], rfl, rfl⟩
    · cases h
  case hostWriteAt addr bytes v =>
    simp only [doMove, hostAccess, hostWrite] at h
    repeat' split at h
    any_goals cases h
    next hn => exact ⟨[(⟨_, hn⟩, v)], rfl, rfl⟩
  case hostReadAt addr bytes =>
    simp only [doMove, hostAccess, hostRead] at h
    repeat' split at h
    any_goals cases h
    exact ⟨[], rfl, rfl⟩
  case hostRaise e =>
    cases e <;> first | (cases h; done) | (cases h; exact ⟨[], rfl, rfl⟩)
  case hostInject ch e =>
    simp only [doMove, hostInject] at h
    split at h
    · cases h
    · split at h
      · cases h
      · cases h; exact ⟨[], rfl, rfl⟩
  case hostAck e =>
    simp only [doMove, hostAck] at h
    split at h
    · cases h; exact ⟨[], rfl, rfl⟩
    · cases h
  case hostStart u =>
    cases u
    · simp only [doMove, hostStart] at h
      cases h; split <;> exact ⟨[], rfl, rfl⟩
    · simp only [doMove, hostStart] at h
      cases h; split <;> exact ⟨[], rfl, rfl⟩
  case hostReset => exact absurd rfl hr
  case timerSFire =>
    simp only [doMove, timerSFire] at h
    split at h
    · cases h; exact ⟨[], rfl, rfl⟩
    · cases h
  case timerPAdvance n =>
    simp only [doMove, timerPAdvance] at h
    repeat' split at h
    any_goals cases h
    simp only [advancePwm]
    split <;> exact ⟨[], rfl, rfl⟩
  case unit u g =>
    rcases moveUnit_cases (u := u) (g := g) h with ⟨-, h⟩ | ⟨e, rest, -, h⟩ | rfl
    · cases u
      · rcases exec_stateRow_cu_wrote h with h | ⟨_, _, _, _, -, -, h | h⟩ <;> exact ⟨_, h⟩
      · obtain ⟨t', h', f⟩ := exec_stateRow_mu s
        cases h.symm.trans h'
        obtain ⟨_, _, _, _, _, _, _, _, rfl⟩ := f
        exact ⟨[], rfl, rfl⟩
    · cases u
      · unfold eventRow at h
        dsimp only at h
        split at h
        · exact ⟨_, Wrote.trans (setPend_wrote .cu rest s) (exec_cuActiveRow_wrote h)⟩
        · exact ⟨_, Wrote.trans (setPend_wrote .cu rest s) (exec_cuAwaitRow_wrote h)⟩
      · obtain ⟨t', h', f⟩ := exec_muRow e (setPend .mu rest s)
        cases h.symm.trans h'
        obtain ⟨_, _, _, _, _, _, _, _, rfl⟩ := f
        exact ⟨[], rfl, rfl⟩
    · rcases action_cases u s with h | ⟨a, rest, -, h⟩
      · rw [h]; exact ⟨[], rfl, rfl⟩
      · rw [h]; exact ⟨_, Wrote.trans (performAct_wrote u a s) (setPend_wrote u _ _)⟩

end Sys2Proof.Machine
end

