-- ==== Sys2Proof/Laws/Actions.lean ====
section
/-! SUPPORT. Lists of atomic actions run to their end: how they compose, and how a unit's moves of one action each run
them. -/

namespace Sys2Proof.Machine

@[simp] theorem pend_setPend (u : UnitId) (acts : List Act) (s : State) : pend u (setPend u acts s) = acts := by
  cases u <;> rfl

@[simp] theorem setPend_setPend (u : UnitId) (acts acts' : List Act) (s : State) :
    setPend u acts (setPend u acts' s) = setPend u acts s := by
  cases u <;> rfl

theorem setPend_pend (u : UnitId) (s : State) : setPend u (pend u s) s = s := by
  cases u <;> rfl

/-- An action neither reads nor writes what is left of its unit's step. -/
theorem performAct_setPend (u : UnitId) (a : Act) (acts : List Act) (s : State) :
    performAct u a (setPend u acts s) = ((performAct u a s).1, setPend u acts (performAct u a s).2) := by
  cases a
  case raise e => cases u <;> cases e <;> rfl
  case read n d => cases u <;> cases d <;> rfl
  case pollIfActive ch =>
    have h : unitActive u (setPend u acts s) = unitActive u s := by cases u <;> rfl
    simp only [performAct, h]
    cases unitActive u s
    · rfl
    · cases u <;> rfl
  case readCfg got =>
    have h : memRead (1 + got.length) (setPend u acts s) = memRead (1 + got.length) s := by cases u <;> rfl
    simp only [performAct, h]
    split <;> rfl
  all_goals cases u <;> rfl

/-- The actions `acts` of a unit, run from `s` with nothing between them, end in `t`. -/
inductive Run (u : UnitId) : List Act → State → State → Prop where
  | nil (s : State) : Run u [] s s
  | cons {a : Act} {rest : List Act} {s t : State}
      (h : Run u ((performAct u a s).1 ++ rest) (performAct u a s).2 t) : Run u (a :: rest) s t

theorem Run.append {u : UnitId} {acts acts' : List Act} {s t v : State} (h : Run u acts s t) (h' : Run u acts' t v) :
    Run u (acts ++ acts') s v := by
  induction h with
  | nil => exact h'
  | cons _ ih =>
    have h2 := ih h'
    rw [List.append_assoc] at h2
    exact .cons h2

/-- An action that leaves no other. -/
theorem Run.one {u : UnitId} {a : Act} {s t : State} (h : performAct u a s = ([], t)) : Run u [a] s t :=
  .cons (by rw [h]; exact .nil t)

/-- An action, what it puts in front, and the rest. -/
theorem Run.step {u : UnitId} {a : Act} {first rest : List Act} {s x y t : State} (h : performAct u a s = (first, x))
    (h1 : Run u first x y) (h2 : Run u rest y t) : Run u (a :: rest) s t :=
  .cons (by rw [h]; exact h1.append h2)

theorem Run.writes (ws : List (WordOff × Word)) (s : State) : Run .cu (writeActs ws) s (memWriteAll ws s) := by
  induction ws generalizing s with
  | nil => exact .nil s
  | cons w ws ih => exact .cons (ih (memWrite w.1.val w.2 s))

/-- A unit's moves of one action each run the actions left of its step to their end. -/
theorem Run.actions {u : UnitId} {acts : List Act} {s t : State} (h : Run u acts s t) :
    ∃ k, actions u k (setPend u acts s) = setPend u [] t := by
  induction h with
  | nil s => exact ⟨0, rfl⟩
  | @cons a rest s t _ ih =>
    obtain ⟨k, hk⟩ := ih
    refine ⟨k + 1, ?_⟩
    have h : action u (setPend u (a :: rest) s)
        = setPend u ((performAct u a s).1 ++ rest) (performAct u a s).2 := by
      unfold action
      rw [pend_setPend]
      simp only [doAct, performAct_setPend, setPend_setPend]
    rw [← hk, ← h]
    rfl

/-! ### Each handler is its actions -/

/-- The seven reads of the new-data handler. -/
theorem Run.odometry (s : State) :
    Run .cu
      [.read 33 (.att 0), .read 34 (.att 1), .read 35 (.att 2), .read 36 (.rate 0), .read 37 (.rate 1),
       .read 38 (.rate 2), .read 39 .thrust] s (loadOdometry s) := by
  have rd : ∀ n att rate th, memRead n { s with wsAtt := att, wsRate := rate, wsThrust := th } = memRead n s :=
    fun _ _ _ _ => rfl
  have r : ∀ (n : WordOff) (d : Dest) (att rate : Tri Word) (th : Word) (att' rate' : Tri Word) (th' : Word),
      storeRead d (memRead n.val s) { s with wsAtt := att, wsRate := rate, wsThrust := th }
        = { s with wsAtt := att', wsRate := rate', wsThrust := th' } →
      performAct .cu (.read n d) { s with wsAtt := att, wsRate := rate, wsThrust := th }
        = ([], { s with wsAtt := att', wsRate := rate', wsThrust := th' }) := by
    intro n d att rate th att' rate' th' h
    show ([], storeRead d (memRead n.val _) _) = _
    rw [rd, h]
  exact
    .step (r 33 (.att 0) s.wsAtt s.wsRate s.wsThrust ⟨memRead 33 s, s.wsAtt.t1, s.wsAtt.t2⟩ s.wsRate s.wsThrust rfl) (.nil _)
    (.step (r 34 (.att 1) _ _ _ ⟨memRead 33 s, memRead 34 s, s.wsAtt.t2⟩ s.wsRate s.wsThrust rfl) (.nil _)
    (.step (r 35 (.att 2) _ _ _ ⟨memRead 33 s, memRead 34 s, memRead 35 s⟩ s.wsRate s.wsThrust rfl) (.nil _)
    (.step (r 36 (.rate 0) _ _ _ _ ⟨memRead 36 s, s.wsRate.t1, s.wsRate.t2⟩ s.wsThrust rfl) (.nil _)
    (.step (r 37 (.rate 1) _ _ _ _ ⟨memRead 36 s, memRead 37 s, s.wsRate.t2⟩ s.wsThrust rfl) (.nil _)
    (.step (r 38 (.rate 2) _ _ _ _ ⟨memRead 36 s, memRead 37 s, memRead 38 s⟩ s.wsThrust rfl) (.nil _)
    (.one (r 39 .thrust _ _ _ _ _ (memRead 39 s) rfl)))))))

/-- The four reads of `pid_output`. -/
theorem Run.duties (s : State) : Run .mu dutyReadActs s (loadDuty s) := by
  have rd : ∀ n d, memRead n { s with duty := d } = memRead n s := fun _ _ => rfl
  have r : ∀ (n : WordOff) (m : Fin 4) (d : Quad Word),
      performAct .mu (.read n (.duty m)) { s with duty := d }
        = ([], { s with duty := d.set m (clampDuty s.par ((memRead n.val s).toNat : Int)) }) := by
    intro n m d
    show ([], storeRead (.duty m) (memRead n.val _) _) = _
    rw [rd]
    rfl
  exact .step (r 40 0 s.duty) (.nil _) (.step (r 41 1 _) (.nil _) (.step (r 42 2 _) (.nil _) (.one (r 43 3 _))))

/-- A snapshot's writes and its RAISE. -/
theorem Run.snapshot (ws : List (WordOff × Word)) (s : State) :
    Run .cu (writeActs ws ++ [.raise .debug]) s (debugSnapshot ws s) :=
  (Run.writes ws s).append (.one rfl)

/-- A handler of the CU in CU_ACTIVE is its actions with nothing between. -/
theorem Run.cuRow (e : Event) {s t : State} (h : exec (cuActiveRow e) s = .next t) : Run .cu (cuHandlerActs e) s t := by
  cases e
  case none => cases h; exact .nil s
  case newData =>
    cases (Host.Outcome.next.inj h : cuNewData s = t)
    refine (Run.odometry s).append (acts' := [.maskNewData]) ?_
    unfold cuNewData
    dsimp only
    split
    · next hd => exact .step (by simp only [performAct, hd, if_true]) (Run.snapshot _ _) (.nil _)
    · next hd => exact .one (by simp only [performAct, hd]; rfl)
  case motorReady => cases h; exact .step rfl (.nil _) (.step rfl (.nil _) (.one rfl))
  case setArmed => cases h; exact .one rfl
  case clearArmed =>
    cases (Host.Outcome.next.inj h : cuClearArmed s = t)
    exact .step rfl (.nil _) (.step rfl (Run.writes _ _) (.step rfl (.nil _) (.one rfl)))
  case sampleTick =>
    cases (Host.Outcome.next.inj h : cuSampleTick s = t)
    refine .step (x := tmrSClearFlag s) rfl (.nil _) ?_
    refine .step (x := (runFilters (tmrSClearFlag s)).1)
      (first := writeActs (outputWrites (mixOutputs s.par (runFilters (tmrSClearFlag s)).2))
        ++ [.writeFree 53, .writeFree 54, .raise .outputReady,
          .maskSample (snapshotSample (setpoints s) (runFilters (tmrSClearFlag s)).2)]) rfl ?_ (.nil _)
    refine (Run.writes _ _).append (.step (first := []) rfl (.nil _) (.step (first := []) rfl (.nil _) ?_))
    refine .step (x := raiseEvent .outputReady (samplePublished s)) rfl (.nil _) ?_
    rw [cuSampleTick_eq]
    split
    · next hd => exact .step (by simp only [performAct, hd, if_true]) (Run.snapshot _ _) (.nil _)
    · next hd => exact .one (by simp only [performAct, hd]; rfl)
  all_goals
    cases (Host.Outcome.next.inj h : raiseEvent .motorStop s = t)
    exact .one rfl

/-- What CU_AWAIT does with a code is its actions with nothing between. -/
theorem Run.awaitRow (e : Event) {s t : State} (h : exec (cuAwaitRow e) s = .next t) : Run .cu (cuAwaitActs e) s t := by
  cases e
  case motorReady => cases h; exact .step rfl (.nil _) (.one rfl)
  all_goals cases h; exact .nil s

/-- A handler of the MU is its actions with nothing between. -/
theorem Run.muRow (e : Event) {s t : State} (h : exec (muRow e) s = .next t) : Run .mu (muHandlerActs e) s t := by
  cases e
  case none => cases h; exact .nil s
  case outputReady => cases h; exact Run.duties s
  case pwmTick => cases h; exact .step rfl (.nil _) (.one rfl)
  all_goals
    cases (Host.Outcome.next.inj h : muExit s = t)
    exact .step rfl (.nil _) (.step rfl (.nil _) (.one rfl))

end Sys2Proof.Machine
end

