-- ==== Sys2Proof/Laws/Arith.lean ====
section
/-! SUPPORT. The laws of reading and writing a fixed-point value, for every legal format. -/

namespace Sys2Proof.Machine

/-- A value read lies in the range of an `fx`. -/
theorem fxInt_range {par : Config.Params} (h : par.fmtOk = true) (w : Word) :
    fxMin par ≤ fxInt par w ∧ fxInt par w ≤ fxMax par := by
  simp only [Config.Params.fmtOk, Bool.and_eq_true, decide_eq_true_eq] at h
  have lo := BitVec.le_two_mul_toInt (x := w.setWidth par.numW)
  have up := BitVec.two_mul_toInt_lt (x := w.setWidth par.numW)
  have e : (2 : Int) ^ par.numW = 2 * 2 ^ (par.numW - 1) := by
    rw [show par.numW = par.numW - 1 + 1 by omega, Int.pow_succ, Int.mul_comm, Nat.add_sub_cancel]
  rw [e] at lo up
  simp only [fxMin, fxMax, fxInt, Int.natCast_pow, Int.cast_ofNat_Int]
  omega

/-- A value in the range of an `fx`, written and read, is that value. -/
theorem fxInt_fxWord {par : Config.Params} (h : par.fmtOk = true) {v : Int} (lo : fxMin par ≤ v) (up : v ≤ fxMax par) :
    fxInt par (fxWord v) = v := by
  simp only [Config.Params.fmtOk, Bool.and_eq_true, decide_eq_true_eq] at h
  have e : (2 : Int) ^ par.numW = 2 * 2 ^ (par.numW - 1) := by
    rw [show par.numW = par.numW - 1 + 1 by omega, Int.pow_succ, Int.mul_comm, Nat.add_sub_cancel]
  have d : (((2 ^ par.numW : Nat) : Int)) ∣ ((2 ^ 32 : Nat) : Int) := Int.natCast_dvd_natCast.2 (Nat.pow_dvd_pow 2 h.2)
  simp only [fxMin, fxMax, Int.natCast_pow, Int.cast_ofNat_Int] at lo up
  unfold fxInt fxWord
  rw [BitVec.toInt_eq_toNat_bmod, BitVec.toNat_setWidth, BitVec.toNat_ofInt]
  have m : (((v % ((2 ^ 32 : Nat) : Int)).toNat % 2 ^ par.numW : Nat) : Int) = v % ((2 ^ par.numW : Nat) : Int) := by
    rw [Int.natCast_emod, Int.toNat_of_nonneg (Int.emod_nonneg _ (by decide)), Int.emod_emod_of_dvd _ d]
  rw [m, Int.emod_bmod]
  apply Int.bmod_eq_of_le <;> simp only [Int.natCast_pow, Int.cast_ofNat_Int] <;> omega

/-- What `sat` leaves, read back: the integer, or the nearer end of the range. -/
theorem fxInt_sat_eq {par : Config.Params} (h : par.fmtOk = true) (v : Int) :
    fxInt par (sat par v) = if v > fxMax par then fxMax par else if v < fxMin par then fxMin par else v := by
  have p : (0 : Int) < ((2 ^ (par.numW - 1) : Nat) : Int) := Int.natCast_pos.2 (Nat.two_pow_pos _)
  unfold sat
  apply fxInt_fxWord h <;> repeat' split
  all_goals (simp only [fxMin, fxMax] at *; omega)

/-- The word of zero reads as zero, in every format. -/
@[simp] theorem fxInt_zero (par : Config.Params) : fxInt par 0 = 0 := by
  simp [fxInt]

/-- The value 1.0 can be read back. -/
theorem fxInt_one {par : Config.Params} (h : par.fmtOk = true) : fxInt par (one par) = fxScale par := by
  have h' := h
  simp only [Config.Params.fmtOk, Bool.and_eq_true, decide_eq_true_eq] at h'
  have p : ((2 ^ par.numF : Nat) : Int) < ((2 ^ (par.numW - 1) : Nat) : Int) :=
    Int.ofNat_lt.2 (Nat.pow_lt_pow_right (by decide) (by omega))
  have q : (0 : Int) < ((2 ^ par.numF : Nat) : Int) := Int.natCast_pos.2 (Nat.two_pow_pos _)
  apply fxInt_fxWord h <;> simp only [fxMin, fxMax, fxScale] <;> omega

/-- Where NUM_W is 32 the value is the whole word's. -/
theorem fxInt_wide {par : Config.Params} (h : par.numW = 32) (w : Word) : fxInt par w = w.toInt := by
  unfold fxInt
  rw [BitVec.toInt_eq_toNat_bmod, BitVec.toInt_eq_toNat_bmod, BitVec.toNat_setWidth, h, Nat.mod_eq_of_lt w.isLt]

end Sys2Proof.Machine
end

