-- ==== Sys2Proof/Laws/Decode.lean ====
section
/-! SUPPORT. Words and bytes, and the readers of operand bytes: each reads back what the encoder wrote, and takes nothing
else. -/

namespace Sys2Proof

open Sys2Proof.Machine

/-- The four bytes of a word of four bytes. -/
theorem wordBytes_wordOfBytes (a b c d : Byte) : wordBytes (wordOfBytes a b c d) = [a, b, c, d] := by
  simp only [wordBytes, List.cons.injEq, and_true]
  refine ⟨?_, ?_, ?_, ?_⟩ <;>
  · apply BitVec.eq_of_getLsbD_eq
    intro i hi
    simp only [byteOfWord_getLsbD, wordOfBytes, BitVec.getLsbD_append, hi]
    have e1 : 8 * 1 + i - 8 = i := by omega
    have e2 : 8 * 2 + i - 8 - 8 = i := by omega
    have e3 : 8 * 3 + i - 8 - 8 - 8 = i := by omega
    simp [e1, e2, e3, hi, show ¬(8 * 1 + i < 8) by omega, show ¬(8 * 2 + i < 8) by omega,
      show ¬(8 * 2 + i - 8 < 8) by omega, show ¬(8 * 3 + i < 8) by omega, show ¬(8 * 3 + i - 8 < 8) by omega,
      show ¬(8 * 3 + i - 8 - 8 < 8) by omega]

/-- Operand words read back. -/
theorem takeWords_wordBytes (ws : List Word) (rest : List Byte) :
    takeWords ws.length (ws.flatMap wordBytes ++ rest) = .ok (ws, rest) := by
  induction ws with
  | nil => rfl
  | cons w ws ih =>
    simp only [List.length_cons, List.flatMap_cons, wordBytes, List.cons_append, List.nil_append, takeWords, ih,
      wordOfBytes_byteOfWord]

/-- Operand words are exactly the bytes they were read from. -/
theorem takeWords_eq : ∀ {n : Nat} {bs : List Byte} {ws : List Word} {rest : List Byte},
    takeWords n bs = .ok (ws, rest) → ws.flatMap wordBytes ++ rest = bs ∧ ws.length = n
  | 0, bs, ws, rest, h => by
    cases h
    exact ⟨rfl, rfl⟩
  | n + 1, bs, ws, rest, h => by
    unfold takeWords at h
    split at h
    · next hn => cases hn
    · next hn => 
      cases hn
      split at h
      · next hw =>
        cases h
        obtain ⟨h1, h2⟩ := takeWords_eq hw
        simp only [List.flatMap_cons, wordBytes_wordOfBytes, List.length_cons, h2, List.cons_append, List.nil_append, h1,
          and_self]
      · cases h
    · cases h

/-- An instance number reads back. -/
theorem takeIndex_indexByte (k : Fin 4) (rest : List Byte) : takeIndex (indexByte k :: rest) = .ok (k, rest) := by
  match k with
  | 0 => rfl
  | 1 => rfl
  | 2 => rfl
  | 3 => rfl

/-- An instance number is exactly the byte it was read from. -/
theorem takeIndex_eq {bs rest : List Byte} {k : Fin 4} (h : takeIndex bs = .ok (k, rest)) : indexByte k :: rest = bs := by
  unfold takeIndex at h
  split at h
  · split at h
    · cases h; simp [indexByte]
    · cases h
  · cases h

/-- A claim about every byte below a bound, from the claim about each numeral. -/
theorem byte_below {P : Byte → Prop} {n : Nat} (h : ∀ m, m < n → P (BitVec.ofNat 8 m)) (b : Byte) (hb : b.toNat < n) :
    P b := by
  have := h b.toNat hb
  simpa using this

end Sys2Proof
end

