-- ==== Sys2Proof/Laws/PerInstr.lean ====
section
/-! SUPPORT. Statements made of each instruction, one lemma for each constructor. -/

namespace Sys2Proof.Laws.FitsFormat

/-- The width of a format's word in bits (30_encoding.md R100). -/
def wordBits : Format → Nat
  | .evt _ => 5
  | .state => 4
  | .uop => 3

/-- An instruction's first byte holds its format's word and nothing above it, and only the operations are followed by
operand bytes (30_encoding.md R100, R106). -/
def Statement (i : Instr) : Prop :=
  ∃ b rest, encode i = b :: rest ∧ b.toNat < 2 ^ wordBits (formatOf i) ∧ (rest ≠ [] → formatOf i = .uop)

theorem cuNone : Statement .cuNone := ⟨_, _, rfl, by decide, fun h => absurd rfl h⟩
theorem cuMotorStop : Statement .cuMotorStop := ⟨_, _, rfl, by decide, fun h => absurd rfl h⟩
theorem cuControllerStop : Statement .cuControllerStop := ⟨_, _, rfl, by decide, fun h => absurd rfl h⟩
theorem cuNewData : Statement .cuNewData := ⟨_, _, rfl, by decide, fun h => absurd rfl h⟩
theorem cuControllerReady : Statement .cuControllerReady := ⟨_, _, rfl, by decide, fun h => absurd rfl h⟩
theorem cuMotorReady : Statement .cuMotorReady := ⟨_, _, rfl, by decide, fun h => absurd rfl h⟩
theorem cuOutputReady : Statement .cuOutputReady := ⟨_, _, rfl, by decide, fun h => absurd rfl h⟩
theorem cuSetArmed : Statement .cuSetArmed := ⟨_, _, rfl, by decide, fun h => absurd rfl h⟩
theorem cuClearArmed : Statement .cuClearArmed := ⟨_, _, rfl, by decide, fun h => absurd rfl h⟩
theorem cuDebug : Statement .cuDebug := ⟨_, _, rfl, by decide, fun h => absurd rfl h⟩
theorem cuSampleTick : Statement .cuSampleTick := ⟨_, _, rfl, by decide, fun h => absurd rfl h⟩
theorem cuPwmTick : Statement .cuPwmTick := ⟨_, _, rfl, by decide, fun h => absurd rfl h⟩
theorem cuReserved12 : Statement .cuReserved12 := ⟨_, _, rfl, by decide, fun h => absurd rfl h⟩
theorem cuReserved13 : Statement .cuReserved13 := ⟨_, _, rfl, by decide, fun h => absurd rfl h⟩
theorem cuReserved14 : Statement .cuReserved14 := ⟨_, _, rfl, by decide, fun h => absurd rfl h⟩
theorem cuReserved15 : Statement .cuReserved15 := ⟨_, _, rfl, by decide, fun h => absurd rfl h⟩
theorem awaitNone : Statement .awaitNone := ⟨_, _, rfl, by decide, fun h => absurd rfl h⟩
theorem awaitMotorStop : Statement .awaitMotorStop := ⟨_, _, rfl, by decide, fun h => absurd rfl h⟩
theorem awaitControllerStop : Statement .awaitControllerStop := ⟨_, _, rfl, by decide, fun h => absurd rfl h⟩
theorem awaitNewData : Statement .awaitNewData := ⟨_, _, rfl, by decide, fun h => absurd rfl h⟩
theorem awaitControllerReady : Statement .awaitControllerReady := ⟨_, _, rfl, by decide, fun h => absurd rfl h⟩
theorem awaitMotorReady : Statement .awaitMotorReady := ⟨_, _, rfl, by decide, fun h => absurd rfl h⟩
theorem awaitOutputReady : Statement .awaitOutputReady := ⟨_, _, rfl, by decide, fun h => absurd rfl h⟩
theorem awaitSetArmed : Statement .awaitSetArmed := ⟨_, _, rfl, by decide, fun h => absurd rfl h⟩
theorem awaitClearArmed : Statement .awaitClearArmed := ⟨_, _, rfl, by decide, fun h => absurd rfl h⟩
theorem awaitDebug : Statement .awaitDebug := ⟨_, _, rfl, by decide, fun h => absurd rfl h⟩
theorem awaitSampleTick : Statement .awaitSampleTick := ⟨_, _, rfl, by decide, fun h => absurd rfl h⟩
theorem awaitPwmTick : Statement .awaitPwmTick := ⟨_, _, rfl, by decide, fun h => absurd rfl h⟩
theorem awaitReserved12 : Statement .awaitReserved12 := ⟨_, _, rfl, by decide, fun h => absurd rfl h⟩
theorem awaitReserved13 : Statement .awaitReserved13 := ⟨_, _, rfl, by decide, fun h => absurd rfl h⟩
theorem awaitReserved14 : Statement .awaitReserved14 := ⟨_, _, rfl, by decide, fun h => absurd rfl h⟩
theorem awaitReserved15 : Statement .awaitReserved15 := ⟨_, _, rfl, by decide, fun h => absurd rfl h⟩
theorem muNone : Statement .muNone := ⟨_, _, rfl, by decide, fun h => absurd rfl h⟩
theorem muMotorStop : Statement .muMotorStop := ⟨_, _, rfl, by decide, fun h => absurd rfl h⟩
theorem muControllerStop : Statement .muControllerStop := ⟨_, _, rfl, by decide, fun h => absurd rfl h⟩
theorem muNewData : Statement .muNewData := ⟨_, _, rfl, by decide, fun h => absurd rfl h⟩
theorem muControllerReady : Statement .muControllerReady := ⟨_, _, rfl, by decide, fun h => absurd rfl h⟩
theorem muMotorReady : Statement .muMotorReady := ⟨_, _, rfl, by decide, fun h => absurd rfl h⟩
theorem muOutputReady : Statement .muOutputReady := ⟨_, _, rfl, by decide, fun h => absurd rfl h⟩
theorem muSetArmed : Statement .muSetArmed := ⟨_, _, rfl, by decide, fun h => absurd rfl h⟩
theorem muClearArmed : Statement .muClearArmed := ⟨_, _, rfl, by decide, fun h => absurd rfl h⟩
theorem muDebug : Statement .muDebug := ⟨_, _, rfl, by decide, fun h => absurd rfl h⟩
theorem muSampleTick : Statement .muSampleTick := ⟨_, _, rfl, by decide, fun h => absurd rfl h⟩
theorem muPwmTick : Statement .muPwmTick := ⟨_, _, rfl, by decide, fun h => absurd rfl h⟩
theorem muReserved12 : Statement .muReserved12 := ⟨_, _, rfl, by decide, fun h => absurd rfl h⟩
theorem muReserved13 : Statement .muReserved13 := ⟨_, _, rfl, by decide, fun h => absurd rfl h⟩
theorem muReserved14 : Statement .muReserved14 := ⟨_, _, rfl, by decide, fun h => absurd rfl h⟩
theorem muReserved15 : Statement .muReserved15 := ⟨_, _, rfl, by decide, fun h => absurd rfl h⟩
theorem stepCuHeld : Statement .stepCuHeld := ⟨_, _, rfl, by decide, fun h => absurd rfl h⟩
theorem stepCuAwait : Statement .stepCuAwait := ⟨_, _, rfl, by decide, fun h => absurd rfl h⟩
theorem stepCuConfig : Statement .stepCuConfig := ⟨_, _, rfl, by decide, fun h => absurd rfl h⟩
theorem stepCuActive : Statement .stepCuActive := ⟨_, _, rfl, by decide, fun h => absurd rfl h⟩
theorem stepCuHalt : Statement .stepCuHalt := ⟨_, _, rfl, by decide, fun h => absurd rfl h⟩
theorem stepMuHeld : Statement .stepMuHeld := ⟨_, _, rfl, by decide, fun h => absurd rfl h⟩
theorem stepMuBoot : Statement .stepMuBoot := ⟨_, _, rfl, by decide, fun h => absurd rfl h⟩
theorem stepMuActive : Statement .stepMuActive := ⟨_, _, rfl, by decide, fun h => absurd rfl h⟩
theorem stepMuHalt : Statement .stepMuHalt := ⟨_, _, rfl, by decide, fun h => absurd rfl h⟩
/-- An operation's word fits its three bits. -/
theorem uopWord_lt (op : BitVec 3) : (uopWord op).toNat < 2 ^ wordBits .uop := by
  simp only [uopWord, BitVec.toNat_setWidth, wordBits]
  omega

theorem poll (caller : UnitId) (ch : Channel) : Statement (.poll caller ch) := ⟨_, _, rfl, uopWord_lt 0, fun _ => rfl⟩
theorem raise (e : Event) : Statement (.raise e) := ⟨_, _, rfl, uopWord_lt 1, fun _ => rfl⟩
theorem configure (k : Fin 4) (cfg : PidCfg) (period : Word) : Statement (.configure k cfg period) :=
  ⟨_, _, rfl, uopWord_lt 2, fun _ => rfl⟩
theorem run (k : Fin 4) (x : Word) : Statement (.run k x) := ⟨_, _, rfl, uopWord_lt 3, fun _ => rfl⟩
theorem reset (k : Fin 4) : Statement (.reset k) := ⟨_, _, rfl, uopWord_lt 4, fun _ => rfl⟩
theorem mix (t r p y : Word) : Statement (.mix t r p y) := ⟨_, _, rfl, uopWord_lt 5, fun _ => rfl⟩

end Sys2Proof.Laws.FitsFormat
end

