-- ==== Sys2Proof/Tests/Slice0.lean ====
section
/-! SUPPORT. The model's own tests: decoding words written out from the spec, single steps against the vectors of
95_test_vectors.md, and a witness for every statement that has hypotheses. -/

namespace Sys2Proof.Tests

open Sys2Proof Sys2Proof.Machine

-- The tests are checked one after another, so that they do not take a thread each.
set_option Elab.async false

/-! ### Well-formed instructions -/

/-- 41_event_channel.md R142: a unit cannot poll a channel it does not own. -/
theorem test_wf_refuses_foreign_poll : (Instr.poll .cu .muCtl).wf = false ∧ (Instr.poll .mu .cuTick).wf = false := by
  decide

/-- The same instructions' bytes do not decode. -/
theorem test_decode_refuses_foreign_poll :
    decode .uop [0b000#8, 0b010#8] = .error .badOperand ∧ decode .uop [0b000#8, 0b101#8] = .error .badOperand := by
  and_intros <;> rfl

/-! ### Decoding: EVT words {unit, code} (30_encoding.md R100, R101, R103, R104) -/

/-- The CU's handlers: unit bit 0, then the code. -/
theorem test_decode_cu_low :
    decode (.evt .active) [0b00000#8] = .ok (.cuNone, []) ∧
    decode (.evt .active) [0b00001#8] = .ok (.cuMotorStop, []) ∧
    decode (.evt .active) [0b00010#8] = .ok (.cuControllerStop, []) ∧
    decode (.evt .active) [0b00011#8] = .ok (.cuNewData, []) ∧
    decode (.evt .active) [0b00100#8] = .ok (.cuControllerReady, []) ∧
    decode (.evt .active) [0b00101#8] = .ok (.cuMotorReady, []) ∧
    decode (.evt .active) [0b00110#8] = .ok (.cuOutputReady, []) ∧
    decode (.evt .active) [0b00111#8] = .ok (.cuSetArmed, []) := by
  and_intros <;> rfl

/-- The CU's handlers: unit bit 0, then the code. -/
theorem test_decode_cu_high :
    decode (.evt .active) [0b01000#8] = .ok (.cuClearArmed, []) ∧
    decode (.evt .active) [0b01001#8] = .ok (.cuDebug, []) ∧
    decode (.evt .active) [0b01010#8] = .ok (.cuSampleTick, []) ∧
    decode (.evt .active) [0b01011#8] = .ok (.cuPwmTick, []) ∧
    decode (.evt .active) [0b01100#8] = .ok (.cuReserved12, []) ∧
    decode (.evt .active) [0b01101#8] = .ok (.cuReserved13, []) ∧
    decode (.evt .active) [0b01110#8] = .ok (.cuReserved14, []) ∧
    decode (.evt .active) [0b01111#8] = .ok (.cuReserved15, []) := by
  and_intros <;> rfl

/-- The same words beside the table of CU_AWAIT. -/
theorem test_decode_await_low :
    decode (.evt .await) [0b00000#8] = .ok (.awaitNone, []) ∧
    decode (.evt .await) [0b00001#8] = .ok (.awaitMotorStop, []) ∧
    decode (.evt .await) [0b00010#8] = .ok (.awaitControllerStop, []) ∧
    decode (.evt .await) [0b00011#8] = .ok (.awaitNewData, []) ∧
    decode (.evt .await) [0b00100#8] = .ok (.awaitControllerReady, []) ∧
    decode (.evt .await) [0b00101#8] = .ok (.awaitMotorReady, []) ∧
    decode (.evt .await) [0b00110#8] = .ok (.awaitOutputReady, []) ∧
    decode (.evt .await) [0b00111#8] = .ok (.awaitSetArmed, []) := by
  and_intros <;> rfl

/-- The same words beside the table of CU_AWAIT. -/
theorem test_decode_await_high :
    decode (.evt .await) [0b01000#8] = .ok (.awaitClearArmed, []) ∧
    decode (.evt .await) [0b01001#8] = .ok (.awaitDebug, []) ∧
    decode (.evt .await) [0b01010#8] = .ok (.awaitSampleTick, []) ∧
    decode (.evt .await) [0b01011#8] = .ok (.awaitPwmTick, []) ∧
    decode (.evt .await) [0b01100#8] = .ok (.awaitReserved12, []) ∧
    decode (.evt .await) [0b01101#8] = .ok (.awaitReserved13, []) ∧
    decode (.evt .await) [0b01110#8] = .ok (.awaitReserved14, []) ∧
    decode (.evt .await) [0b01111#8] = .ok (.awaitReserved15, []) := by
  and_intros <;> rfl

/-- The MU's handlers: unit bit 1, then the code. -/
theorem test_decode_mu_low :
    decode (.evt .active) [0b10000#8] = .ok (.muNone, []) ∧
    decode (.evt .active) [0b10001#8] = .ok (.muMotorStop, []) ∧
    decode (.evt .active) [0b10010#8] = .ok (.muControllerStop, []) ∧
    decode (.evt .active) [0b10011#8] = .ok (.muNewData, []) ∧
    decode (.evt .active) [0b10100#8] = .ok (.muControllerReady, []) ∧
    decode (.evt .active) [0b10101#8] = .ok (.muMotorReady, []) ∧
    decode (.evt .active) [0b10110#8] = .ok (.muOutputReady, []) ∧
    decode (.evt .active) [0b10111#8] = .ok (.muSetArmed, []) := by
  and_intros <;> rfl

/-- The MU's handlers: unit bit 1, then the code. -/
theorem test_decode_mu_high :
    decode (.evt .active) [0b11000#8] = .ok (.muClearArmed, []) ∧
    decode (.evt .active) [0b11001#8] = .ok (.muDebug, []) ∧
    decode (.evt .active) [0b11010#8] = .ok (.muSampleTick, []) ∧
    decode (.evt .active) [0b11011#8] = .ok (.muPwmTick, []) ∧
    decode (.evt .active) [0b11100#8] = .ok (.muReserved12, []) ∧
    decode (.evt .active) [0b11101#8] = .ok (.muReserved13, []) ∧
    decode (.evt .active) [0b11110#8] = .ok (.muReserved14, []) ∧
    decode (.evt .active) [0b11111#8] = .ok (.muReserved15, []) := by
  and_intros <;> rfl

/-! ### Decoding: STATE words {unit, state} and UOP words (30_encoding.md R100, R105, R106; log entry 10) -/

/-- The step a state register selects. -/
theorem test_decode_state :
    decode .state [0b0000#8] = .ok (.stepCuHeld, []) ∧
    decode .state [0b0001#8] = .ok (.stepCuAwait, []) ∧
    decode .state [0b0010#8] = .ok (.stepCuConfig, []) ∧
    decode .state [0b0011#8] = .ok (.stepCuActive, []) ∧
    decode .state [0b0100#8] = .ok (.stepCuHalt, []) ∧
    decode .state [0b1000#8] = .ok (.stepMuHeld, []) ∧
    decode .state [0b1001#8] = .ok (.stepMuBoot, []) ∧
    decode .state [0b1010#8] = .ok (.stepMuActive, []) ∧
    decode .state [0b1011#8] = .ok (.stepMuHalt, []) := by
  and_intros <;> rfl

/-- CU states 5 to 7 and MU states 4 to 7 have no row. -/
theorem test_decode_state_reserved :
    decode .state [0b0101#8] = .error .reservedState ∧
    decode .state [0b0110#8] = .error .reservedState ∧
    decode .state [0b0111#8] = .error .reservedState ∧
    decode .state [0b1100#8] = .error .reservedState ∧
    decode .state [0b1101#8] = .error .reservedState ∧
    decode .state [0b1110#8] = .error .reservedState ∧
    decode .state [0b1111#8] = .error .reservedState := by
  and_intros <;> rfl

/-- POLL by the CU of `CU.tick`, RAISE(motor-ready), RESET(2). -/
theorem test_decode_poll_raise_reset :
    decode .uop [0b000#8, 0b001#8] = .ok (.poll .cu .cuTick, []) ∧
    decode .uop [0b001#8, 0b0101#8] = .ok (.raise .motorReady, []) ∧
    decode .uop [0b100#8, 0b10#8] = .ok (.reset 2, []) := by
  and_intros <;> rfl

/-- RUN(1, 0x000A0000), the word little-endian (20_memory.md R73), and the byte after it left over. -/
theorem test_decode_run :
    decode .uop [0b011#8, 0b01#8, 0x00#8, 0x00#8, 0x0A#8, 0x00#8, 0x77#8] = .ok (.run 1 0x000A0000, [0x77#8]) := by
  rfl

/-- CONFIGURE(0, cfg, T) with a different byte in every word. -/
theorem test_decode_configure :
    decode .uop ([0b010#8, 0b00#8] ++ [1#8, 0#8, 0#8, 0#8] ++ [0#8, 2#8, 0#8, 0#8] ++ [0#8, 0#8, 3#8, 0#8]
      ++ [0#8, 0#8, 0#8, 4#8] ++ [5#8, 0#8, 0#8, 0#8] ++ [6#8, 0#8, 0#8, 0#8] ++ [7#8, 0#8, 0#8, 0#8]
      ++ [8#8, 0#8, 0#8, 0#8] ++ [9#8, 0#8, 0#8, 0#8])
      = .ok (.configure 0 ⟨1, 0x200, 0x30000, 0x04000000, 5, 6, 7, 8⟩ 9, []) := by
  rfl

/-- MIX(t, r, p, y), in that order. -/
theorem test_decode_mix :
    decode .uop ([0b101#8] ++ [1#8, 0#8, 0#8, 0#8] ++ [2#8, 0#8, 0#8, 0#8] ++ [3#8, 0#8, 0#8, 0#8]
      ++ [4#8, 0#8, 0#8, 0x80#8]) = .ok (.mix 1 2 3 0x80000004, []) := by
  rfl

/-- Words and operands that no row has: op 6, op 7, high bits, an instance 4, an event 16, missing operands, no bytes. -/
theorem test_decode_refuses :
    decode .uop [0b110#8] = .error .reservedOp ∧ decode .uop [0b111#8] = .error .reservedOp ∧
    decode .uop [0b1000#8] = .error .highBits ∧ decode .state [0b10000#8] = .error .highBits ∧
    decode (.evt .active) [0b100000#8] = .error .highBits ∧ decode .uop [0b100#8, 4#8] = .error .badOperand ∧
    decode .uop [0b001#8, 16#8] = .error .badOperand ∧ decode .uop [0b101#8, 1#8] = .error .truncated ∧
    decode .uop [] = .error .noBytes := by
  and_intros <;> rfl

/-- Table words placed in the reset state run: CU.NEW_DATA, MU.MOTOR_STOP, STEP.MU_BOOT, MIX. -/
theorem test_fetch_word :
    decodeTableWord 8 3 = some .cuNewData ∧ decodeTableWord 8 17 = some .muMotorStop ∧
    decodeTableWord 4 9 = some .stepMuBoot ∧ decodeTableWord 3 5 = some (.mix 0 0 0 0) := by
  and_intros <;> rfl

/-! ### Arithmetic (95_test_vectors.md section 2.1) -/

/-- AR-1 to AR-9. -/
theorem test_fxMul :
    fxMul .default 0x00018000 0x00028000 = 0x0003C000 ∧ fxMul .default 0xFFFE8000 0x00008000 = 0xFFFF4000 ∧
    fxMul .default 0x00000001 0x00008000 = 0 ∧ fxMul .default 0xFFFFFFFF 0x00008000 = 0xFFFFFFFF ∧
    fxMul .default 0xFFFFFFFD 0x00008000 = 0xFFFFFFFE ∧ fxMul .default 0x7FFFFFFF 0x00020000 = 0x7FFFFFFF ∧
    fxMul .default 0x80000000 0x00020000 = 0x80000000 ∧ fxMul .default 0x80000000 0x80000000 = 0x7FFFFFFF ∧
    fxMul .default 0x80000000 0xFFFF0000 = 0x7FFFFFFF := by
  decide

/-- AR-11 to AR-19. -/
theorem test_fxDiv :
    fxDiv .default 0x00070000 0x00020000 = 0x00038000 ∧ fxDiv .default 0x00010000 0x00030000 = 0x00005555 ∧
    fxDiv .default 0xFFFF0000 0x00030000 = 0xFFFFAAAB ∧ fxDiv .default 0x00010000 0xFFFD0000 = 0xFFFFAAAB ∧
    fxDiv .default 0x80000000 0xFFFF0000 = 0x7FFFFFFF ∧ fxDiv .default 0x00010000 0x00000001 = 0x7FFFFFFF ∧
    fxDiv .default 0x00010000 0 = 0x7FFFFFFF ∧ fxDiv .default 0xFFFF0000 0 = 0x80000000 ∧ fxDiv .default 0 0 = 0 := by
  decide

/-- AR-20 to AR-24. -/
theorem test_fxAdd_fxSub :
    fxAdd .default 0x7FFFFFFF 1 = 0x7FFFFFFF ∧ fxAdd .default 0x40000000 0x40000000 = 0x7FFFFFFF ∧ fxSub .default 0x80000000 1 = 0x80000000 ∧
    fxSub .default 0 0x80000000 = 0x7FFFFFFF ∧ floorShift .default (-1) = -1 ∧ floorShift .default 65535 = 0 ∧ floorShift .default (-65536) = -1 ∧
    floorShift .default (-65537) = -2 := by
  decide

/-- AR-25 to AR-28. -/
theorem test_clamp :
    clamp .default 0x004E247E 0xFFCE0000 0x00320000 = 0x00320000 ∧ clamp .default 0xFF740000 0xFF9C0000 0x00640000 = 0xFF9C0000 ∧
    clamp .default 0 0x00050000 0xFFFB0000 = 0xFFFB0000 ∧ clamp .default 0xFFF60000 0x00050000 0xFFFB0000 = 0x00050000 ∧
    clampDuty .default 1415 = 1415 ∧ clampDuty .default 2200 = 2000 ∧ clampDuty .default (-72) = 1000 ∧
    clampDuty .default 4294967295 = 2000 := by
  decide

/-- The same rules in a format of 16 bits with 8 fraction bits, by hand: 1.5 × 2.5, -1 ulp × 0.5, an overflow, 1 / 3, and
the upper half of a word, which is no part of the value (00_scope.md R6, R8; log entry 5). -/
theorem test_format_arguments :
    let par : Config.Params := { Config.Params.default with numW := 16, numF := 8 }
    fxMul par 0x0180 0x0280 = 0x03C0 ∧ fxMul par 0xFFFF 0x0080 = 0xFFFFFFFF ∧ fxAdd par 0x7FFF 1 = 0x7FFF ∧
    fxSub par 0xFFFF8000 1 = 0xFFFF8000 ∧ fxDiv par 0x0100 0x0300 = 0x0055 ∧ fxInt par 0x12348000 = -32768 ∧
    one par = 0x0100 := by
  decide

/-! ### Small states -/

/-- The state a meaning or a move answers, if it answers one. -/
def nextOf (o : Out) : Option State :=
  match o with
  | .next s => some s
  | .fault _ => none
  | .refused _ => none

/-- `s` with words of the SCB written. -/
def put (ws : List (Nat × Word)) (s : State) : State := ws.foldl (fun s w => memWrite w.1 w.2 s) s

/-- A pure gain with bounds, as program P1 configures (95_test_vectors.md). -/
def gain (kp lo hi : Word) : FilterInst := { FilterInst.reset with c0 := kp, omin := lo, omax := hi, state := .ready }

/-- The common context of 95_test_vectors.md section 2.5, both units in their loops, no debug phase selected. -/
def looping : State :=
  put [(44, 0)] { State.reset with
    cuState := .active
    muState := .active
    kpa := .fill 0x00040000
    fe := ⟨gain 0x00020000 0xFF380000 0x00C80000, gain 0x00020000 0xFF380000 0x00C80000,
      gain 0x00020000 0xFF380000 0x00C80000, gain 0x00010000 0 0x03200000⟩ }

/-- The odometry of CU-3. -/
def odometry : List (Nat × Word) :=
  [(33, 0x00028000), (34, 0xFFFF0000), (35, 0), (36, 0x00010000), (37, 0x00008000), (38, 0xFFFD0000), (39, 0x01900000)]

/-- The context of CU-4: the odometry is in the working set. -/
def sampling : State :=
  { looping with
    wsAtt := ⟨0x00028000, 0xFFFF0000, 0⟩, wsRate := ⟨0x00010000, 0x00008000, 0xFFFD0000⟩, wsThrust := 0x01900000 }

/-! ### The operations -/

/-- EVT-1, EVT-3, EVT-2: POLL of an empty and of a full latch. -/
theorem test_poll :
    (nextOf (exec (.poll .cu .cuCtl) State.reset)).map (·.ret) = some (.event .none) ∧
    (nextOf (exec (.poll .cu .cuCtl) { State.reset with latch := ⟨.newData, .none, .none, .none⟩ })).map
      (fun t => (t.ret, t.latch)) = some (.event .newData, ⟨.none, .none, .none, .none⟩) := by
  decide

/-- EVT-4, EVT-6, EVT-8: fan-out, an overrun's mark, and an empty route. -/
theorem test_raise :
    (nextOf (exec (.raise .motorReady) State.reset)).map (fun t => (t.latch.cuCtl, t.hostPend.motorReady))
      = some (.motorReady, true) ∧
    (nextOf (exec (.raise .outputReady) { State.reset with latch := ⟨.none, .none, .motorStop, .none⟩ })).map
      (fun t => t.ovr.muCtl) = some true ∧
    nextOf (exec (.raise .reserved13) State.reset) = some State.reset := by
  decide

/-- CFG-B, CFG-H: the coefficients, and every division by zero. -/
theorem test_configure :
    (nextOf (exec (.configure 0 ⟨0, 0x00020000, 0x00640000, 0x00140000, 0x000A0000, 0x00008000, 0xFFCE0000, 0x00320000⟩
        0x000A0000) State.reset)).map (fun t => (t.fe.q0.c0, t.fe.q0.c1, t.fe.q0.c2, t.fe.q0.ki, t.fe.q0.kaw))
      = some (0x0007B6DA, 0xFFFB2494, 0x00006DB6, 0x00001999, 0x00008000) ∧
    (nextOf (exec (.configure 3 ⟨0, 0x00020000, 0x00640000, 0xFFFB0000, 0x00010000, 0x00008000, 0xFFCE0000, 0x00320000⟩
        0x000A0000) State.reset)).map (fun t => (t.fe.q3.c0, t.fe.q3.c1, t.fe.q3.c2))
      = some (0x80000000, 0x7FFFFFFF, 0x7FFFFFFF) := by
  decide

/-- CFG-D, CFG-E, CFG-I: the two cases of a zero period, and a saturated `2 ti`. -/
theorem test_configure_corners :
    (nextOf (exec (.configure 1 ⟨0, 0x00020000, 0x00640000, 0x00140000, 0x000A0000, 0x00008000, 0xFFCE0000, 0x00320000⟩
        0) State.reset)).map (fun t => (t.fe.q1.c0, t.fe.q1.ki, t.fe.q1.kaw)) = some (0, 0, 0) ∧
    (nextOf (exec (.configure 1 ⟨0, 0x00020000, 0x00640000, 0, 0x000A0000, 0x00008000, 0xFFCE0000, 0x00320000⟩
        0) State.reset)).map (fun t => (t.fe.q1.c0, t.fe.q1.ki)) = some (0x00020000, 0) ∧
    (nextOf (exec (.configure 1 ⟨0, 0xFFFE8000, 0x4E200000, 0, 0, 0x00004000, 0xFFF60000, 0x000A0000⟩
        0x000A0000) State.reset)).map (fun t => t.fe.q1.ki) = some 0xFFFFFFE2 := by
  decide

/-- RUN-B1 and RUN-B2: the clamp, the feedback of the anti-windup, the integral. -/
theorem test_run :
    let b : FilterInst :=
      { FilterInst.reset with
        c0 := 0x0007B6DA, c1 := 0xFFFB2494, c2 := 0x00006DB6, ki := 0x00001999, kaw := 0x00008000
        omin := 0xFFCE0000, omax := 0x00320000, state := .ready }
    let b1 : FilterInst :=
      { b with
        xp := 0x000A0000, dp := 0x004D2484, ip := 0x0000FFFA, se0 := 0xFFE3DB82, se1 := 0x000A0000, state := .running }
    (nextOf (exec (.run 0 0x000A0000) { State.reset with fe := .fill b })).map (fun t => (t.fe.q0, t.ret))
      = some (b1, .word 0x00320000) ∧
    (nextOf (exec (.run 2 0x000A0000) { State.reset with fe := .fill b1 })).map (fun t => (t.fe.q2.se1, t.ret))
      = some (0xFFFBEDC1, .word 0xFFFD1AA3) := by
  decide

/-- RST-1: the five history registers, not the coefficients, not the state. -/
theorem test_reset :
    (nextOf (exec (.reset 1) { State.reset with
        fe := .fill { gain 7 1 9 with xp := 1, dp := 2, ip := 3, se0 := 4, se1 := 5, state := .running } })).map
      (fun t => t.fe.q1) = some { gain 7 1 9 with state := .running } := by
  decide

/-- MIX-2, MIX-6, MIX-11. -/
theorem test_mix :
    (nextOf (exec (.mix 0x01900000 0x00120000 0xFFF70000 0x00060000) State.reset)).map (·.ret)
      = some (.duties ⟨1415, 1367, 1421, 1397⟩) ∧
    (nextOf (exec (.mix 0x03840000 0x00640000 0x00640000 0x00640000) State.reset)).map (·.ret)
      = some (.duties ⟨2000, 1800, 1800, 1800⟩) ∧
    (nextOf (exec (.mix 0x80000000 0x80000000 0x80000000 0x80000000) State.reset)).map (·.ret)
      = some (.duties ⟨1000, 1000, 1000, 1000⟩) := by
  decide

/-! ### The controller unit (95_test_vectors.md section 2.5) -/

/-- CU-1, CU-2: a code discarded, and the end of the wait. -/
theorem test_cu_await :
    (nextOf (exec .stepCuAwait { State.reset with cuState := .await, latch := ⟨.setArmed, .none, .none, .none⟩ })).map
      (fun t => (t.latch.cuCtl, t.tmrS.en, t.cuState)) = some (.none, false, .await) ∧
    (nextOf (exec .stepCuAwait { State.reset with cuState := .await, latch := ⟨.motorReady, .none, .none, .none⟩ })).map
      (fun t => (t.latch.cuCtl, t.hostPend.controllerReady, t.cuState)) = some (.none, true, .config) := by
  decide

/-- CU-3. -/
theorem test_cu_new_data :
    (nextOf (exec .stepCuActive (put odometry { looping with latch := ⟨.newData, .none, .none, .none⟩ }))).map
      (fun t => (t.wsAtt, t.wsRate, t.wsThrust, t.latch.cuCtl, t.hostPend.debug))
      = some (⟨0x00028000, 0xFFFF0000, 0⟩, ⟨0x00010000, 0x00008000, 0xFFFD0000⟩, 0x01900000, .none, false) := by
  decide +kernel

/-- CU-12: the snapshot of the new-data phase. -/
theorem test_cu_new_data_snapshot :
    (nextOf (exec .cuNewData (put ((44, 1) :: odometry) looping))).map
      (fun t => ((List.range 8).map fun i => memRead (45 + i) t, t.hostPend.debug))
      = some ([0x00028000, 0xFFFF0000, 0, 0x00010000, 0x00008000, 0xFFFD0000, 0x01900000, 0], true) := by
  decide +kernel

/-- CU-4: the published values, the filters' history, the RAISE. -/
theorem test_cu_sample_tick :
    (nextOf (exec .stepCuActive { sampling with latch := ⟨.none, .sampleTick, .none, .none⟩, tmrS := ⟨true, true⟩ })).map
      (fun t => ((List.range 4).map fun i => memRead (40 + i) t, t.latch, t.tmrS, t.fe.q0.xp, t.fe.q0.dp, t.fe.q3.se1))
      = some ([1415, 1367, 1421, 1397], ⟨.none, .none, .outputReady, .none⟩, ⟨true, false⟩, 0x00090000, 0x00120000,
        0x01900000) := by
  decide +kernel

/-- CU-13: the snapshot of the sample-tick phase. -/
theorem test_cu_sample_tick_snapshot :
    (nextOf (exec .cuSampleTick (put [(44, 2)] sampling))).map
      (fun t => ((List.range 8).map fun i => memRead (45 + i) t, t.hostPend.debug))
      = some ([0x000A0000, 0xFFFC0000, 0, 0x00120000, 0xFFF70000, 0x00060000, 0x01900000, 1], true) := by
  decide +kernel

/-- CU-5: the baseline, the timer off, the history zero, the coefficients kept. -/
theorem test_cu_clear_armed :
    (nextOf (exec .cuClearArmed (put [(40, 1415)]
        { sampling with tmrS := ⟨true, false⟩, fe := .fill { gain 7 1 9 with xp := 1, se1 := 2 } }))).map
      (fun t => ((List.range 4).map fun i => memRead (40 + i) t, t.tmrS.en, t.fe.q2, t.latch.muCtl))
      = some ([1000, 1000, 1000, 1000], false, gain 7 1 9, .outputReady) := by
  decide +kernel

/-- CU-7, CU-8, CU-9, CU-11. -/
theorem test_cu_stop_and_arm :
    (nextOf (exec .cuControllerStop looping)).map (fun t => (t.latch.muCtl, t.cuState)) = some (.motorStop, .active) ∧
    (nextOf (exec .cuReserved13 looping)).map (fun t => (t.latch.muCtl, t.cuState)) = some (.motorStop, .active) ∧
    (nextOf (exec .cuOutputReady looping)).map (fun t => t.latch.muCtl) = some .motorStop ∧
    (nextOf (exec .cuSetArmed looping)).map (fun t => t.tmrS.en) = some true := by
  decide +kernel

/-- CU-10, CU-14: the shutdown leaves the tick channel unpolled; nothing to do changes nothing. -/
theorem test_cu_shutdown_and_idle :
    (nextOf (exec .stepCuActive
        { looping with latch := ⟨.motorReady, .sampleTick, .none, .none⟩, tmrS := ⟨true, false⟩ })).map
      (fun t => (t.tmrS.en, t.hostPend.controllerReady, t.cuState, t.latch.cuTick))
      = some (false, true, .halt, .sampleTick) ∧
    nextOf (exec .stepCuActive looping) = some looping := by
  decide +kernel

/-- CU-15, 70_reset_and_hazards.md R354: the stale tick overwrites the baseline, and the second RAISE is an overrun. -/
theorem test_cu_stale_tick :
    (nextOf (exec .stepCuActive { sampling with latch := ⟨.clearArmed, .sampleTick, .none, .none⟩ })).map
      (fun t => ((List.range 4).map fun i => memRead (40 + i) t, t.ovr.muCtl))
      = some ([1415, 1367, 1421, 1397], true) := by
  decide +kernel

/-- P1, line 12: the configuration step. -/
theorem test_cu_config :
    (nextOf (exec .stepCuConfig (put
        ((0, 0x000A0000) :: (1, 0x00040000) :: (2, 0x00020000) :: (7, 0xFF380000) :: (8, 0x00C80000)
          :: (25, 0) :: (26, 0x00010000) :: (31, 0) :: (32, 0x03200000)
          :: [3, 4, 5, 6, 9, 10, 11, 12, 13, 14, 15, 16, 17, 18, 19, 20, 21, 22, 23, 24, 27, 28, 29, 30].map fun n => (n, 0))
        { State.reset with cuState := .config }))).map
      (fun t => (t.periodL, t.kpa.t0, t.fe.q0, t.fe.q3, t.cuState, t.tmrS.en))
      = some (0x000A0000, 0x00040000, gain 0x00020000 0xFF380000 0x00C80000, gain 0x00010000 0 0x03200000, .active,
        false) := by
  decide +kernel

/-! ### The motor unit (95_test_vectors.md section 2.6) -/

/-- MU-1, MU-2. -/
theorem test_mu_boot :
    (nextOf (exec .stepMuBoot { State.reset with muState := .boot })).map
      (fun t => (t.latch.cuCtl, t.hostPend.motorReady, t.tmrP, t.duty, t.muState))
      = some (.motorReady, true, ⟨true, 0, false⟩, ⟨1000, 1000, 1000, 1000⟩, .active) ∧
    (nextOf (exec .stepMuBoot
        (put [(40, 900), (41, 1500), (42, 2500), (43, 0x80000000)] { State.reset with muState := .boot }))).map
      (fun t => t.duty) = some ⟨1000, 1500, 2000, 2000⟩ := by
  decide +kernel

/-- MU-3, MU-4, MU-5: the rising edges and the compare. -/
theorem test_mu_pins :
    (nextOf (exec .stepMuActive
        { looping with latch := ⟨.none, .none, .none, .pwmTick⟩, tmrP := ⟨true, 3, true⟩ })).map
      (fun t => (t.latch.muTick, t.tmrP.flag, t.pin)) = some (.none, false, ⟨true, true, true, true⟩) ∧
    (nextOf (exec .stepMuActive { looping with pin := .fill true, tmrP := ⟨true, 999, false⟩ })).map (fun t => t.pin)
      = some ⟨true, true, true, true⟩ ∧
    (nextOf (exec .stepMuActive { looping with pin := .fill true, tmrP := ⟨true, 1000, false⟩ })).map (fun t => t.pin)
      = some ⟨false, false, false, false⟩ := by
  decide +kernel

/-- MU-6, MU-7. -/
theorem test_mu_duty :
    (nextOf (exec .muOutputReady (put [(40, 1415), (41, 1367), (42, 2200), (43, 900)] looping))).map (fun t => t.duty)
      = some ⟨1415, 1367, 2000, 1000⟩ ∧
    (nextOf (exec .stepMuActive
        { looping with pin := .fill true, duty := ⟨1415, 1367, 2000, 1000⟩, tmrP := ⟨true, 1400, false⟩ })).map
      (fun t => t.pin) = some ⟨true, false, true, false⟩ := by
  decide +kernel

/-- MU-8, MU-9: the exit sequence, the tick channel left unpolled. -/
theorem test_mu_exit :
    (nextOf (exec .stepMuActive
        { looping with latch := ⟨.none, .none, .motorStop, .pwmTick⟩, pin := ⟨true, false, true, false⟩ })).map
      (fun t => (t.pin, t.latch, t.hostPend.motorReady, t.muState))
      = some (⟨false, false, false, false⟩, ⟨.motorReady, .none, .none, .pwmTick⟩, true, .halt) ∧
    (nextOf (exec .muSampleTick looping)).map (fun t => (t.latch.cuCtl, t.muState)) = some (.motorReady, .halt) := by
  decide +kernel

/-! ### The host and the timers (95_test_vectors.md section 2.7) -/

/-- HT-1, HT-2, HT-3. -/
theorem test_pwm_timer :
    (nextOf (doMove (.timerPAdvance 4) { State.reset with tmrP := ⟨true, 2499, false⟩ })).map
      (fun t => (t.tmrP, t.latch.muTick)) = some (⟨true, 3, true⟩, .pwmTick) ∧
    (nextOf (doMove (.timerPAdvance 996) { State.reset with tmrP := ⟨true, 3, false⟩ })).map
      (fun t => (t.tmrP, t.latch.muTick)) = some (⟨true, 999, false⟩, .none) ∧
    nextOf (doMove (.timerPAdvance 1) State.reset) = none := by
  decide

/-- HT-4, HT-5, HT-6. -/
theorem test_sample_timer :
    nextOf (doMove .timerSFire State.reset) = none ∧
    (nextOf (doMove .timerSFire { State.reset with tmrS := ⟨true, false⟩ })).map (fun t => (t.tmrS.flag, t.latch.cuTick))
      = some (true, .sampleTick) ∧
    (nextOf (doMove .timerSFire
        { State.reset with tmrS := ⟨true, false⟩, latch := ⟨.none, .sampleTick, .none, .none⟩ })).map
      (fun t => (t.latch.cuTick, t.ovr.cuTick)) = some (.sampleTick, true) := by
  decide

/-- HT-7, HT-8, EVT-10. -/
theorem test_host_start_inject :
    (nextOf (doMove (.hostStart .cu) State.reset)).map (fun t => t.cuState) = some .await ∧
    (nextOf (doMove (.hostStart .cu) { State.reset with cuState := .halt })).map (fun t => t.cuState) = some .halt ∧
    (nextOf (doMove (.hostInject .muCtl .newData) State.reset)).map (fun t => t.latch.muCtl) = some .newData := by
  decide

/-- HT-10, HT-11, and word 55, which does not exist. -/
theorem test_host_memory :
    (nextOf (doMove (.hostRead 40) (put [(40, 1415)] State.reset))).map (fun t => t.ret) = some (.word 0x00000587) ∧
    (List.range 4).map (fun i => hostByte i (put [(0, 0x000A0000)] State.reset))
      = [some 0x00, some 0x00, some 0x0A, some 0x00] ∧
    nextOf (doMove (.hostRead 55) State.reset) = none := by
  decide +kernel

/-! ### Witnesses: states and operands that meet the hypotheses of each statement of Obligations.lean -/

theorem next_of_isSome {o : Out} (h : (nextOf o).isSome = true) : ∃ t, o = .next t := by
  cases o with
  | next t => exact ⟨t, rfl⟩
  | fault r => cases h
  | refused r => cases h

/-- A state in which every condition of Safety.lean holds: both units in their loops, the CU between the writes of a
publication, an event on each control-plane channel, the next line one action of the CU. -/
def midway : State :=
  { looping with
    latch := ⟨.newData, .none, .outputReady, .none⟩
    cuPend := writeActs (outputWrites ⟨1000, 2000, 1500, 1001⟩) ++ [.raise .outputReady]
    script := [.move (.unit .cu .action), .move (.unit .mu .whole)] }

/-- Both units halted, with events that nobody polls. -/
def halted : State :=
  { looping with
    cuState := .halt
    muState := .halt
    latch := ⟨.setArmed, .sampleTick, .motorStop, .pwmTick⟩
    ovr := ⟨false, true, false, false⟩
    script := [.move (.hostWrite 33 5)] }

/-- A machine whose SCB is at byte address 8. -/
def moved : State := State.resetWith { Config.Params.default with scbBase := 8 }

theorem midway_steps : ∃ t, step midway = .next t := next_of_isSome (by decide +kernel)

theorem halted_steps : ∃ t, step halted = .next t := next_of_isSome (by decide +kernel)

theorem witness_DecodeOfEncode : ∃ i : Instr, i.wf = true ∧ formatOf i = .uop := ⟨.poll .mu .muTick, by decide⟩

theorem witness_EncodeOfDecode : ∃ f bs i rest, decode f bs = .ok (i, rest) ∧ rest ≠ [] :=
  ⟨.uop, [0b100#8, 3#8, 9#8], .reset 3, [9#8], rfl, by decide⟩

theorem witness_ResetLeavesTable : ∃ s t, doMove .hostReset s = .next t := ⟨halted, _, rfl⟩

theorem witness_ResetMeetsInvariants :
    Config.Params.default.ok = true ∧ Config.Params.default.fmtOk = true ∧ Config.Params.ok ⟨32, 16, 1, 0, 0, 0, 1, 4, false⟩ = true ∧
    Config.Params.ok ⟨32, 16, 1, 0, 0xFFFFFFFE, 0xFFFFFFFE, 0xFFFFFFFF, 0, true⟩ = true := by
  decide

theorem witness_HostWordAccess : midway.memOk = true ∧ 0 < 55 ∧ 54 < 55 := by
  decide +kernel

theorem witness_HostByteAccess :
    moved.par.scbBase % 4 = 0 ∧ hostByte 7 moved = none ∧ hostByte 228 moved = none ∧
    hostByte (8 + 4 * 43 + 3) moved = some 0 ∧ (nextOf (doMove (.hostReadAt (8 + 4 * 40) 4) moved)).isSome = true ∧
    nextOf (doMove (.hostReadAt 8 2) moved) = none ∧ nextOf (doMove (.hostReadAt 9 4) moved) = none ∧
    nextOf (doMove (.hostReadAt 4 4) moved) = none ∧ nextOf (doMove (.hostReadAt 228 4) moved) = none := by
  decide +kernel

theorem witness_MemoryStaysCanonical : ∃ s t, s.memOk = true ∧ step s = .next t :=
  ⟨midway, midway_steps.elim fun t h => ⟨t, by decide +kernel, h⟩⟩

theorem witness_RangesStay : ∃ s t, s.rangesOk = true ∧ step s = .next t :=
  ⟨midway, midway_steps.elim fun t h => ⟨t, by decide +kernel, h⟩⟩

theorem witness_ActionsStayOwned : ∃ s t, s.actsOwned = true ∧ s.cuPend ≠ [] ∧ step s = .next t :=
  ⟨midway, midway_steps.elim fun t h => ⟨t, by decide +kernel, by decide +kernel, h⟩⟩

theorem witness_ConfiguredBeforeActive :
    ∃ s t, s.actsOwned = true ∧ s.configOk = true ∧ s.cuState = .active ∧ step s = .next t :=
  ⟨midway, midway_steps.elim fun t h => ⟨t, by decide +kernel, by decide +kernel, rfl, h⟩⟩

theorem witness_HaltedMotorsStayLow :
    ∃ s t, s.actsOwned = true ∧ s.haltOk = true ∧ s.muState = .halt ∧ step s = .next t :=
  ⟨halted, halted_steps.elim fun t h => ⟨t, by decide +kernel, by decide +kernel, rfl, h⟩⟩

theorem witness_HaltIsFinal :
    halted.actsOwned = true ∧ halted.haltOk = true ∧ Move.timerSFire ≠ .hostReset ∧
    (nextOf (doMove (.unit .cu .whole) halted)).isSome = true ∧ (nextOf (doMove (.unit .mu .action) halted)).isSome = true ∧
    halted.cuState = .halt ∧ halted.muState = .halt ∧ halted.latch.cuCtl ≠ .none ∧ halted.latch.muTick ≠ .none := by
  decide +kernel

theorem witness_OutputsStayInRange :
    midway.par.ok = true ∧ midway.memOk = true ∧ midway.actsOwned = true ∧ midway.outputsOk = true ∧
    keepsOutputs midway (.unit .cu .action) = true ∧ (nextOf (doMove (.unit .cu .action) midway)).isSome = true ∧
    keepsOutputs midway (.hostWrite 40 1000) = true ∧ keepsOutputs midway (.hostWrite 43 2000) = true ∧
    keepsOutputs midway (.hostWrite 39 0) = true ∧ keepsOutputs midway (.hostWrite 44 0) = true ∧
    keepsOutputs midway (.hostWrite 40 999) = false ∧ keepsOutputs midway (.hostWriteAt 172 4 2001) = false ∧
    (nextOf (doMove (.hostWrite 43 2000) midway)).isSome = true := by
  decide +kernel

theorem witness_OverrunMarkSticky :
    Line.move (.hostAck .debug) ≠ .move .hostReset ∧
    (nextOf (runLine (.move (.hostAck .debug)) halted)).isSome = true ∧ halted.ovr.get .cuTick = true := by
  decide +kernel

theorem witness_OnlyOwnersWrite :
    midway.actsOwned = true ∧ midway.memOk = true ∧ (nextOf (doMove (.unit .cu .action) midway)).isSome = true ∧
    (nextOf (doMove (.unit .mu .whole) midway)).isSome = true ∧ Move.hostStart .cu ≠ .hostReset ∧
    (∀ u g, Move.hostStart .cu ≠ .unit u g) ∧ (nextOf (doMove (.hostStart .cu) State.reset)).isSome = true := by
  refine ⟨by decide +kernel, by decide +kernel, by decide +kernel, by decide +kernel, by decide, ?_, by decide⟩
  intro u g h
  cases h

/-- The CU at the last of the configuration step's reads. -/
def lastRead : State := { looping with cuState := .config, cuPend := [.readCfg (List.replicate 31 0)] }

theorem witness_ConfigurationFrozen :
    midway.memOk = true ∧ midway.actsOwned = true ∧ midway.configFrozen = true ∧ midway.configRead = true ∧
    halted.configFrozen = true ∧ State.reset.configRead = true ∧ State.reset.configFrozen = false ∧
    ({ looping with cuState := .config } : State).configRead = false ∧ 0 < 33 ∧ 32 < 33 ∧
    (nextOf (doMove (.hostWrite 0 7) midway)).isSome = true ∧ (nextOf (doMove (.hostWrite 32 7) midway)).isSome = true ∧
    (nextOf (doMove (.unit .cu .action) midway)).isSome = true ∧
    (nextOf (doMove (.unit .mu .whole) midway)).isSome = true ∧
    (nextOf (runLine (.move (.unit .cu .action)) midway)).isSome = true ∧
    (nextOf (runLine (.move (.hostWrite 0 7)) halted)).isSome = true := by
  decide +kernel

theorem witness_ConfigurationFrozen_step :
    looping.cuPend = [] ∧ looping.muPend.all (fun a => !readsConfig a) = true ∧
    (nextOf (exec .stepCuConfig { looping with cuState := .config })).isSome = true ∧
    lastRead.cuState = .config ∧ lastRead.cuPend = [.readCfg (List.replicate 31 0)] ∧
    (List.replicate 31 (0 : Word)).length = 31 ∧ lastRead.muPend.all (fun a => !readsConfig a) = true ∧
    lastRead.configFrozen = false ∧ (action .cu lastRead).configFrozen = true := by
  decide +kernel

theorem witness_StepRunsDecoded :
    (∃ s : State, s.script = [.move (.unit .mu .whole)] ∧ pend .mu s = [] ∧
      decode .state [stateWord .mu s] = .ok (.stepMuActive, [])) ∧
    (∃ s : State, s.script = [.move (.unit .cu .handler)] ∧ pend .cu s = [.dispatch .setArmed] ∧
      decode (.evt (cuTable s)) [evtWord .cu .setArmed] = .ok (.cuSetArmed, [])) ∧
    (∃ s : State, s.script = [.op [0b100#8, 2#8]] ∧ decode .uop [0b100#8, 2#8] = .ok (.reset 2, [])) ∧
    ∃ s : State, s.script = [.move .hostReset] :=
  ⟨⟨{ looping with script := [.move (.unit .mu .whole)] }, rfl, rfl, rfl⟩,
    ⟨{ looping with cuPend := [.dispatch .setArmed], script := [.move (.unit .cu .handler)] }, rfl, rfl, rfl⟩,
    ⟨{ looping with script := [.op [0b100#8, 2#8]] }, rfl, rfl⟩, ⟨{ looping with script := [.move .hostReset] }, rfl⟩⟩

theorem witness_FetchWordRuns :
    decodeTableWord 8 31 = some .muReserved15 ∧ decodeTableWord 8 0 = some .cuNone ∧ decodeTableWord 4 11 = some .stepMuHalt ∧
    decodeTableWord 3 0 = some (.poll .cu .cuCtl) ∧ (nextOf (step (State.reset.withFetchWord 8 7))).isSome = true := by
  decide +kernel

theorem witness_CuActionsMakeStep :
    looping.cuPend = [] ∧ (nextOf (doMove (.unit .cu .whole) { looping with latch := ⟨.newData, .sampleTick, .none, .none⟩ })).isSome
      = true := by
  decide +kernel

theorem witness_MuActionsMakeStep :
    looping.muPend = [] ∧ (nextOf (doMove (.unit .mu .whole) { looping with latch := ⟨.none, .none, .outputReady, .pwmTick⟩ })).isSome
      = true := by
  decide +kernel

theorem witness_StopCascade :
    looping.cuState = .active ∧ looping.muState = .active ∧ looping.cuPend = [] ∧ looping.muPend = [] ∧
    Event.controllerStop ∈ [Event.motorStop, .controllerStop, .controllerReady, .outputReady, .debug, .pwmTick, .reserved12,
      .reserved13, .reserved14, .reserved15] ∧
    (∃ s : State, s.cuState = .active ∧ s.latch = ⟨.controllerStop, .none, .none, .none⟩) ∧
    Event.motorStop ∉ [Event.none, .outputReady, .pwmTick] ∧ Event.sampleTick ∉ [Event.none, .outputReady, .pwmTick] ∧
    ∃ s : State, s.muState = .active ∧ s.latch = ⟨.none, .none, .motorStop, .none⟩ :=
  ⟨rfl, rfl, rfl, rfl, by decide, ⟨{ looping with latch := ⟨.controllerStop, .none, .none, .none⟩ }, rfl, rfl⟩, by decide,
    by decide, ⟨{ looping with latch := ⟨.none, .none, .motorStop, .none⟩ }, rfl, rfl⟩⟩

theorem witness_PollReadsAndClears :
    Channel.muTick.owner = .mu ∧ Channel.cuCtl.owner = .cu ∧ Channel.muTick.owner ≠ .cu ∧ looping.latch.get .muTick = .none := by
  decide +kernel

theorem witness_RaiseRoutes :
    routeChannel .motorStop = some .muCtl ∧ routeChannel .motorStop ≠ some .cuCtl ∧ looping.latch.get .muCtl = .none ∧
    halted.latch.get .muCtl ≠ .none := by
  decide +kernel

theorem witness_RaiseThenPoll : routeChannel .newData = some .cuCtl ∧ looping.latch.get .cuCtl = .none := by
  decide +kernel

/-- A format of 16 bits with 8 fraction bits. -/
def short : Config.Params := { Config.Params.default with numW := 16, numF := 8 }

theorem witness_SumsSaturate :
    Config.Params.default.fmtOk = true ∧ short.fmtOk = true ∧ ({ short with numW := 2, numF := 0 } : Config.Params).fmtOk = true ∧
    ({ short with numW := 33 } : Config.Params).fmtOk = false ∧ ({ short with numF := 15 } : Config.Params).fmtOk = false := by
  decide

theorem witness_ProductFloors :
    fxInt .default 0x80000000 * fxInt .default 0x00010000 = -140737488355328 ∧
    fxInt .default 0x80000000 * fxInt .default 0xFFFF0000 = 140737488355328 ∧
    fxInt .default 0x80000000 * fxInt .default 0x00010001 < -140737488355328 ∧
    fxMul .default 0x80000000 0x00010000 = 0x80000000 ∧ fxMul .default 0x80000000 0xFFFF0000 = 0x7FFFFFFF ∧
    fxMul .default 0x80000000 0x00010001 = 0x80000000 := by
  decide

theorem witness_QuotientTruncates :
    fxInt .default 0x00030000 ≠ 0 ∧
    decide (fxInt .default 0xFFFF0000 < 0) = decide (fxInt .default 0xFFFD0000 < 0) ∧
    decide (fxInt .default 0xFFFF0000 < 0) ≠ decide (fxInt .default 0x00030000 < 0) ∧
    decide (fxInt .default 0 < 0) ≠ decide (fxInt .default 0xFFFD0000 < 0) ∧ fxDiv .default 0 0xFFFD0000 = 0 ∧
    fxInt short 0xABCD0000 = 0 := by
  decide

theorem witness_DutyClamps :
    Config.Params.default.ok = true ∧ clampDuty .default 999 = 1000 ∧ clampDuty .default 1000 = 1000 ∧
    clampDuty .default 2000 = 2000 ∧ clampDuty .default 2001 = 2000 := by
  decide

theorem witness_ZeroTdIsPureGain : ∃ cfg : PidCfg, fxInt .default cfg.td = 0 ∧ cfg.kpr ≠ 0 ∧ cfg.filter ≠ 0 :=
  ⟨⟨0, 0x00020000, 0, 0, 0x000A0000, 0, 0, 0⟩, by decide⟩

theorem witness_ZeroTiHasNoIntegral : ∃ cfg : PidCfg, fxInt .default cfg.ti = 0 ∧ cfg.kaw ≠ 0 :=
  ⟨⟨0, 0x00020000, 0, 0, 0, 0x00008000, 0, 0⟩, by decide⟩

theorem witness_RunStepsRecurrence : ∀ k, (looping.fe.get k).state ≠ .unconfigured := by
  decide +kernel

theorem witness_RunStaysInBounds :
    ∀ k, (looping.fe.get k).state ≠ .unconfigured ∧ fxInt looping.par (looping.fe.get k).omin ≤ fxInt looping.par (looping.fe.get k).omax := by
  decide +kernel

theorem witness_ResetZeroesHistory : ∀ k, (looping.fe.get k).state ≠ .unconfigured := by
  decide +kernel

theorem witness_UnconfiguredIsRefused : ∀ k, (State.reset.fe.get k).state = .unconfigured := by
  decide

theorem witness_MixAddsLanes : looping.par.ok = true ∧ moved.par.ok = true := by
  decide +kernel

theorem witness_CuIdleChangesNothing : looping.latch.cuCtl = .none ∧ looping.latch.cuTick = .none := by
  decide +kernel

theorem witness_AwaitDiscards :
    Instr.awaitReserved15 ∈ [Instr.awaitNone, .awaitMotorStop, .awaitControllerStop, .awaitNewData, .awaitControllerReady,
      .awaitOutputReady, .awaitSetArmed, .awaitClearArmed, .awaitDebug, .awaitSampleTick, .awaitPwmTick, .awaitReserved12,
      .awaitReserved13, .awaitReserved14, .awaitReserved15] := by
  decide

theorem witness_AwaitEndsOnMotorReady :
    (∃ s : State, s.cuState = .await ∧ s.latch.cuCtl = .motorReady) ∧
    ∃ s : State, s.cuState = .await ∧ s.latch.cuCtl ≠ .motorReady :=
  ⟨⟨{ State.reset with cuState := .await, latch := ⟨.motorReady, .none, .none, .none⟩ }, rfl, rfl⟩,
    ⟨{ State.reset with cuState := .await }, rfl, by decide⟩⟩

theorem witness_CuStopsRaiseMotorStop :
    Instr.cuReserved15 ∈ [Instr.cuControllerStop, .cuMotorStop, .cuControllerReady, .cuOutputReady, .cuDebug, .cuPwmTick,
      .cuReserved12, .cuReserved13, .cuReserved14, .cuReserved15] ∧ looping.latch.muCtl = .none := by
  decide +kernel

theorem witness_NewDataCopiesOdometry :
    looping.memOk = true ∧ (memRead 44 looping).getLsbD 0 = false ∧ (put [(44, 1)] looping).memOk = true ∧
    (memRead 44 (put [(44, 1)] looping)).getLsbD 0 = true := by
  decide +kernel

theorem witness_SnapshotHoldsPhase :
    (put [(44, 3)] looping).memOk = true ∧ (memRead 44 (put [(44, 3)] looping)).getLsbD 0 = true ∧
    (memRead 44 (put [(44, 3)] looping)).getLsbD 1 = true ∧
    (nextOf (exec .cuNewData (put [(44, 3)] looping))).isSome = true ∧
    (nextOf (exec .cuSampleTick (put [(44, 3)] looping))).isSome = true := by
  decide +kernel

theorem witness_ClearArmedPublishesBaseline : looping.memOk = true ∧ looping.latch.muCtl = .none := by
  decide +kernel

theorem witness_SampleTickPublishes :
    sampling.memOk = true ∧ (memRead 44 sampling).getLsbD 1 = false ∧ (put [(44, 2)] sampling).memOk = true ∧
    (memRead 44 (put [(44, 2)] sampling)).getLsbD 1 = true := by
  decide +kernel

theorem witness_CuActiveIterates :
    ((nextOf (exec (cuActiveRow .none) looping)).map fun t => t.cuState) = some .active ∧
    ((nextOf (exec (cuActiveRow .motorReady) looping)).map fun t => t.cuState) = some .halt := by
  decide +kernel

theorem witness_MuActiveIterates :
    ((nextOf (exec (muRow .pwmTick) looping)).map fun t => t.muState) = some .active ∧
    ((nextOf (exec (muRow .motorStop) looping)).map fun t => t.muState) = some .halt := by
  decide +kernel

theorem witness_MuExitsOnStop :
    Instr.muReserved15 ∈ [Instr.muMotorStop, .muControllerStop, .muNewData, .muControllerReady, .muMotorReady, .muSetArmed,
      .muClearArmed, .muDebug, .muSampleTick, .muReserved12, .muReserved13, .muReserved14, .muReserved15] ∧
    looping.latch.cuCtl = .none := by
  decide +kernel

theorem witness_HostMovesAct :
    Event.controllerStop ∈ [Event.newData, .setArmed, .clearArmed, .controllerStop] ∧
    Event.motorStop ∉ [Event.newData, .setArmed, .clearArmed, .controllerStop] ∧ eventNamed .motorStop = true ∧
    eventNamed .pwmTick = true ∧ eventNamed .none = false ∧ eventNamed .reserved12 = false ∧
    looping.par.mayInject = true ∧ ({ moved with par := ⟨32, 16, 1, 0, 0, 0, 1, 0, false⟩ } : State).par.mayInject = false ∧ Event.reserved15 ≠ .none ∧
    looping.latch.get .muCtl = .none ∧ halted.latch.get .muCtl ≠ .none := by
  decide +kernel

theorem witness_TimersFire :
    ({ looping with tmrS := ⟨true, false⟩ } : State).tmrS.en = true ∧ looping.tmrS.en = false ∧ looping.tmrP.run = false ∧
    1 ≤ 2499 ∧ 2499 < looping.par.pwmPeriod.toNat ∧ looping.par.pwmPeriod.toNat ≤ 2500 ∧ (2499 : Word).toNat < looping.par.pwmPeriod.toNat ∧
    ((nextOf (doMove (.timerPAdvance 2499) { looping with tmrP := ⟨true, 0, false⟩ })).map fun t => t.tmrP)
      = some ⟨true, 2499, false⟩ ∧
    ((nextOf (doMove (.timerPAdvance 2499) { looping with tmrP := ⟨true, 1, false⟩ })).map fun t => t.tmrP)
      = some ⟨true, 0, true⟩ ∧
    ((nextOf (doMove (.timerPAdvance 1) { looping with tmrP := ⟨true, 2499, false⟩ })).map fun t => t.tmrP)
      = some ⟨true, 0, true⟩ := by
  decide +kernel

end Sys2Proof.Tests
end

section
/-!
POLL taken alone (41_event_channel.md R142): its two equations, what it does to an empty latch, and O24.
-/

namespace Sys2Proof.Machine

/-- A value that a channel holds already changes nothing. -/
theorem PerChannel.set_eq_self {α : Type} {p : PerChannel α} {ch : Channel} {v : α} (h : p.get ch = v) :
    p.set ch v = p := by
  subst h
  cases ch <;> rfl

/-- The state after the owner's POLL of `ch`: its latch is empty and the code it held is returned. -/
def State.polled (s : State) (ch : Channel) : State :=
  { s with latch := s.latch.set ch .none, ret := .event (s.latch.get ch) }

theorem exec_poll_of_owner {u : UnitId} {ch : Channel} (h : ch.owner = u) (s : State) :
    exec (.poll u ch) s = .next (s.polled ch) :=
  if_pos h

theorem exec_poll_of_not_owner {u : UnitId} {ch : Channel} (h : ch.owner ≠ u) (s : State) :
    exec (.poll u ch) s = .refused .notOwner :=
  if_neg h

/-- On an empty latch POLL writes only what it returns. -/
theorem State.polled_of_empty {s : State} {ch : Channel} (h : s.latch.get ch = .none) :
    s.polled ch = { s with ret := .event .none } := by
  simp only [State.polled, PerChannel.set_eq_self h, h]

/-- POLL empties the latch, so a second POLL changes only the returned value, to `none`. -/
theorem State.polled_polled (s : State) (ch : Channel) :
    (s.polled ch).polled ch = { s.polled ch with ret := .event .none } :=
  State.polled_of_empty (by simp [State.polled])

/-- Settles O24: the owner's POLL ends in `State.polled`, whose latch is empty, so that a second one finds nothing. -/
theorem pollReadsAndClears : Obligations.PollReadsAndClears := by
  intro s u ch
  refine ⟨fun own => ⟨exec_poll_of_owner own s, ?second, fun empty => ?onEmpty⟩,
    fun foreign => exec_poll_of_not_owner foreign s⟩
  case second => exact (exec_poll_of_owner own (s.polled ch)).trans (congrArg _ (s.polled_polled ch))
  case onEmpty => exact (exec_poll_of_owner own s).trans (congrArg _ (State.polled_of_empty empty))

end Sys2Proof.Machine
end

section
/-!
CONFIGURE taken alone (42_filter_engine.md R163): the state it leaves, the cases `td = 0` and `ti = 0` of the
coefficients, and O31 and O32.
-/

namespace Sys2Proof.Machine

/-- The state after CONFIGURE of instance `k`. -/
def State.filterConfigured (s : State) (k : Fin 4) (cfg : PidCfg) (T : Word) : State :=
  { s with fe := s.fe.set k (feConfigure s.par cfg T) }

theorem exec_configure (k : Fin 4) (cfg : PidCfg) (T : Word) (s : State) :
    exec (.configure k cfg T) s = .next (s.filterConfigured k cfg T) := rfl

/-- Outside the filter instances CONFIGURE changes nothing. -/
theorem State.filterConfigured_frame (s : State) (k : Fin 4) (cfg : PidCfg) (T : Word) :
    s.filterConfigured k cfg T = { s with fe := (s.filterConfigured k cfg T).fe } := rfl

@[simp] theorem State.filterConfigured_get_same (s : State) (k : Fin 4) (cfg : PidCfg) (T : Word) :
    (s.filterConfigured k cfg T).fe.get k = feConfigure s.par cfg T := by
  simp [State.filterConfigured]

theorem State.filterConfigured_get_of_ne {j k : Fin 4} (h : j ≠ k) (s : State) (cfg : PidCfg) (T : Word) :
    (s.filterConfigured k cfg T).fe.get j = s.fe.get j := by
  simp [State.filterConfigured, h]

/-- The test of `td` comes first, so no other operand matters (42_filter_engine.md R164). -/
theorem derivCoeffs_of_td_zero {par : Config.Params} {cfg : PidCfg} (h : fxInt par cfg.td = 0) (T : Word) :
    derivCoeffs par cfg T = ⟨cfg.kpr, 0, 0⟩ :=
  if_pos h

theorem integralGain_filter (par : Config.Params) (cfg : PidCfg) (filter' T : Word) :
    integralGain par { cfg with filter := filter' } T = integralGain par cfg T := rfl

theorem antiWindupGain_filter (par : Config.Params) (cfg : PidCfg) (filter' T : Word) :
    antiWindupGain par { cfg with filter := filter' } T = antiWindupGain par cfg T := rfl

/-- The filter coefficient enters CONFIGURE only through the derivative path, which `td = 0` makes a pure gain. -/
theorem feConfigure_filter_of_td_zero {par : Config.Params} {cfg : PidCfg} (h : fxInt par cfg.td = 0)
    (filter' T : Word) : feConfigure par { cfg with filter := filter' } T = feConfigure par cfg T := by
  have sameDeriv : derivCoeffs par { cfg with filter := filter' } T = derivCoeffs par cfg T :=
    (derivCoeffs_of_td_zero (cfg := { cfg with filter := filter' }) h T).trans (derivCoeffs_of_td_zero h T).symm
  simp only [feConfigure, sameDeriv, integralGain_filter, antiWindupGain_filter]

theorem noIntegral_of_ti_zero {par : Config.Params} {cfg : PidCfg} (h : fxInt par cfg.ti = 0) (T : Word) :
    noIntegral par cfg T = true := by
  simp [noIntegral, h]

theorem integralGain_of_noIntegral {par : Config.Params} {cfg : PidCfg} {T : Word} (h : noIntegral par cfg T = true) :
    integralGain par cfg T = 0 :=
  if_pos h

theorem antiWindupGain_of_noIntegral {par : Config.Params} {cfg : PidCfg} {T : Word}
    (h : noIntegral par cfg T = true) : antiWindupGain par cfg T = 0 :=
  if_pos h

/-- Settles O31: with `td = 0` the coefficients are `derivCoeffs_of_td_zero`'s, and then no field of the instance reads
the filter coefficient. -/
theorem zeroTdIsPureGain : Obligations.ZeroTdIsPureGain := by
  intro s k cfg T filter' td
  have coeffs := derivCoeffs_of_td_zero td T
  refine ⟨s.filterConfigured k cfg T, exec_configure k cfg T s, ?c0, ?c1, ?c2, ?anyFilter,
    s.filterConfigured_frame k cfg T, fun _ ne => State.filterConfigured_get_of_ne ne s cfg T⟩
  case anyFilter => simp only [exec_configure, State.filterConfigured, feConfigure_filter_of_td_zero td]
  all_goals simp [feConfigure, coeffs]

/-- Settles O32: `ti = 0` alone makes `noIntegral` hold, and both gains are zero under it. -/
theorem zeroTiHasNoIntegral : Obligations.ZeroTiHasNoIntegral := by
  intro s k cfg T ti
  have noInt := noIntegral_of_ti_zero ti T
  refine ⟨s.filterConfigured k cfg T, exec_configure k cfg T s, ?ki, ?kaw, s.filterConfigured_frame k cfg T,
    fun _ ne => State.filterConfigured_get_of_ne ne s cfg T⟩
  case ki => simp [feConfigure, integralGain_of_noIntegral noInt]
  case kaw => simp [feConfigure, antiWindupGain_of_noIntegral noInt]

end Sys2Proof.Machine
end

section
/-!
The controller unit (44_controller_unit.md): a poll of an empty latch, a code set on one, the equations of the CU's steps,
and O40, O43, O44, O47 and O51.
-/

namespace Sys2Proof.Machine

/-- There is nothing to clear, so the state is the same. -/
theorem pollChannel_of_empty {s : State} {ch : Channel} (h : s.latch.get ch = .none) : pollChannel ch s = (.none, s) := by
  simp only [pollChannel, PerChannel.set_eq_self h, h]

/-- No overrun: the mark stays as it was, and no free value is drawn (41_event_channel.md R147). -/
theorem latchSet_of_empty {s : State} {ch : Channel} (h : s.latch.get ch = .none) (e : Event) :
    latchSet ch e s = { s with latch := s.latch.set ch e } := by
  have sameMark : s.ovr.set ch (ovrAfter .none (s.ovr.get ch)) = s.ovr := PerChannel.set_eq_self (by simp [ovrAfter])
  simp only [latchSet, h, latchAfter_empty, sameMark, if_true]

theorem exec_raise_motorStop (s : State) : exec (.raise .motorStop) s = .next (latchSet .muCtl .motorStop s) := rfl

/-! ### The steps -/

theorem exec_stepCuAwait (s : State) :
    exec .stepCuAwait s = exec (cuAwaitRow (pollChannel .cuCtl s).1) (pollChannel .cuCtl s).2 :=
  awaitDispatch_eq _ _

theorem exec_stepCuActive (s : State) :
    exec .stepCuActive s =
      andThen (exec (cuActiveRow (pollChannel .cuCtl s).1) (pollChannel .cuCtl s).2) fun t =>
        if t.cuState = .active then exec (cuActiveRow (pollChannel .cuTick t).1) (pollChannel .cuTick t).2
        else .next t := by
  simp only [← cuDispatch_eq]
  rfl

/-- Every code but `motor-ready` is discarded (44_controller_unit.md R202). -/
theorem exec_cuAwaitRow_of_ne_motorReady {e : Event} (h : e ≠ .motorReady) (s : State) :
    exec (cuAwaitRow e) s = .next s := by
  cases e
  case motorReady => exact absurd rfl h
  all_goals rfl

/-- The rows of CU_ACTIVE that raise `motor-stop`: `controller-stop` and the codes the CU does not expect
(44_controller_unit.md R215, R220). -/
def motorStopRows : List Instr :=
  [.cuControllerStop, .cuMotorStop, .cuControllerReady, .cuOutputReady, .cuDebug, .cuPwmTick, .cuReserved12,
    .cuReserved13, .cuReserved14, .cuReserved15]

theorem exec_of_mem_motorStopRows {i : Instr} (h : i ∈ motorStopRows) (s : State) :
    exec i s = .next (latchSet .muCtl .motorStop s) := by
  simp only [motorStopRows, List.mem_cons, List.not_mem_nil, or_false] at h
  obtain rfl | rfl | rfl | rfl | rfl | rfl | rfl | rfl | rfl | rfl := h
  all_goals rfl

/-- The state after the configuration step. -/
def State.configLoaded (s : State) : State :=
  { configureAll ⟨readCfgEntry 0 s, readCfgEntry 1 s, readCfgEntry 2 s, readCfgEntry 3 s⟩
      { s with periodL := memRead offPeriod s } with
    cuState := .active }

theorem exec_stepCuConfig (s : State) : exec .stepCuConfig s = .next s.configLoaded := rfl

theorem State.configLoaded_frame (s : State) :
    s.configLoaded =
      { s with
        periodL := memRead offPeriod s
        kpa := ⟨memRead (offCfg 0 0) s, memRead (offCfg 1 0) s, memRead (offCfg 2 0) s⟩
        fe := s.configLoaded.fe
        cuState := .active } := rfl

/-- Each filter is configured from its own entry. -/
@[simp] theorem State.configLoaded_fe_get (s : State) (k : Fin 4) :
    s.configLoaded.fe.get k = feConfigure s.par (readCfgEntry k s) (memRead offPeriod s) := by
  match k with
  | 0 | 1 | 2 | 3 => rfl

/-! ### The obligations -/

/-- Settles O40: both polls find an empty latch and so answer `none` and the state itself, whose handler keeps it. -/
theorem cuIdleChangesNothing : Obligations.CuIdleChangesNothing := by
  intro s
  have idle : exec .cuNone s = .next s := rfl
  refine ⟨idle, fun ctlEmpty tickEmpty => ?_⟩
  rw [exec_stepCuActive, pollChannel_of_empty (ch := .cuCtl) ctlEmpty]
  simp only [cuActiveRow, idle, andThen, pollChannel_of_empty (ch := .cuTick) tickEmpty, ite_self]

/-- Settles O43: the step runs CU_AWAIT's row of the code it polled, and every row but `motor-ready`'s keeps the state. -/
theorem awaitEndsOnMotorReady : Obligations.AwaitEndsOnMotorReady := by
  intro s
  refine ⟨rfl, fun ready => ?ends, fun other => ?waits⟩
  case ends =>
    have polled : (pollChannel .cuCtl s).1 = .motorReady := ready
    rw [exec_stepCuAwait, polled]
    rfl
  case waits =>
    rw [exec_stepCuAwait, exec_cuAwaitRow_of_ne_motorReady (e := (pollChannel .cuCtl s).1) other]
    rfl

/-- Settles O44: each of the rows is RAISE(motor-stop), whose only destination is `MU.ctl`; an empty latch takes the
code without an overrun. -/
theorem cuStopsRaiseMotorStop : Obligations.CuStopsRaiseMotorStop := by
  intro s i mem
  have raises := exec_of_mem_motorStopRows mem s
  refine ⟨raises.trans (exec_raise_motorStop s).symm, ?frame, fun empty => ?taken⟩
  case frame => exact ⟨_, _, _, raises⟩
  case taken => exact raises.trans (congrArg _ (latchSet_of_empty (ch := .muCtl) empty .motorStop))

/-- Settles O47: the handler is the timer's enable operation, which writes one bit. -/
theorem setArmedEnablesTimer : Obligations.SetArmedEnablesTimer := by
  intro s
  have enables : exec .cuSetArmed s = .next (tmrSEnable s) := rfl
  rw [enables, tmrSEnable]

/-- Settles O51: the state is `State.configLoaded`, and CONFIGURE taken alone makes the same filter of the same
entry. -/
theorem configStepLoadsAll : Obligations.ConfigStepLoadsAll := by
  intro s cfg
  refine ⟨s.configLoaded, exec_stepCuConfig s, s.configLoaded_frame, fun k => ?_⟩
  have ownEntry : readCfgEntry k s = cfg k := rfl
  refine ⟨s.filterConfigured k (cfg k) (memRead 0 s), exec_configure k (cfg k) (memRead 0 s) s, ?_⟩
  rw [State.configLoaded_fe_get, State.filterConfigured_get_same, ownEntry, offPeriod]

end Sys2Proof.Machine
end

section
/-!
The motor unit (45_motor_unit.md): the pin operations on all four pins, the load of the duty registers, the rows of
MU_ACTIVE that leave the loop, and O54, O55 and O56.
-/

namespace Sys2Proof.Machine

theorem assertPins_allPins (s : State) : assertPins allPins s = { s with pin := ⟨true, true, true, true⟩ } := by
  simp [assertPins, allPins]

theorem deassertPins_allPins (s : State) :
    deassertPins allPins s = { s with pin := ⟨false, false, false, false⟩ } := by
  simp [deassertPins, allPins]

/-- The four words of `pid_output`, each clamped, and no other field. -/
theorem loadDuty_eq (s : State) :
    loadDuty s =
      { s with
        duty := ⟨clampDuty s.par (memRead 40 s).toNat, clampDuty s.par (memRead 41 s).toNat,
          clampDuty s.par (memRead 42 s).toNat, clampDuty s.par (memRead 43 s).toNat⟩ } := rfl

/-- RAISE(motor-ready) marks the host's bit whatever it was (41_event_channel.md R146). -/
theorem raiseEvent_motorReady_hostPend (s : State) :
    (raiseEvent .motorReady s).hostPend = { s.hostPend with motorReady := true } :=
  raiseEvent_hostPend .motorReady s

/-- An empty `CU.ctl` takes `motor-ready`, so no free choice is left (41_event_channel.md R145). -/
theorem raiseEvent_motorReady_latch_of_empty {s : State} (h : s.latch.cuCtl = .none) :
    (raiseEvent .motorReady s).latch = { s.latch with cuCtl := .motorReady } := by
  simp [raiseEvent_latch, routeChannel, PerChannel.get, PerChannel.set, h]

/-- The exit sequence (45_motor_unit.md R250) as the state after its RAISE. -/
theorem muExit_eq (s : State) :
    muExit s =
      { raiseEvent .motorReady { s with pin := ⟨false, false, false, false⟩ } with muState := .halt } := by
  rw [← deassertPins_allPins]
  rfl

/-- The rows of MU_ACTIVE that leave the loop: `motor-stop` and the codes the MU does not expect (45_motor_unit.md
R247, R248). -/
def muExitRows : List Instr :=
  [.muMotorStop, .muControllerStop, .muNewData, .muControllerReady, .muMotorReady, .muSetArmed, .muClearArmed,
    .muDebug, .muSampleTick, .muReserved12, .muReserved13, .muReserved14, .muReserved15]

theorem exec_of_mem_muExitRows {i : Instr} (h : i ∈ muExitRows) (s : State) : exec i s = .next (muExit s) := by
  simp only [muExitRows, List.mem_cons, List.not_mem_nil, or_false] at h
  obtain rfl | rfl | rfl | rfl | rfl | rfl | rfl | rfl | rfl | rfl | rfl | rfl | rfl := h
  all_goals rfl

/-- Settles O54: after the flag is cleared the handler asserts the mask of all pins, which overwrites each of them. -/
theorem pwmTickAssertsPins : Obligations.PwmTickAssertsPins := by
  intro s
  have handler : exec .muPwmTick s = .next (assertPins allPins (tmrPClearFlag s)) := rfl
  rw [handler, assertPins_allPins, tmrPClearFlag]

/-- Settles O55: the handler is the load of the duty registers. -/
theorem outputReadyLoadsDuty : Obligations.OutputReadyLoadsDuty := by
  intro s
  have handler : exec .muOutputReady s = .next (loadDuty s) := rfl
  rw [handler, loadDuty_eq]

/-- Settles O56: each of the rows is the exit sequence; its RAISE sees the latches and the host's bits of `s`, because
the pins are apart from both. -/
theorem muExitsOnStop : Obligations.MuExitsOnStop := by
  intro s i mem
  refine ⟨raiseEvent .motorReady { s with pin := ⟨false, false, false, false⟩ }, rfl, ?exits, ?host,
    fun empty => ?taken⟩
  case exits => exact (exec_of_mem_muExitRows mem s).trans (congrArg _ (muExit_eq s))
  case host => exact raiseEvent_motorReady_hostPend _
  case taken => exact raiseEvent_motorReady_latch_of_empty empty

end Sys2Proof.Machine
end

section
/-!
The host's accesses and the pin operations (46_host_and_timers.md R271, R272, R289): the moves on a word of the SCB, each
pin after an operation, and O6 and O60.
-/

namespace Sys2Proof.Machine

theorem doMove_hostWrite_of_lt {n : Nat} (h : n < Config.scbWords) (v : Word) (s : State) :
    doMove (.hostWrite n v) s = .next (memWrite n v s) :=
  if_pos h

theorem doMove_hostRead_of_lt {n : Nat} (h : n < Config.scbWords) (s : State) :
    doMove (.hostRead n) s = .next { s with ret := .word (memRead n s) } :=
  if_pos h

/-- A write of a word changes nothing but memory. -/
theorem memWrite_frame (n : Nat) (v : Word) (s : State) :
    memWrite n v s = { s with mem := (memWrite n v s).mem } := rfl

/-- A set mask bit raises its pin. -/
theorem assertPins_pin_get (m : Word) (s : State) (k : Fin 4) :
    (assertPins m s).pin.get k = (s.pin.get k || m.getLsbD k.val) := by
  match k with
  | 0 | 1 | 2 | 3 => rfl

/-- A set mask bit lowers its pin. -/
theorem deassertPins_pin_get (m : Word) (s : State) (k : Fin 4) :
    (deassertPins m s).pin.get k = (s.pin.get k && !m.getLsbD k.val) := by
  match k with
  | 0 | 1 | 2 | 3 => rfl

/-- Settles O6: a write is MemWrite of the word, whose four bytes hold the value and whose other bytes are untouched
because the memory's offsets rise. -/
theorem hostWordAccess : Obligations.HostWordAccess := by
  intro s n v memOk inScb
  have rising := State.memOk_rising memOk
  refine ⟨⟨memWrite n v s, doMove_hostWrite_of_lt inScb v s, memWrite_frame n v s, ?word, fun a outside => ?byte⟩,
    doMove_hostRead_of_lt inScb s⟩
  case word => rw [memRead_memWrite n n v rising, if_pos rfl]
  case byte => rw [readByte_memWrite n a v rising, if_neg outside]

/-- Settles O60: each pin is its old value or-ed with its mask bit, or and-ed with the bit's complement. -/
theorem pinsFollowMask : Obligations.PinsFollowMask := by
  intro s m
  refine ⟨fun k => ?raised, fun k => ?lowered, rfl, rfl⟩
  case raised =>
    rw [assertPins_pin_get]
    cases m.getLsbD k.val <;> simp
  case lowered =>
    rw [deassertPins_pin_get]
    cases m.getLsbD k.val <;> simp

end Sys2Proof.Machine
end

section
/-!
Fixed-point arithmetic (40_arithmetic.md): legal parameters as inequalities, what each operation gives as an integer for
every legal format, and O27 to O30.
-/

namespace Sys2Proof.Machine

/-! ### Legal parameters -/

/-- `DUTY_MIN <= DUTY_BASE <= DUTY_MAX < PWM_PERIOD` (00_scope.md R6). -/
theorem dutyParams_of_ok {par : Config.Params} (h : par.ok = true) :
    par.dutyMin.toNat ≤ par.dutyBase.toNat ∧ par.dutyBase.toNat ≤ par.dutyMax.toNat ∧
      par.dutyMax.toNat < par.pwmPeriod.toNat := by
  simp only [Config.Params.ok, Bool.and_eq_true, decide_eq_true_eq] at h
  obtain ⟨⟨⟨base, max⟩, period⟩, -⟩ := h
  exact ⟨base, max, period⟩

/-- The range of an `fx`, as the statements write it. -/
theorem fxMax_eq (par : Config.Params) : fxMax par = 2 ^ (par.numW - 1) - 1 := by
  simp [fxMax]

theorem fxMin_eq (par : Config.Params) : fxMin par = -(2 ^ (par.numW - 1) - 1) - 1 := by
  simp only [fxMin, Int.natCast_pow, Int.cast_ofNat_Int]
  omega

theorem fxMin_eq_neg_fxMax (par : Config.Params) : fxMin par = -fxMax par - 1 := by
  rw [fxMin_eq, fxMax_eq]

theorem fxScale_eq (par : Config.Params) : fxScale par = 2 ^ par.numF := by
  simp [fxScale]

theorem fxScale_pos (par : Config.Params) : 0 < fxScale par := Int.natCast_pos.2 (Nat.two_pow_pos _)

/-- `ONE` is a value, so the greatest value is positive. -/
theorem fxMax_pos {par : Config.Params} (h : par.fmtOk = true) : 0 < fxMax par := by
  have range := fxInt_range h (one par)
  have scale := fxScale_pos par
  rw [fxInt_one h] at range
  omega

/-! ### The duty-cycle clamp -/

/-- A value of the duty range is a word's. -/
theorem clampDuty_toNat {par : Config.Params} (h : par.ok = true) (v : Int) :
    ((clampDuty par v).toNat : Int) =
      if v < par.dutyMin.toNat then (par.dutyMin.toNat : Int)
      else if (par.dutyMax.toNat : Int) < v then (par.dutyMax.toNat : Int) else v := by
  obtain ⟨base, max, -⟩ := dutyParams_of_ok h
  unfold clampDuty
  by_cases above : (par.dutyMax.toNat : Int) < v
  · rw [if_pos above, if_neg (by omega), if_pos above]
  · rw [if_neg above, if_neg above]
    by_cases below : v < par.dutyMin.toNat
    · rw [if_pos below, if_pos below]
    · rw [if_neg below, if_neg below, BitVec.toNat_ofInt]
      have fits := par.dutyMax.isLt
      omega

/-- Settles O30: the three branches of the clamp, the middle one read back from a word. -/
theorem dutyClamps : Obligations.DutyClamps := fun _ v h => clampDuty_toNat h v

theorem inDutyRange_iff {par : Config.Params} {v : Word} :
    inDutyRange par v = true ↔ par.dutyMin.toNat ≤ v.toNat ∧ v.toNat ≤ par.dutyMax.toNat := by
  simp [inDutyRange]

theorem inDutyRange_clampDuty {par : Config.Params} (h : par.ok = true) (v : Int) :
    inDutyRange par (clampDuty par v) = true := by
  obtain ⟨base, max, -⟩ := dutyParams_of_ok h
  have value := clampDuty_toNat h v
  rw [inDutyRange_iff]
  split at value
  · omega
  · split at value <;> omega

theorem inDutyRange_dutyBase {par : Config.Params} (h : par.ok = true) : inDutyRange par par.dutyBase = true := by
  obtain ⟨base, max, -⟩ := dutyParams_of_ok h
  exact inDutyRange_iff.2 ⟨base, max⟩

/-! ### Sums -/

theorem fxInt_fxAdd {par : Config.Params} (h : par.fmtOk = true) (a b : Word) :
    fxInt par (fxAdd par a b) =
      if fxInt par a + fxInt par b > fxMax par then fxMax par
      else if fxInt par a + fxInt par b < fxMin par then fxMin par else fxInt par a + fxInt par b :=
  fxInt_sat_eq h _

/-- Settles O27: each is `sat` of an exact sum; a saturated double is an end of the range, and neither end is zero. -/
theorem sumsSaturate : Obligations.SumsSaturate := by
  intro par fmt n hi saturated
  have up : hi = fxMax par := (fxMax_eq par).symm
  have lo : -hi - 1 = fxMin par := by rw [up, fxMin_eq_neg_fxMax]
  have sat_eq : ∀ v, n (sat par v) = saturated v := by
    intro v
    show n (sat par v) = if hi < v then hi else if v < -hi - 1 then -hi - 1 else v
    rw [lo, up]
    exact fxInt_sat_eq fmt v
  refine ⟨sat_eq, fun a b => sat_eq _, fun a b => sat_eq _, fun a double => ?_⟩
  have value := fxInt_fxAdd fmt a a
  have pos := fxMax_pos fmt
  have low := fxMin_eq_neg_fxMax par
  rw [show fxInt par (fxAdd par a a) = 0 from double] at value
  show fxInt par a = 0
  split at value
  · omega
  · split at value <;> omega

/-! ### Products -/

/-- The nearer end, or the floor. -/
theorem fxInt_fxMul {par : Config.Params} (h : par.fmtOk = true) (a b : Word) :
    fxInt par (fxMul par a b) =
      if fxInt par a * fxInt par b / fxScale par > fxMax par then fxMax par
      else if fxInt par a * fxInt par b / fxScale par < fxMin par then fxMin par
      else fxInt par a * fxInt par b / fxScale par :=
  fxInt_sat_eq h _

theorem sat_fxInt {par : Config.Params} (h : par.fmtOk = true) (a : Word) : fxInt par (sat par (fxInt par a)) = fxInt par a := by
  have range := fxInt_range h a
  rw [fxInt_sat_eq h, if_neg (by omega), if_neg (by omega)]

theorem fxMul_comm (par : Config.Params) (a b : Word) : fxMul par a b = fxMul par b a := by
  rw [fxMul, fxMul, Int.mul_comm]

theorem fxInt_fxMul_one {par : Config.Params} (h : par.fmtOk = true) (a : Word) :
    fxInt par (fxMul par a (one par)) = fxInt par a := by
  have scale := fxScale_pos par
  rw [fxMul, fxInt_one h, floorShift, Int.mul_ediv_cancel _ (by omega), sat_fxInt h]

theorem fxMul_zero {par : Config.Params} (h : par.fmtOk = true) (a : Word) : fxMul par a 0 = 0 := by
  have pos := fxMax_pos h
  have low := fxMin_eq_neg_fxMax par
  rw [fxMul, fxInt_zero, Int.mul_zero, floorShift, Int.zero_ediv, sat, if_neg (by omega), if_neg (by omega)]
  rfl

/-- `ONE`, as the statements write it. -/
theorem one_eq (par : Config.Params) : one par = BitVec.ofInt 32 (2 ^ par.numF) := by
  rw [one, fxWord, fxScale_eq]

/-- Settles O28: the floor of the exact product lies in the range exactly when the product lies between the scaled ends. -/
theorem productFloors : Obligations.ProductFloors := by
  intro par fmt n hi q a b
  have up : hi = fxMax par := (fxMax_eq par).symm
  have lo : -hi - 1 = fxMin par := by rw [up, fxMin_eq_neg_fxMax]
  have scale : q = fxScale par := (fxScale_eq par).symm
  have q_pos : 0 < q := scale ▸ fxScale_pos par
  have pos := fxMax_pos fmt
  have product : n (fxMul par a b) =
      if n a * n b / q > hi then hi else if n a * n b / q < -hi - 1 then -hi - 1 else n a * n b / q := by
    rw [lo, up, scale]
    exact fxInt_fxMul fmt a b
  refine ⟨fun above below => ?floor, fun above => ?max, fun below => ?min, fxMul_comm par a b, ?one, fxMul_zero fmt a⟩
  case floor =>
    have h1 : -hi - 1 ≤ n a * n b / q := (Int.le_ediv_iff_mul_le q_pos).2 above
    have h2 : n a * n b / q < hi + 1 := (Int.ediv_lt_iff_lt_mul q_pos).2 below
    have exact_floor : n (fxMul par a b) = n a * n b / q := by
      rw [product, if_neg (by omega), if_neg (by omega)]
    rw [exact_floor]
    exact ⟨Int.ediv_mul_le _ (by omega), Int.lt_ediv_add_one_mul_self _ q_pos⟩
  case max =>
    have h : hi + 1 ≤ n a * n b / q := (Int.le_ediv_iff_mul_le q_pos).2 above
    rw [product, if_pos (by omega)]
  case min =>
    have h : n a * n b / q < -hi - 1 := (Int.ediv_lt_iff_lt_mul q_pos).2 below
    rw [product, if_neg (by omega), if_pos h]
  case one =>
    rw [← one_eq]
    exact fxInt_fxMul_one fmt a

/-! ### Quotients -/

/-- Operands of one sign: the quotient of the magnitudes. -/
theorem tdiv_of_same_sign {x y : Int} (h : decide (x < 0) = decide (y < 0)) :
    x.tdiv y = ((x.natAbs / y.natAbs : Nat) : Int) := by
  have nonneg : 0 ≤ x.tdiv y := by
    by_cases neg : x < 0
    · have neg' : y < 0 := by simpa [neg] using h
      exact Int.tdiv_nonneg_of_nonpos_of_nonpos (by omega) (by omega)
    · have neg' : ¬ y < 0 := by simpa [neg] using h
      exact Int.tdiv_nonneg (by omega) (by omega)
  rw [← Int.natAbs_of_nonneg nonneg, Int.natAbs_tdiv]
  rfl

/-- Operands of two signs: the negated quotient of the magnitudes. -/
theorem tdiv_of_opposite_sign {x y : Int} (h : decide (x < 0) ≠ decide (y < 0)) :
    x.tdiv y = -((x.natAbs / y.natAbs : Nat) : Int) := by
  have h' : decide (x < 0) = decide (-y < 0) ∨ x = 0 ∨ y = 0 := by
    by_cases neg : x < 0 <;> by_cases neg' : y < 0 <;> simp [neg, neg'] at h ⊢ <;> omega
  rcases h' with h' | rfl | rfl
  · have := tdiv_of_same_sign h'
    rw [Int.tdiv_neg, Int.natAbs_neg] at this
    omega
  · simp
  · simp

theorem fxInt_fxDiv {par : Config.Params} (h : par.fmtOk = true) (a : Word) {b : Word} (hb : fxInt par b ≠ 0) :
    fxInt par (fxDiv par a b) =
      if Int.tdiv (fxInt par a * fxScale par) (fxInt par b) > fxMax par then fxMax par
      else if Int.tdiv (fxInt par a * fxScale par) (fxInt par b) < fxMin par then fxMin par
      else Int.tdiv (fxInt par a * fxScale par) (fxInt par b) := by
  rw [fxDiv, if_neg hb]
  exact fxInt_sat_eq h _

/-- A zero divisor gives the end of the range that the dividend's sign names. -/
theorem fxInt_fxDiv_zero {par : Config.Params} (h : par.fmtOk = true) (a : Word) {b : Word} (hb : fxInt par b = 0) :
    fxInt par (fxDiv par a b) = if fxInt par a > 0 then fxMax par else if fxInt par a < 0 then fxMin par else 0 := by
  have pos := fxMax_pos h
  have low := fxMin_eq_neg_fxMax par
  rw [fxDiv, if_pos hb]
  refine fxInt_fxWord h ?_ ?_ <;> repeat' split
  all_goals omega

theorem fxInt_fxDiv_one {par : Config.Params} (h : par.fmtOk = true) (a : Word) :
    fxInt par (fxDiv par a (one par)) = fxInt par a := by
  have scale := fxScale_pos par
  have range := fxInt_range h a
  have one := fxInt_one h
  rw [fxInt_fxDiv h a (by omega), one, Int.mul_tdiv_cancel _ (by omega), if_neg (by omega), if_neg (by omega)]

/-- Scaling by `2^NUM_F` keeps the sign. -/
theorem mul_fxScale_neg_iff (par : Config.Params) (x : Int) : x * fxScale par < 0 ↔ x < 0 := by
  have scaled := Int.mul_lt_mul_right (b := x) (c := 0) (fxScale_pos par)
  rwa [Int.zero_mul] at scaled

/-- Settles O29: truncation toward zero divides the magnitudes, and the operands' signs decide which end can be passed. -/
theorem quotientTruncates : Obligations.QuotientTruncates := by
  intro par fmt n hi
  have up : hi = fxMax par := (fxMax_eq par).symm
  have lo : -hi - 1 = fxMin par := by rw [up, fxMin_eq_neg_fxMax]
  have pos := fxMax_pos fmt
  refine ⟨fun a b m divisor magnitude => ?quotient, fun a b zero => ?byZero, fun a => ?byOne⟩
  case quotient =>
    have value : n (fxDiv par a b) = _ := fxInt_fxDiv fmt a divisor
    have magnitude' : (fxInt par a * fxScale par).natAbs / (fxInt par b).natAbs = m := by
      rw [magnitude, Int.natAbs_mul, fxScale, Int.natAbs_natCast]
    refine ⟨fun same => ?same, fun opposite => ?opposite⟩
    case same =>
      have exact_value := tdiv_of_same_sign (x := fxInt par a * fxScale par) (y := fxInt par b)
        (by simpa only [mul_fxScale_neg_iff] using same)
      rw [value, exact_value, magnitude', up]
      split <;> split <;> omega
    case opposite =>
      have exact_value := tdiv_of_opposite_sign (x := fxInt par a * fxScale par) (y := fxInt par b)
        (by simpa only [mul_fxScale_neg_iff] using opposite)
      rw [value, exact_value, magnitude', lo, up]
      split <;> split <;> omega
  case byZero =>
    rw [lo, up]
    exact fxInt_fxDiv_zero fmt a zero
  case byOne =>
    rw [← one_eq]
    exact fxInt_fxDiv_one fmt a

end Sys2Proof.Machine
end

section
/-!
A unit's move is some number of its atomic actions with nothing between (44_controller_unit.md R204, 45_motor_unit.md
R242): the whole steps as runs of actions, O20 and O21, and the rule that what every single action keeps, every move of
the unit keeps.
-/

namespace Sys2Proof.Machine

/-! ### Runs inside a longer step -/

/-- A run ends in one state. -/
theorem Run.deterministic {u : UnitId} {acts : List Act} {s t t' : State} (h : Run u acts s t) (h' : Run u acts s t') :
    t = t' := by
  induction h with
  | nil s => cases h'; rfl
  | cons _ ih =>
    cases h' with
    | cons h' => exact ih h'

theorem action_of_pend {u : UnitId} {s : State} {a : Act} {rest : List Act} (h : pend u s = a :: rest) :
    action u s = doAct u a rest s := by
  simp only [action, h]

theorem doAct_setPend (u : UnitId) (a : Act) (rest acts : List Act) (s : State) :
    doAct u a rest (setPend u acts s) = doAct u a rest s := by
  simp only [doAct, performAct_setPend, setPend_setPend]

/-- Actions at the front of a step run to their end and leave the rest of the step. -/
theorem Run.actions_append {u : UnitId} {acts : List Act} {s t : State} (h : Run u acts s t) (rest : List Act) :
    ∃ k, Machine.actions u k (setPend u (acts ++ rest) s) = setPend u rest t := by
  induction h with
  | nil s => exact ⟨0, rfl⟩
  | @cons a more s t _ ih =>
    obtain ⟨k, hk⟩ := ih
    refine ⟨k + 1, ?_⟩
    have first : action u (setPend u (a :: (more ++ rest)) s)
        = setPend u ((performAct u a s).1 ++ more ++ rest) (performAct u a s).2 := by
      rw [action_of_pend (pend_setPend ..), doAct_setPend, doAct, List.append_assoc]
    rw [← hk, ← first]
    rfl

/-! ### The configuration step's reads -/

/-- The first `n` words of `pid_config`. -/
def cfgWords (n : Nat) (s : State) : List Word := (List.range n).map fun i => memRead (1 + i) s

theorem cfgWords_succ (n : Nat) (s : State) : cfgWords n s ++ [memRead (1 + n) s] = cfgWords (n + 1) s := by
  simp [cfgWords, List.range_succ]

theorem cfgWords_length (n : Nat) (s : State) : (cfgWords n s).length = n := by
  simp [cfgWords]

theorem cfgOfWords_cfgWords (k : Fin 4) (s : State) : cfgOfWords (cfgWords 32 s) k = readCfgEntry k s := by
  match k with
  | 0 | 1 | 2 | 3 => rfl

theorem performAct_readCfg (n : Nat) (s : State) :
    performAct .cu (.readCfg (cfgWords n s)) s =
      (if n + 1 < 32 then [.readCfg (cfgWords (n + 1) s)]
        else [.tmrSConfigure, .configure (cfgWords (n + 1) s), .goCu .active], s) := by
  simp only [performAct, cfgWords_length, cfgWords_succ]
  split <;> rfl

/-- With `d` reads to go before the last, the reads end in the configuration's local part. -/
theorem Run.readCfg {s t : State} (last : Run .cu [.tmrSConfigure, .configure (cfgWords 32 s), .goCu .active] s t) :
    ∀ d n : Nat, n + d = 31 → Run .cu [.readCfg (cfgWords n s)] s t
  | 0, n, h => by
    obtain rfl : n = 31 := h
    exact .cons (by rw [performAct_readCfg]; exact last)
  | d + 1, n, h => by
    have more : n + 1 < 32 := by omega
    refine .cons ?_
    rw [performAct_readCfg, if_pos more]
    exact Run.readCfg last d (n + 1) (by omega)

theorem Run.stepCuConfig (s : State) : Run .cu [.read 0 .period, .readCfg []] s s.configLoaded := by
  refine .step (x := { s with periodL := memRead offPeriod s }) rfl (.nil _) (Run.readCfg ?_ 31 0 rfl)
  refine .step rfl (.nil _) (.step ?_ (.nil _) (.one rfl))
  have e := fun k => cfgOfWords_cfgWords k { s with periodL := memRead offPeriod s }
  simp only [performAct]
  exact congrArg (Prod.mk []) (congrArg (configureAll · _) (congr (congr (congr (congrArg Quad.mk (e 0)) (e 1)) (e 2)) (e 3)))

/-! ### Each unit's whole step -/

/-- The handler of a code, beside the table of `s`, is its actions with nothing between. -/
theorem Run.eventRow {u : UnitId} {e : Event} {s x t : State} (h : exec (eventRow u e s) x = .next t) :
    Run u (handlerActs u e s) x t := by
  cases u with
  | mu => exact Run.muRow e h
  | cu =>
    unfold Machine.eventRow at h
    unfold handlerActs
    cases table : cuTable s <;> simp only [table] at h ⊢
    · exact Run.cuRow e h
    · exact Run.awaitRow e h

theorem Run.poll {u : UnitId} {ch : Channel} {s t : State}
    (h : exec (Machine.eventRow u (s.latch.get ch) s) (pollChannel ch s).2 = .next t) : Run u [.poll ch] s t :=
  .step rfl (.step rfl (Run.eventRow (s := (pollChannel ch s).2) h) (.nil _)) (.nil _)

theorem Run.pollIfActive {u : UnitId} {ch : Channel} {s t : State} (active : unitActive u s = true)
    (h : exec (Machine.eventRow u (s.latch.get ch) s) (pollChannel ch s).2 = .next t) : Run u [.pollIfActive ch] s t :=
  .step (if_pos active) (.step rfl (Run.eventRow (s := (pollChannel ch s).2) h) (.nil _)) (.nil _)

theorem Run.pollIfActive_left {u : UnitId} {ch : Channel} {s : State} (left : unitActive u s = false) :
    Run u [.pollIfActive ch] s s :=
  .one (if_neg (by simp [left]))

theorem Run.compareOne (m : Fin 4) (s : State) : Run .mu [.compareOne m] s (compareMotor m s) := by
  unfold compareMotor
  by_cases reached : (s.duty.get m).toNat ≤ (tmrPRead s).toNat
  · have lowers : performAct .mu (.compareOne m) s = ([.deassertPins (pinMask m)], s) := by
      simp only [performAct, if_pos reached]
    rw [if_pos reached]
    exact .step lowers (.one rfl) (.nil _)
  · rw [if_neg reached]
    exact .one (by simp only [performAct, if_neg reached])

theorem Run.compareIfActive (s : State) :
    Run .mu [.compareIfActive] s (if s.muState = .active then compareStep s else s) := by
  by_cases active : s.muState = .active
  · have each : performAct .mu .compareIfActive s = ([.compareOne 0, .compareOne 1, .compareOne 2, .compareOne 3], s) := by
      simp [performAct, unitActive, active]
    rw [if_pos active]
    refine .step each ?_ (.nil _)
    exact (Run.compareOne 0 _).append ((Run.compareOne 1 _).append ((Run.compareOne 2 _).append (Run.compareOne 3 _)))
  · rw [if_neg active]
    exact .one (by simp [performAct, unitActive, active])

/-- In the CU's loop the code's row is CU_ACTIVE's. -/
theorem eventRow_cu_of_active {s : State} (active : s.cuState = .active) (e : Event) :
    eventRow .cu e s = cuActiveRow e := by
  simp [eventRow, cuTable, active]

theorem exec_stepMuActive (s : State) :
    exec .stepMuActive s =
      andThen (exec (muRow (pollChannel .muCtl s).1) (pollChannel .muCtl s).2) fun t1 =>
        andThen
          (if t1.muState = .active then exec (muRow (pollChannel .muTick t1).1) (pollChannel .muTick t1).2
          else .next t1)
          fun t2 => .next (if t2.muState = .active then compareStep t2 else t2) := by
  simp only [← muDispatch_eq]
  rfl

/-- An answer of two meanings in a row is the second's at the state the first answers. -/
theorem andThen_eq_next {o : Out} {f : State → Out} {t : State} (h : andThen o f = .next t) :
    ∃ x, o = .next x ∧ f x = .next t := by
  cases o with
  | next x => exact ⟨x, rfl, h⟩
  | fault r => cases h
  | refused r => cases h

theorem Run.stepCuActive {s t : State} (active : s.cuState = .active) (h : exec .stepCuActive s = .next t) :
    Run .cu [.poll .cuCtl, .pollIfActive .cuTick] s t := by
  rw [exec_stepCuActive] at h
  obtain ⟨t1, ctl, tick⟩ := andThen_eq_next h
  refine (Run.poll (t := t1) ?_).append (acts' := [.pollIfActive .cuTick]) ?_
  · rw [eventRow_cu_of_active active]
    exact ctl
  · by_cases still : t1.cuState = .active
    · rw [if_pos still] at tick
      refine Run.pollIfActive (by simp [unitActive, still]) ?_
      rw [eventRow_cu_of_active still]
      exact tick
    · rw [if_neg still] at tick
      cases tick
      exact Run.pollIfActive_left (by simp [unitActive, still])

theorem Run.stepMuActive {s t : State} (h : exec .stepMuActive s = .next t) :
    Run .mu [.poll .muCtl, .pollIfActive .muTick, .compareIfActive] s t := by
  rw [exec_stepMuActive] at h
  obtain ⟨t1, ctl, h⟩ := andThen_eq_next h
  obtain ⟨t2, tick, compare⟩ := andThen_eq_next h
  cases compare
  refine (Run.poll (u := .mu) (ch := .muCtl) ctl).append (acts' := [.pollIfActive .muTick, .compareIfActive])
    (Run.append (acts := [.pollIfActive .muTick]) (t := t2) ?_ (Run.compareIfActive t2))
  by_cases still : t1.muState = .active
  · rw [if_pos still] at tick
    exact Run.pollIfActive (by simp [unitActive, still]) tick
  · rw [if_neg still] at tick
    cases tick
    exact Run.pollIfActive_left (by simp [unitActive, still])

/-- The step that a state register selects is the actions it begins with, and those they leave. -/
theorem Run.stateRow {u : UnitId} {s t : State} (h : exec (stateRow u s) s = .next t) : Run u (beginActs u s) s t := by
  unfold Machine.stateRow at h
  unfold beginActs
  cases u with
  | cu =>
    cases state : s.cuState <;> simp only [state] at h ⊢
    case held => cases h; exact .nil s
    case await =>
      refine Run.poll ?_
      rw [exec_stepCuAwait] at h
      simp only [Machine.eventRow, cuTable, state, if_true]
      exact h
    case config => cases h; exact Run.stepCuConfig s
    case active => exact Run.stepCuActive state h
    case halt => cases h; exact .nil s
  | mu =>
    cases state : s.muState <;> simp only [state] at h ⊢
    case held => cases h; exact .nil s
    case boot =>
      cases h
      exact .step rfl (.nil _) (.step rfl (.nil _) ((Run.duties _).append (.one rfl)))
    case active => exact Run.stepMuActive h
    case halt => cases h; exact .nil s

/-! ### A move of a unit is its actions -/

/-- The first action of a new step leaves what the step's beginning, put down first, would leave. -/
theorem action_setPend_beginActs {u : UnitId} {s : State} {a : Act} {rest : List Act} (between : pend u s = [])
    (begins : beginActs u s = a :: rest) : action u (setPend u (a :: rest) s) = action u s := by
  rw [action_of_pend (pend_setPend ..), doAct_setPend]
  simp only [action, between, begins]

/-- A new step's actions taken one after another are the list it begins with, run to its end. -/
theorem actions_of_run_beginActs {u : UnitId} {s t : State} (between : pend u s = []) (run : Run u (beginActs u s) s t) :
    ∃ k, actions u k s = setPend u [] t := by
  cases begins : beginActs u s with
  | nil =>
    rw [begins] at run
    cases run
    refine ⟨0, ?_⟩
    rw [← between, setPend_pend]
    rfl
  | cons a rest =>
    obtain ⟨k, hk⟩ := run.actions_append []
    rw [begins, List.append_nil] at hk
    cases k with
    | zero => exact absurd (congrArg (pend u) hk) (by simp [actions])
    | succ k =>
      rw [actions, action_setPend_beginActs between begins] at hk
      exact ⟨k + 1, hk⟩

theorem performAct_pend (u : UnitId) (a : Act) (s : State) : pend u (performAct u a s).2 = pend u s := by
  have h := performAct_setPend u a (pend u s) s
  rw [setPend_pend] at h
  rw [h, pend_setPend]

theorem Run.pend {u : UnitId} {acts : List Act} {s t : State} (h : Run u acts s t) :
    Machine.pend u t = Machine.pend u s := by
  induction h with
  | nil s => rfl
  | cons _ ih => rw [ih, performAct_pend]

/-- Every move of a unit is some number of its atomic actions with nothing between. -/
theorem moveUnit_actions {u : UnitId} {g : Grain} {s t : State} (h : moveUnit u g s = .next t) :
    ∃ k, actions u k s = t := by
  rcases moveUnit_cases h with ⟨between, h⟩ | ⟨e, rest, polled, h⟩ | rfl
  · have run := Run.stateRow h
    obtain ⟨k, hk⟩ := actions_of_run_beginActs between run
    refine ⟨k, ?_⟩
    rw [hk, ← between, ← run.pend, setPend_pend]
  · have run := Run.eventRow h
    obtain ⟨k, hk⟩ := run.actions_append rest
    refine ⟨k + 1, ?_⟩
    rw [setPend_setPend] at hk
    have left : Machine.pend u t = rest := by rw [run.pend, pend_setPend]
    rw [actions, action_of_pend polled]
    exact hk.trans (by rw [← left, setPend_pend])
  · exact ⟨1, rfl⟩

/-- What the beginning of a step and every atomic action keep, every move of the unit keeps. -/
theorem moveUnit_keeps {u : UnitId} {P : State → Prop}
    (begins : ∀ s, P s → pend u s = [] → P (setPend u (beginActs u s) s))
    (acts : ∀ s a rest, P s → pend u s = a :: rest → P (doAct u a rest s))
    {g : Grain} {s t : State} (hs : P s) (h : moveUnit u g s = .next t) : P t := by
  have one : ∀ s, P s → P (action u s) := by
    intro s hs
    rcases action_cases u s with same | ⟨a, rest, pending | ⟨between, first⟩, next⟩
    · rw [same]; exact hs
    · rw [next]; exact acts s a rest hs pending
    · have hb := begins s hs between
      rw [first] at hb
      have := acts _ a rest hb (pend_setPend ..)
      rw [doAct_setPend] at this
      rw [next]; exact this
  obtain ⟨k, rfl⟩ := moveUnit_actions h
  clear h
  induction k generalizing s with
  | zero => exact hs
  | succ k ih => exact ih (one s hs)

/-! ### The obligations -/

/-- Settles O20: the step that `CU_STATE` selects is the run of the actions it begins with. -/
theorem cuActionsMakeStep : Obligations.CuActionsMakeStep :=
  ⟨fun _ => rfl, fun _ _ _ h => moveUnit_actions h⟩

/-- Settles O21: the step that `MU_STATE` selects is the run of the actions it begins with. -/
theorem muActionsMakeStep : Obligations.MuActionsMakeStep :=
  ⟨fun _ => rfl, fun _ _ _ h => moveUnit_actions h⟩

end Sys2Proof.Machine
end

section
/-!
The conditions that every step keeps (Safety.lean), each shown for the host's and the timers' moves by their frame and
for a unit's move by its single actions: O10, O8, O9, O15 and O16.
-/

namespace Sys2Proof.Machine

/-! ### What no action writes -/

/-- An action writes no parameter, no script, no step under way, no returned value and not the reset content. -/
theorem performAct_frame (u : UnitId) (a : Act) (s : State) :
    ∃ fe kpa periodL wsAtt wsRate wsThrust cuState latch duty muState hostPend pin tmrS tmrP ovr mem draws,
      (performAct u a s).2 = { s with
        fe, kpa, periodL, wsAtt, wsRate, wsThrust, cuState, latch, duty, muState, hostPend, pin, tmrS, tmrP, ovr, mem,
        draws } := by
  cases a
  case raise e =>
    obtain ⟨_, _, _, _, h⟩ := raiseEvent_frame e s
    simp only [performAct, h]
    exact ⟨_, _, _, _, _, _, _, _, _, _, _, _, _, _, _, _, _, rfl⟩
  case read n dst => cases dst <;> exact ⟨_, _, _, _, _, _, _, _, _, _, _, _, _, _, _, _, _, rfl⟩
  case pollIfActive ch =>
    simp only [performAct]
    split <;> exact ⟨_, _, _, _, _, _, _, _, _, _, _, _, _, _, _, _, _, rfl⟩
  case readCfg got =>
    simp only [performAct]
    split <;> exact ⟨_, _, _, _, _, _, _, _, _, _, _, _, _, _, _, _, _, rfl⟩
  all_goals exact ⟨_, _, _, _, _, _, _, _, _, _, _, _, _, _, _, _, _, rfl⟩

@[simp] theorem performAct_par (u : UnitId) (a : Act) (s : State) : (performAct u a s).2.par = s.par := by
  obtain ⟨_, _, _, _, _, _, _, _, _, _, _, _, _, _, _, _, _, h⟩ := performAct_frame u a s
  rw [h]

@[simp] theorem performAct_cuPend (u : UnitId) (a : Act) (s : State) : (performAct u a s).2.cuPend = s.cuPend := by
  obtain ⟨_, _, _, _, _, _, _, _, _, _, _, _, _, _, _, _, _, h⟩ := performAct_frame u a s
  rw [h]

@[simp] theorem performAct_muPend (u : UnitId) (a : Act) (s : State) : (performAct u a s).2.muPend = s.muPend := by
  obtain ⟨_, _, _, _, _, _, _, _, _, _, _, _, _, _, _, _, _, h⟩ := performAct_frame u a s
  rw [h]

@[simp] theorem performAct_scbSeed (u : UnitId) (a : Act) (s : State) : (performAct u a s).2.scbSeed = s.scbSeed := by
  obtain ⟨_, _, _, _, _, _, _, _, _, _, _, _, _, _, _, _, _, h⟩ := performAct_frame u a s
  rw [h]

/-! ### Moves by their kind -/

/-- A condition that a reset, the other moves of the host and the timers, and each unit's moves keep, every move keeps. -/
theorem doMove_keeps {P : State → Prop}
    (reset : ∀ s t, P s → doMove .hostReset s = .next t → P t)
    (env : ∀ m s t, P s → m ≠ .hostReset → (∀ u g, m ≠ .unit u g) → doMove m s = .next t → P t)
    (units : ∀ u g s t, P s → moveUnit u g s = .next t → P t)
    {m : Move} {s t : State} (hs : P s) (h : doMove m s = .next t) : P t := by
  by_cases isReset : m = .hostReset
  · subst isReset
    exact reset s t hs h
  · by_cases isUnit : ∃ u g, m = .unit u g
    · obtain ⟨u, g, rfl⟩ := isUnit
      exact units u g s t hs h
    · exact env m s t hs isReset (fun u g e => isUnit ⟨u, g, e⟩) h

/-! ### The steps under way -/

theorem setPend_actsOwned {u : UnitId} {acts : List Act} {s : State} (hs : s.actsOwned = true)
    (h : acts.all (actOf u) = true) : (setPend u acts s).actsOwned = true := by
  obtain ⟨cu, mu⟩ := actsOwned_iff.1 hs
  cases u
  · exact actsOwned_iff.2 ⟨h, mu⟩
  · exact actsOwned_iff.2 ⟨cu, h⟩

theorem performAct_actsOwned {u : UnitId} {a : Act} {s : State} (hs : s.actsOwned = true) :
    (performAct u a s).2.actsOwned = true := by
  simpa [State.actsOwned] using hs

/-- An action leaves its unit's step, and the other's, made of their own actions. -/
theorem doAct_actsOwned {u : UnitId} {a : Act} {rest : List Act} {s : State} (hs : s.actsOwned = true)
    (pending : pend u s = a :: rest) : (doAct u a rest s).actsOwned = true := by
  obtain ⟨own, ownRest⟩ := next_owned hs (.inl pending)
  refine setPend_actsOwned (performAct_actsOwned hs) ?_
  rw [List.all_append, performAct_owned own, ownRest]
  rfl

theorem moveUnit_actsOwned {u : UnitId} {g : Grain} {s t : State} (hs : s.actsOwned = true)
    (h : moveUnit u g s = .next t) : t.actsOwned = true :=
  moveUnit_keeps (P := fun s => s.actsOwned = true) (fun s hs _ => setPend_actsOwned hs (beginActs_owned u s))
    (fun _ _ _ hs pending => doAct_actsOwned hs pending) hs h

/-- What the beginning of a step and every action of the unit's own keep, every move of the unit keeps. -/
theorem moveUnit_keeps_owned {u : UnitId} {P : State → Prop}
    (begins : ∀ s, P s → pend u s = [] → P (setPend u (beginActs u s) s))
    (acts : ∀ s a rest, P s → pend u s = a :: rest → actOf u a = true → rest.all (actOf u) = true →
      P (doAct u a rest s))
    {g : Grain} {s t : State} (owned : s.actsOwned = true) (hs : P s) (h : moveUnit u g s = .next t) : P t :=
  (moveUnit_keeps (P := fun s => s.actsOwned = true ∧ P s)
    (fun s hs between => ⟨setPend_actsOwned hs.1 (beginActs_owned u s), begins s hs.2 between⟩)
    (fun s a rest hs pending =>
      have own := next_owned hs.1 (.inl pending)
      ⟨doAct_actsOwned hs.1 pending, acts s a rest hs.2 pending own.1 own.2⟩)
    ⟨owned, hs⟩ h).2

theorem doMove_actsOwned {m : Move} {s t : State} (hs : s.actsOwned = true) (h : doMove m s = .next t) :
    t.actsOwned = true := by
  refine doMove_keeps (P := fun s => s.actsOwned = true) ?reset ?env (fun u g s t => moveUnit_actsOwned) hs h
  case reset =>
    intro s t _ h
    rw [hostReset_eq h]
    rfl
  case env =>
    intro m s t hs notReset notUnit h
    obtain ⟨_, _, _, _, _, _, _, _, _, _, _, rfl, -, -⟩ := doMove_env_frame notReset notUnit h
    exact hs

theorem exec_uop_actsOwned {i : Instr} {s t : State} (hs : s.actsOwned = true) (uop : formatOf i = .uop)
    (h : exec i s = .next t) : t.actsOwned = true := by
  obtain ⟨_, _, _, _, _, _, rfl⟩ := exec_uop_frame uop h
  exact hs

/-- Settles O10: an action puts only its own unit's actions in front of the rest, and nothing else writes a step under
way. -/
theorem actionsStayOwned : Obligations.ActionsStayOwned := fun _ _ hs h =>
  step_keeps (P := fun s => s.actsOwned = true) (fun _ _ _ _ hs => hs) (fun _ _ _ hs h => doMove_actsOwned hs h)
    (fun _ _ _ hs uop h => exec_uop_actsOwned hs uop h) hs h

/-! ### The SCB -/

/-- Settles O8: a reset leaves no byte listed, and every other move writes whole words of the SCB. -/
theorem memoryStaysCanonical : Obligations.MemoryStaysCanonical := by
  intro s t hs h
  refine step_keeps (P := fun s => s.memOk = true) (fun _ _ _ _ hs => hs) ?move ?op hs h
  case move =>
    intro m s t hs h
    by_cases isReset : m = .hostReset
    · subst isReset
      rw [hostReset_eq h]
      rfl
    · obtain ⟨ws, wrote⟩ := doMove_wrote isReset h
      exact wrote.memOk hs
  case op =>
    intro i s t hs uop h
    obtain ⟨_, _, _, _, _, _, rfl⟩ := exec_uop_frame uop h
    exact hs

/-! ### Duty registers and the PWM counter -/

theorem rangesOk_iff {s : State} :
    s.rangesOk = true ↔
      s.par.ok = true ∧ (∀ m, inDutyRange s.par (s.duty.get m) = true) ∧ s.tmrP.cnt.toNat < s.par.pwmPeriod.toNat := by
  have each : (∀ m, inDutyRange s.par (s.duty.get m) = true) ↔
      inDutyRange s.par s.duty.q0 = true ∧ inDutyRange s.par s.duty.q1 = true ∧ inDutyRange s.par s.duty.q2 = true ∧
        inDutyRange s.par s.duty.q3 = true := by
    rw [Fin.forall_fin_succ, Fin.forall_fin_succ, Fin.forall_fin_succ, Fin.forall_fin_one]
    rfl
  simp only [State.rangesOk, Bool.and_eq_true, decide_eq_true_eq, each]
  constructor
  · rintro ⟨⟨⟨⟨⟨ok, q0⟩, q1⟩, q2⟩, q3⟩, cnt⟩
    exact ⟨ok, ⟨q0, q1, q2, q3⟩, cnt⟩
  · rintro ⟨ok, ⟨q0, q1, q2, q3⟩, cnt⟩
    exact ⟨⟨⟨⟨⟨ok, q0⟩, q1⟩, q2⟩, q3⟩, cnt⟩

theorem rangesOk_congr {s t : State} (par : t.par = s.par) (duty : t.duty = s.duty) (cnt : t.tmrP.cnt = s.tmrP.cnt) :
    t.rangesOk = s.rangesOk := by
  simp only [State.rangesOk, par, duty, cnt]

/-- An action that writes a duty register clamps the value, and one that starts the PWM timer zeroes its counter. -/
theorem performAct_rangesOk (u : UnitId) (a : Act) {s : State} (hs : s.rangesOk = true) :
    (performAct u a s).2.rangesOk = true := by
  obtain ⟨ok, duty, cnt⟩ := rangesOk_iff.1 hs
  cases a
  case read n dst =>
    cases dst
    case duty m =>
      refine rangesOk_iff.2 ⟨ok, fun k => ?_, cnt⟩
      simp only [performAct, storeRead, Quad.get_set]
      split
      · exact inDutyRange_clampDuty ok _
      · exact duty k
    all_goals exact hs
  case tmrPConfigure => exact rangesOk_iff.2 ⟨ok, duty, Nat.lt_of_le_of_lt (Nat.zero_le _) cnt⟩
  case raise e =>
    rw [← hs]
    exact rangesOk_congr (raiseEvent_par e s) (raiseEvent_duty e s) (congrArg _ (raiseEvent_tmrP e s))
  case pollIfActive ch =>
    simp only [performAct]
    split <;> exact hs
  case readCfg got =>
    simp only [performAct]
    split <;> exact hs
  all_goals exact hs

theorem setPend_rangesOk (u : UnitId) (acts : List Act) (s : State) : (setPend u acts s).rangesOk = s.rangesOk := by
  cases u <;> rfl

/-- The counter stays below the period: an advance is shorter than a period, and wraps at it. -/
theorem timerPAdvance_rangesOk {n : Nat} {s t : State} (hs : s.rangesOk = true) (h : timerPAdvance n s = .next t) :
    t.rangesOk = true := by
  obtain ⟨ok, duty, cnt⟩ := rangesOk_iff.1 hs
  have fits := s.par.pwmPeriod.isLt
  unfold timerPAdvance at h
  split at h
  · cases h
  · next short =>
    split at h
    · cases h
      unfold advancePwm
      dsimp only
      split
      · next wraps =>
        have counter : s.tmrP.cnt.toNat + n - s.par.pwmPeriod.toNat < 2 ^ 32 := by omega
        refine rangesOk_iff.2 ⟨by simpa using ok, fun m => by simpa using duty m, ?_⟩
        simp only [raiseEvent_tmrP, raiseEvent_par, BitVec.toNat_ofNat, Nat.mod_eq_of_lt counter]
        omega
      · next below =>
        have counter : s.tmrP.cnt.toNat + n < 2 ^ 32 := by omega
        refine rangesOk_iff.2 ⟨ok, duty, ?_⟩
        simp only [BitVec.toNat_ofNat, Nat.mod_eq_of_lt counter]
        omega
    · cases h

/-- No move of the host or a timer but an advance of the PWM timer writes its counter. -/
theorem doMove_env_cnt {m : Move} {s t : State} (notReset : m ≠ .hostReset) (notUnit : ∀ u g, m ≠ .unit u g)
    (notAdvance : ∀ n, m ≠ .timerPAdvance n) (h : doMove m s = .next t) : t.tmrP.cnt = s.tmrP.cnt := by
  cases m
  case hostReset => exact absurd rfl notReset
  case unit u g => exact absurd rfl (notUnit u g)
  case timerPAdvance n => exact absurd rfl (notAdvance n)
  case hostStart u =>
    cases u <;> (cases h; split <;> rfl)
  case hostRaise e =>
    cases e
    case newData | setArmed | clearArmed | controllerStop => cases h; exact congrArg _ (raiseEvent_tmrP _ s)
    all_goals cases h
  all_goals
    simp only [doMove, hostWrite, hostRead, hostAccess, hostInject, hostAck, timerSFire] at h
    repeat' split at h
    all_goals cases h
    all_goals rfl

/-- Settles O9: the parameters' order keeps a zero counter and the reset duty values in range, and every writer of a duty
register clamps. -/
theorem rangesStay : Obligations.RangesStay := by
  intro s t hs h
  refine step_keeps (P := fun s => s.rangesOk = true) (fun _ _ _ _ hs => hs)
    (fun m s t hs h => doMove_keeps (P := fun s => s.rangesOk = true) ?reset ?env ?units hs h) ?op hs h
  case reset =>
    intro s t hs h
    obtain ⟨ok, -, cnt⟩ := rangesOk_iff.1 hs
    rw [hostReset_eq h]
    refine rangesOk_iff.2 ⟨ok, fun m => ?_, Nat.lt_of_le_of_lt (Nat.zero_le _) cnt⟩
    simpa [State.resetWith] using inDutyRange_dutyBase ok
  case env =>
    intro m s t hs notReset notUnit h
    by_cases isAdvance : ∃ n, m = .timerPAdvance n
    · obtain ⟨n, rfl⟩ := isAdvance
      exact timerPAdvance_rangesOk hs h
    · have cnt := doMove_env_cnt notReset notUnit (fun n e => isAdvance ⟨n, e⟩) h
      obtain ⟨_, _, _, _, _, _, _, _, _, _, _, rfl, -, -⟩ := doMove_env_frame notReset notUnit h
      rw [← hs]
      exact rangesOk_congr rfl rfl cnt
  case units =>
    intro u g s t hs h
    exact moveUnit_keeps (P := fun s => s.rangesOk = true) (fun s hs _ => (setPend_rangesOk u _ s).trans hs)
      (fun s a rest hs _ => (setPend_rangesOk u _ _).trans (performAct_rangesOk u a hs)) hs h
  case op =>
    intro i s t hs uop h
    obtain ⟨_, _, _, _, _, _, rfl⟩ := exec_uop_frame uop h
    exact hs

/-! ### Overrun marks -/

theorem ovrAfter_of_marked (old : Event) : ovrAfter old true = true := rfl

/-- A code set on any latch leaves a set mark set. -/
theorem latchSet_marked {ch : Channel} (c : Channel) (e : Event) {s : State} (marked : s.ovr.get ch = true) :
    (latchSet c e s).ovr.get ch = true := by
  simp only [latchSet, PerChannel.get_set]
  split
  · next same => rw [← same, marked, ovrAfter_of_marked]
  · exact marked

theorem raiseEvent_marked {ch : Channel} (e : Event) {s : State} (marked : s.ovr.get ch = true) :
    (raiseEvent e s).ovr.get ch = true := by
  unfold raiseEvent
  dsimp only
  cases routeChannel e with
  | none => split <;> exact marked
  | some c =>
    have set := latchSet_marked c e marked
    split <;> exact set

theorem performAct_marked (u : UnitId) (a : Act) {ch : Channel} {s : State} (marked : s.ovr.get ch = true) :
    (performAct u a s).2.ovr.get ch = true := by
  cases a
  case raise e => exact raiseEvent_marked e marked
  case read n dst => cases dst <;> exact marked
  case pollIfActive c =>
    simp only [performAct]
    split <;> exact marked
  case readCfg got =>
    simp only [performAct]
    split <;> exact marked
  all_goals exact marked

/-- A move of the host or a timer writes no latch and no mark, or sets a code on one latch. -/
theorem doMove_env_latches {m : Move} {s t : State} (notReset : m ≠ .hostReset) (notUnit : ∀ u g, m ≠ .unit u g)
    (h : doMove m s = .next t) :
    (t.latch = s.latch ∧ t.ovr = s.ovr) ∨
      ∃ ch e, e ≠ .none ∧ t.latch = (latchSet ch e s).latch ∧ t.ovr = (latchSet ch e s).ovr := by
  cases m
  case hostReset => exact absurd rfl notReset
  case unit u g => exact absurd rfl (notUnit u g)
  case hostStart u =>
    cases u <;> (cases h; split <;> exact .inl ⟨rfl, rfl⟩)
  case hostRaise e =>
    cases e
    case newData | setArmed | clearArmed | controllerStop =>
      cases h
      exact .inr ⟨.cuCtl, _, by decide, rfl, rfl⟩
    all_goals cases h
  case hostInject ch e =>
    simp only [doMove, hostInject] at h
    split at h
    · cases h
    · split at h <;> cases h
      next code => exact .inr ⟨ch, e, code, rfl, rfl⟩
  case timerSFire =>
    simp only [doMove, timerSFire] at h
    split at h <;> cases h
    exact .inr ⟨.cuTick, .sampleTick, by decide, rfl, rfl⟩
  case timerPAdvance n =>
    simp only [doMove, timerPAdvance] at h
    repeat' split at h
    all_goals cases h
    unfold advancePwm
    dsimp only
    split
    · exact .inr ⟨.muTick, .pwmTick, by decide, rfl, rfl⟩
    · exact .inl ⟨rfl, rfl⟩
  all_goals
    simp only [doMove, hostWrite, hostRead, hostAccess, hostAck] at h
    repeat' split at h
    all_goals cases h
    all_goals exact .inl ⟨rfl, rfl⟩

theorem exec_uop_marked {i : Instr} {ch : Channel} {s t : State} (uop : formatOf i = .uop) (h : exec i s = .next t)
    (marked : s.ovr.get ch = true) : t.ovr.get ch = true := by
  cases i
  case raise e => cases h; exact raiseEvent_marked e marked
  case configure | mix => cases h; exact marked
  case poll u c =>
    simp only [exec, execPoll] at h
    split at h <;> cases h
    exact marked
  case run k x =>
    simp only [exec, execRun] at h
    split at h <;> cases h
    exact marked
  case reset k =>
    simp only [exec, execReset] at h
    split at h <;> cases h
    exact marked
  all_goals cases uop

/-- A line of a scenario is a move, or an operation that its bytes decode to. -/
theorem runLine_cases {l : Line} {s t : State} (h : runLine l s = .next t) :
    (∃ m, l = .move m ∧ doMove m s = .next t) ∨ ∃ i, formatOf i = .uop ∧ exec i s = .next t := by
  cases l with
  | move m => exact .inl ⟨m, rfl, h⟩
  | op bs =>
    simp only [runLine, runDecoded] at h
    split at h
    · next i rest decoded => exact .inr ⟨i, decode_uop decoded, h⟩
    · cases h

/-- Settles O15: a mark is written only where a code is set on its latch, and there it is or-ed. -/
theorem overrunMarkSticky : Obligations.OverrunMarkSticky := by
  intro s t l ch notReset h marked
  rcases runLine_cases h with ⟨m, rfl, h⟩ | ⟨i, uop, h⟩
  · by_cases isUnit : ∃ u g, m = .unit u g
    · obtain ⟨u, g, rfl⟩ := isUnit
      exact moveUnit_keeps (u := u) (g := g) (P := fun s => s.ovr.get ch = true)
        (fun s marked _ => by cases u <;> exact marked)
        (fun s a rest marked _ => by cases u <;> exact performAct_marked _ a marked) marked h
    · rcases doMove_env_latches (fun e => notReset (e ▸ rfl)) (fun u g e => isUnit ⟨u, g, e⟩) h with
        ⟨-, same⟩ | ⟨c, e, -, -, set⟩
      · rw [same]; exact marked
      · rw [set]; exact latchSet_marked c e marked
  · exact exec_uop_marked uop h marked

end Sys2Proof.Machine
end

section
/-!
The CU's loop is entered only with configured filters (44_controller_unit.md R203), O11; a halt ends its unit's step, and
MU_HALT finds the pins low (45_motor_unit.md R250), O12 and O13. Each condition follows the actions left of a step.
-/

namespace Sys2Proof.Machine

/-! ### Writes at the front of a step -/

@[simp] theorem entersConfigured_writeActs (ws : List (WordOff × Word)) (rest : List Act) :
    entersConfigured (writeActs ws ++ rest) = entersConfigured rest := by
  induction ws with
  | nil => rfl
  | cons w ws ih => exact ih

@[simp] theorem haltsCu_writeActs (ws : List (WordOff × Word)) (rest : List Act) :
    haltsCu (writeActs ws ++ rest) = haltsCu rest := by
  induction ws with
  | nil => rfl
  | cons w ws ih => exact ih

/-! ### Configured filters -/

theorem configured_iff {s : State} : s.configured = true ↔ ∀ k, (s.fe.get k).state ≠ .unconfigured := by
  rw [Fin.forall_fin_succ, Fin.forall_fin_succ, Fin.forall_fin_succ, Fin.forall_fin_one]
  simp only [State.configured, Bool.and_eq_true, decide_eq_true_eq, and_assoc]
  rfl

theorem configOk_iff {s : State} :
    s.configOk = true ↔
      (∀ k, (s.fe.get k).state ≠ .unconfigured) ∨ (s.cuState ≠ .active ∧ entersConfigured s.cuPend = true) := by
  rw [← configured_iff]
  simp [State.configOk]

/-- No action takes an instance's configuration away. -/
theorem performAct_configured (u : UnitId) (a : Act) {s : State} (hs : ∀ k, (s.fe.get k).state ≠ .unconfigured)
    (k : Fin 4) : ((performAct u a s).2.fe.get k).state ≠ .unconfigured := by
  cases a
  case read n dst => cases dst <;> exact hs k
  case raise e => simpa only [performAct, raiseEvent_fe] using hs k
  case pollIfActive ch =>
    simp only [performAct]
    split <;> exact hs k
  case readCfg got =>
    simp only [performAct]
    split <;> exact hs k
  case configure ws => simp [performAct, configureAll, feConfigure]
  case control =>
    match k with
    | 0 | 1 | 2 | 3 => simp [performAct, runFilters, feRun, Quad.get]
  case resetFilters => simpa [performAct, resetFilters, feReset] using hs k
  all_goals exact hs k

/-- Outside CU_AWAIT's rows no handler enters the loop, and CU_AWAIT's `motor-ready` leads to the configuration step. -/
theorem entersConfigured_handlerActs (e : Event) (s : State) (rest : List Act) :
    entersConfigured (handlerActs .cu e s ++ rest) = entersConfigured rest := by
  unfold handlerActs
  cases cuTable s <;> cases e <;> rfl

theorem entersConfigured_beginActs {s : State} (outside : s.cuState ≠ .active) :
    entersConfigured (beginActs .cu s) = true := by
  unfold beginActs
  cases state : s.cuState
  case active => exact absurd state outside
  all_goals rfl

/-- Away from the loop, an action that does not configure the filters leaves the CU away from the loop. -/
theorem performAct_configOk {a : Act} {rest : List Act} {s : State} (own : actOf .cu a = true)
    (outside : s.cuState ≠ .active) (enters : entersConfigured (a :: rest) = true) :
    (∀ k, ((performAct .cu a s).2.fe.get k).state ≠ .unconfigured) ∨
      ((performAct .cu a s).2.cuState ≠ .active ∧ entersConfigured ((performAct .cu a s).1 ++ rest) = true) := by
  cases a
  case configure ws => exact .inl fun k => by simp [performAct, configureAll, feConfigure]
  case goCu st =>
    cases st
    case active => cases enters
    all_goals exact .inr ⟨nofun, enters⟩
  case readCfg got =>
    refine .inr ?_
    simp only [performAct]
    split <;> exact ⟨outside, rfl⟩
  case dispatch e => exact .inr ⟨outside, (entersConfigured_handlerActs e s rest).trans enters⟩
  case read n dst =>
    cases dst <;> exact .inr ⟨outside, enters⟩
  case raise e => exact .inr ⟨by simpa [performAct] using outside, enters⟩
  case pollIfActive ch =>
    have left : unitActive .cu s = false := by simp [unitActive, outside]
    exact .inr (by simpa [performAct, left] using ⟨outside, enters⟩)
  case maskNewData | maskSample =>
    refine .inr ?_
    simp only [performAct]
    split
    · refine ⟨outside, ?_⟩
      rw [List.append_assoc, entersConfigured_writeActs]
      exact enters
    · exact ⟨outside, enters⟩
  case control =>
    refine .inr ⟨outside, ?_⟩
    simp only [performAct]
    rw [List.append_assoc, entersConfigured_writeActs]
    exact enters
  case baseline => exact .inr ⟨outside, (entersConfigured_writeActs _ rest).trans enters⟩
  case compareIfActive | compareOne => cases own
  all_goals exact .inr ⟨outside, enters⟩

theorem moveUnit_cu_configOk {g : Grain} {s t : State} (owned : s.actsOwned = true) (hs : s.configOk = true)
    (h : moveUnit .cu g s = .next t) : t.configOk = true := by
  refine moveUnit_keeps_owned (P := fun s => s.configOk = true) ?begins ?acts owned hs h
  case begins =>
    intro s hs between
    rcases configOk_iff.1 hs with all | ⟨outside, -⟩
    · exact configOk_iff.2 (.inl all)
    · exact configOk_iff.2 (.inr ⟨outside, entersConfigured_beginActs outside⟩)
  case acts =>
    intro s a rest hs pending own _
    rcases configOk_iff.1 hs with all | ⟨outside, enters⟩
    · exact configOk_iff.2 (.inl (performAct_configured .cu a all))
    · rw [show s.cuPend = a :: rest from pending] at enters
      exact configOk_iff.2 (performAct_configOk own outside enters)

theorem doMove_configOk {m : Move} {s t : State} (owned : s.actsOwned = true) (hs : s.configOk = true)
    (h : doMove m s = .next t) : t.configOk = true := by
  refine (doMove_keeps (P := fun s => s.actsOwned = true ∧ s.configOk = true) ?reset ?env ?units ⟨owned, hs⟩ h).2
  case reset =>
    intro s t _ h
    rw [hostReset_eq h]
    exact ⟨rfl, rfl⟩
  case env =>
    intro m s t ⟨owned, hs⟩ notReset notUnit h
    refine ⟨doMove_actsOwned owned h, ?_⟩
    obtain ⟨_, _, _, _, _, _, _, _, _, _, _, rfl, cu, -⟩ := doMove_env_frame notReset notUnit h
    rcases configOk_iff.1 hs with all | ⟨outside, enters⟩
    · exact configOk_iff.2 (.inl all)
    · refine configOk_iff.2 (.inr ⟨?_, enters⟩)
      rcases cu with rfl | ⟨-, rfl⟩
      · exact outside
      · exact nofun
  case units =>
    intro u g s t ⟨owned, hs⟩ h
    refine ⟨moveUnit_actsOwned owned h, ?_⟩
    cases u with
    | cu => exact moveUnit_cu_configOk owned hs h
    | mu =>
      obtain ⟨_, _, ⟨_, _, _, _, _, _, _, _, rfl⟩, rfl⟩ := moveUnit_mu owned h
      exact hs

theorem exec_uop_configOk {i : Instr} {s t : State} (hs : s.configOk = true) (uop : formatOf i = .uop)
    (h : exec i s = .next t) : t.configOk = true := by
  rcases configOk_iff.1 hs with all | away
  · exact configOk_iff.2 (.inl fun k => exec_uop_configured uop h k (all k))
  · obtain ⟨_, _, _, _, _, _, rfl⟩ := exec_uop_frame uop h
    exact configOk_iff.2 (.inr away)

/-- Settles O11: the actions that lead into the loop configure the filters first, and no action unconfigures one. -/
theorem configuredBeforeActive : Obligations.ConfiguredBeforeActive := by
  intro s t owned hs h
  have kept : t.configOk = true :=
    (step_keeps (P := fun s => s.actsOwned = true ∧ s.configOk = true) (fun _ _ _ _ hs => hs)
      (fun _ _ _ hs h => ⟨doMove_actsOwned hs.1 h, doMove_configOk hs.1 hs.2 h⟩)
      (fun _ _ _ hs uop h => ⟨exec_uop_actsOwned hs.1 uop h, exec_uop_configOk hs.2 uop h⟩) ⟨owned, hs⟩ h).2
  refine ⟨kept, fun active => ?_⟩
  rcases configOk_iff.1 kept with all | ⟨outside, -⟩
  · exact all
  · exact absurd active outside

/-! ### Halts -/

/-- The CU's half of `State.haltOk`. -/
def cuHaltOk (st : CuState) (acts : List Act) : Bool := if st = .halt then finalActs acts else haltsCu acts

/-- The MU's half of `State.haltOk`. -/
def muHaltOk (st : MuState) (low : Bool) (acts : List Act) : Bool :=
  if st = .halt then low && finalActs acts else haltsMu low acts

theorem haltOk_iff {s : State} :
    s.haltOk = true ↔ cuHaltOk s.cuState s.cuPend = true ∧ muHaltOk s.muState s.pinsLow s.muPend = true := by
  rw [State.haltOk, Bool.and_eq_true]
  rfl

theorem pinsLow_iff {s : State} : s.pinsLow = true ↔ ∀ m, s.pin.get m = false := by
  rw [Fin.forall_fin_succ, Fin.forall_fin_succ, Fin.forall_fin_succ, Fin.forall_fin_one]
  simp only [State.pinsLow, Bool.and_eq_true, Bool.not_eq_true', and_assoc]
  rfl

theorem finalActs_cons {a : Act} {rest : List Act} (h : finalActs (a :: rest) = true) :
    ((∃ ch, a = .pollIfActive ch) ∨ a = .compareIfActive) ∧ finalActs rest = true := by
  simp only [finalActs, List.all_cons, Bool.and_eq_true] at h ⊢
  obtain ⟨first, rest⟩ := h
  refine ⟨?_, rest⟩
  cases a
  case pollIfActive ch => exact .inl ⟨ch, rfl⟩
  case compareIfActive => exact .inr rfl
  all_goals cases first

theorem haltsCu_of_final : ∀ {acts : List Act}, finalActs acts = true → haltsCu acts = true
  | [], _ => rfl
  | a :: rest, h => by
    obtain ⟨⟨ch, rfl⟩ | rfl, final⟩ := finalActs_cons h
    · exact final
    · exact haltsCu_of_final (acts := rest) final

theorem haltsMu_of_final {low : Bool} : ∀ {acts : List Act}, finalActs acts = true → haltsMu low acts = true
  | [], _ => rfl
  | a :: rest, h => by
    obtain ⟨⟨ch, rfl⟩ | rfl, final⟩ := finalActs_cons h
    · exact final
    · exact haltsMu_of_final (acts := rest) final

/-- What may follow with some pin high may follow with the pins low. -/
theorem haltsMu_mono {low low' : Bool} (h : low = true → low' = true) {acts : List Act} (hm : haltsMu low acts = true) :
    haltsMu low' acts = true := by
  induction acts generalizing low low' with
  | nil => rfl
  | cons a rest ih =>
    cases a
    case goMu st =>
      cases st
      case halt =>
        simp only [haltsMu, Bool.and_eq_true] at hm ⊢
        exact ⟨h hm.1, hm.2⟩
      all_goals exact ih h hm
    case poll | pollIfActive | dispatch => exact hm
    case assertPins m => exact hm
    case deassertPins m =>
      refine ih (low := low || decide (m = allPins)) ?_ hm
      cases low with
      | true => simp [h]
      | false => cases low' <;> simp
    all_goals exact ih h hm

/-- Outside its loop a unit's final actions do nothing. -/
theorem performAct_of_final {u : UnitId} {a : Act} {rest : List Act} {s : State} (left : unitActive u s = false)
    (final : finalActs (a :: rest) = true) : performAct u a s = ([], s) := by
  obtain ⟨⟨ch, rfl⟩ | rfl, -⟩ := finalActs_cons final <;> simp [performAct, left]

/-! ### The CU's halt -/

theorem haltsCu_handlerActs (e : Event) (s : State) {rest : List Act} (final : finalActs rest = true) :
    haltsCu (handlerActs .cu e s ++ rest) = true := by
  have halts := haltsCu_of_final final
  unfold handlerActs
  cases cuTable s <;> cases e
  case active.motorReady => exact final
  all_goals exact halts

/-- An action of the CU that halts it is its step's last but for final ones. -/
theorem performAct_cuHaltOk {a : Act} {rest : List Act} {s : State} (own : actOf .cu a = true)
    (h : cuHaltOk s.cuState (a :: rest) = true) :
    cuHaltOk (performAct .cu a s).2.cuState ((performAct .cu a s).1 ++ rest) = true := by
  by_cases halted : s.cuState = .halt
  · have final : finalActs (a :: rest) = true := by simpa [cuHaltOk, halted] using h
    rw [performAct_of_final (by simp [unitActive, halted]) final]
    simpa [cuHaltOk, halted] using (finalActs_cons final).2
  · have still : ∀ {acts}, haltsCu acts = true → cuHaltOk s.cuState acts = true := by
      intro acts halts
      simpa [cuHaltOk, halted] using halts
    have halts : haltsCu (a :: rest) = true := by simpa [cuHaltOk, halted] using h
    cases a
    case goCu st =>
      cases st
      case halt => exact halts
      all_goals exact halts
    case dispatch e => exact still (haltsCu_handlerActs e s halts)
    case poll ch => exact still halts
    case pollIfActive ch =>
      simp only [performAct]
      split
      · exact still halts
      · exact still (haltsCu_of_final halts)
    case read n dst => cases dst <;> exact still halts
    case readCfg got =>
      simp only [performAct]
      split <;> exact still halts
    case raise e =>
      rw [show (performAct .cu (.raise e) s).2.cuState = s.cuState from raiseEvent_cuState e s]
      exact still halts
    case maskNewData | maskSample =>
      simp only [performAct]
      split
      · rw [List.append_assoc]
        exact still ((haltsCu_writeActs _ _).trans halts)
      · exact still halts
    case control =>
      simp only [performAct]
      rw [List.append_assoc]
      exact still ((haltsCu_writeActs _ _).trans halts)
    case baseline => exact still ((haltsCu_writeActs _ rest).trans halts)
    case compareIfActive | compareOne => cases own
    all_goals exact still halts

/-! ### The MU's halt -/

theorem haltsMu_handlerActs (low : Bool) (e : Event) (s : State) {rest : List Act} (final : finalActs rest = true) :
    haltsMu low (handlerActs .mu e s ++ rest) = true := by
  have halts : ∀ {low}, haltsMu low rest = true := haltsMu_of_final final
  cases e
  case none | outputReady | pwmTick => exact halts
  all_goals
    show haltsMu (low || decide (allPins = allPins)) _ = true
    simpa [haltsMu] using final

/-- An action of the MU that halts it finds the pins low, and is its step's last but for final ones. -/
theorem performAct_muHaltOk {a : Act} {rest : List Act} {s : State} (own : actOf .mu a = true)
    (h : muHaltOk s.muState s.pinsLow (a :: rest) = true) :
    muHaltOk (performAct .mu a s).2.muState (performAct .mu a s).2.pinsLow ((performAct .mu a s).1 ++ rest) = true := by
  by_cases halted : s.muState = .halt
  · have h' : s.pinsLow = true ∧ finalActs (a :: rest) = true := by simpa [muHaltOk, halted] using h
    rw [performAct_of_final (by simp [unitActive, halted]) h'.2]
    simpa [muHaltOk, halted] using ⟨h'.1, (finalActs_cons h'.2).2⟩
  · have still : ∀ {low acts}, haltsMu low acts = true → muHaltOk s.muState low acts = true := by
      intro low acts halts
      simpa [muHaltOk, halted] using halts
    have halts : haltsMu s.pinsLow (a :: rest) = true := by simpa [muHaltOk, halted] using h
    cases a
    case goMu st =>
      cases st
      case halt => exact halts
      all_goals exact halts
    case dispatch e => exact still (haltsMu_handlerActs s.pinsLow e s halts)
    case poll ch => exact still halts
    case pollIfActive ch =>
      simp only [performAct]
      split
      · exact still halts
      · exact still (haltsMu_of_final halts)
    case raise e =>
      have low : (raiseEvent e s).pinsLow = s.pinsLow := by simp only [State.pinsLow, raiseEvent_pin]
      simp only [performAct, raiseEvent_muState, low]
      exact still halts
    case read n dst =>
      cases dst
      case duty => exact still halts
      all_goals cases own
    case deassertPins m =>
      refine still (haltsMu_mono (fun lowered => ?_) (show haltsMu (s.pinsLow || decide (m = allPins)) rest = true from halts))
      refine pinsLow_iff.2 fun k => ?_
      simp only [performAct, deassertPins_pin_get]
      simp only [Bool.or_eq_true, decide_eq_true_eq] at lowered
      rcases lowered with low | rfl
      · rw [pinsLow_iff.1 low k, Bool.false_and]
      · have masked : allPins.getLsbD k.val = true := by revert k; decide
        rw [masked, Bool.not_true, Bool.and_false]
    case assertPins m =>
      exact still (haltsMu_mono (low := false) nofun halts)
    case compareIfActive =>
      simp only [performAct]
      split <;> exact still halts
    case compareOne m =>
      simp only [performAct]
      split
      · exact still (haltsMu_mono (low' := s.pinsLow || decide (pinMask m = allPins)) (fun low => by simp [low])
          (show haltsMu s.pinsLow rest = true from halts))
      · exact still halts
    case tmrPConfigure | tmrPClearFlag => exact still halts
    all_goals cases own

/-! ### Every move -/

theorem beginActs_cuHaltOk (s : State) : cuHaltOk s.cuState (beginActs .cu s) = true := by
  unfold beginActs
  cases s.cuState <;> rfl

theorem beginActs_muHaltOk {s : State} (low : s.muState = .halt → s.pinsLow = true) :
    muHaltOk s.muState s.pinsLow (beginActs .mu s) = true := by
  unfold beginActs
  cases state : s.muState
  case halt => simpa [muHaltOk, finalActs] using low state
  all_goals rfl

/-- In MU_HALT the pins are low. -/
theorem pinsLow_of_muHaltOk {s : State} {acts : List Act} (h : muHaltOk s.muState s.pinsLow acts = true)
    (halted : s.muState = .halt) : s.pinsLow = true := by
  simp only [muHaltOk, halted, if_true, Bool.and_eq_true] at h
  exact h.1

theorem moveUnit_haltOk {u : UnitId} {g : Grain} {s t : State} (owned : s.actsOwned = true) (hs : s.haltOk = true)
    (h : moveUnit u g s = .next t) : t.haltOk = true := by
  obtain ⟨cu, mu⟩ := haltOk_iff.1 hs
  cases u with
  | cu =>
    have kept : cuHaltOk t.cuState t.cuPend = true := by
      refine moveUnit_keeps_owned (u := .cu) (P := fun s => cuHaltOk s.cuState s.cuPend = true)
        (fun s _ _ => beginActs_cuHaltOk s) (fun s a rest hs pending own _ => ?_) owned cu h
      rw [show s.cuPend = a :: rest from pending] at hs
      exact performAct_cuHaltOk own hs
    obtain ⟨_, _, ⟨_, _, _, _, _, _, _, _, _, _, _, _, _, rfl⟩, rfl⟩ := moveUnit_cu owned h
    exact haltOk_iff.2 ⟨kept, mu⟩
  | mu =>
    have kept : muHaltOk t.muState t.pinsLow t.muPend = true := by
      refine moveUnit_keeps_owned (u := .mu) (P := fun s => muHaltOk s.muState s.pinsLow s.muPend = true)
        (fun s hs _ => beginActs_muHaltOk (pinsLow_of_muHaltOk hs)) (fun s a rest hs pending own _ => ?_) owned mu h
      rw [show s.muPend = a :: rest from pending] at hs
      exact performAct_muHaltOk own hs
    obtain ⟨_, _, ⟨_, _, _, _, _, _, _, _, rfl⟩, rfl⟩ := moveUnit_mu owned h
    exact haltOk_iff.2 ⟨cu, kept⟩

theorem doMove_haltOk {m : Move} {s t : State} (owned : s.actsOwned = true) (hs : s.haltOk = true)
    (h : doMove m s = .next t) : t.haltOk = true := by
  refine (doMove_keeps (P := fun s => s.actsOwned = true ∧ s.haltOk = true) ?reset ?env ?units ⟨owned, hs⟩ h).2
  case reset =>
    intro s t _ h
    rw [hostReset_eq h]
    exact ⟨rfl, rfl⟩
  case env =>
    intro m s t ⟨owned, hs⟩ notReset notUnit h
    refine ⟨doMove_actsOwned owned h, ?_⟩
    obtain ⟨cu, mu⟩ := haltOk_iff.1 hs
    obtain ⟨_, _, _, _, _, _, _, _, _, _, _, rfl, cuState, muState⟩ := doMove_env_frame notReset notUnit h
    refine haltOk_iff.2 ⟨?_, ?_⟩
    · rcases cuState with rfl | ⟨held, rfl⟩
      · exact cu
      · rw [held] at cu; exact cu
    · rcases muState with rfl | ⟨held, rfl⟩
      · exact mu
      · rw [held] at mu; exact mu
  case units =>
    intro u g s t ⟨owned, hs⟩ h
    exact ⟨moveUnit_actsOwned owned h, moveUnit_haltOk owned hs h⟩

theorem exec_uop_haltOk {i : Instr} {s t : State} (hs : s.haltOk = true) (uop : formatOf i = .uop)
    (h : exec i s = .next t) : t.haltOk = true := by
  obtain ⟨_, _, _, _, _, _, rfl⟩ := exec_uop_frame uop h
  exact hs

/-- Settles O12: the MU's actions left say at every point whether the pins are low when the halt comes, and nothing but
final actions comes after it. -/
theorem haltedMotorsStayLow : Obligations.HaltedMotorsStayLow := by
  intro s t owned hs h
  have kept : t.haltOk = true :=
    (step_keeps (P := fun s => s.actsOwned = true ∧ s.haltOk = true) (fun _ _ _ _ hs => hs)
      (fun _ _ _ hs h => ⟨doMove_actsOwned hs.1 h, doMove_haltOk hs.1 hs.2 h⟩)
      (fun _ _ _ hs uop h => ⟨exec_uop_actsOwned hs.1 uop h, exec_uop_haltOk hs.2 uop h⟩) ⟨owned, hs⟩ h).2
  exact ⟨kept, fun halted => pinsLow_iff.1 (pinsLow_of_muHaltOk (haltOk_iff.1 kept).2 halted)⟩

/-! ### A halted unit -/

/-- A unit that begins no step and holds only final actions changes nothing but what is left of its step. -/
theorem moveUnit_idle {u : UnitId} {g : Grain} {s t : State} (left : unitActive u s = false)
    (noStep : beginActs u s = []) (final : finalActs (pend u s) = true) (h : moveUnit u g s = .next t) :
    ∃ acts, t = setPend u acts s := by
  have same : ∀ acts, unitActive u (setPend u acts s) = false ∧ beginActs u (setPend u acts s) = [] := by
    intro acts
    rw [← left, ← noStep]
    cases u <;> exact ⟨rfl, rfl⟩
  have kept : ∃ acts, finalActs acts = true ∧ t = setPend u acts s := by
    refine moveUnit_keeps (P := fun x => ∃ acts, finalActs acts = true ∧ x = setPend u acts s) ?begins ?acts
      ⟨pend u s, final, (setPend_pend u s).symm⟩ h
    case begins =>
      rintro _ ⟨acts, -, rfl⟩ -
      exact ⟨[], rfl, by rw [(same acts).2, setPend_setPend]⟩
    case acts =>
      rintro _ a rest ⟨acts, final, rfl⟩ pending
      rw [pend_setPend] at pending
      subst pending
      refine ⟨rest, (finalActs_cons final).2, ?_⟩
      rw [doAct, performAct_of_final (same _).1 final, List.nil_append, setPend_setPend]
  obtain ⟨acts, -, rest⟩ := kept
  exact ⟨acts, rest⟩

theorem latchSet_latch_ne_none {ch : Channel} (c : Channel) {e : Event} (code : e ≠ .none) {s : State}
    (full : s.latch.get ch ≠ .none) : (latchSet c e s).latch.get ch ≠ .none := by
  simp only [latchSet, PerChannel.get_set]
  split
  · exact latchAfter_ne_none _ _ code
  · exact full

theorem routeChannel_none : routeChannel .none = none := rfl

theorem raiseEvent_latch_ne_none {ch : Channel} (e : Event) {s : State} (full : s.latch.get ch ≠ .none) :
    (raiseEvent e s).latch.get ch ≠ .none := by
  rw [raiseEvent_latch]
  cases route : routeChannel e with
  | none => exact full
  | some c =>
    have code : e ≠ .none := by
      rintro rfl
      rw [routeChannel_none] at route
      cases route
    exact latchSet_latch_ne_none c code full

/-- A unit's own actions empty no latch but its own. -/
theorem performAct_latch_ne_none {u : UnitId} {a : Act} (own : actOf u a = true) {ch : Channel} (foreign : ch.owner ≠ u)
    {s : State} (full : s.latch.get ch ≠ .none) : (performAct u a s).2.latch.get ch ≠ .none := by
  have polled : ∀ c, c.owner = u → (pollChannel c s).2.latch.get ch ≠ .none := by
    rintro c rfl
    have other : ch ≠ c := fun same => foreign (same ▸ rfl)
    simpa only [pollChannel, PerChannel.get_set, if_neg other] using full
  have owner : ∀ c, (a = .poll c ∨ a = .pollIfActive c) → c.owner = u := by
    rintro c (rfl | rfl) <;> cases u <;> simpa [actOf] using own
  cases a
  case poll c => exact polled c (owner c (.inl rfl))
  case pollIfActive c =>
    simp only [performAct]
    split
    · exact polled c (owner c (.inr rfl))
    · exact full
  case raise e => exact raiseEvent_latch_ne_none e full
  case read n dst => cases dst <;> exact full
  case readCfg got =>
    simp only [performAct]
    split <;> exact full
  all_goals exact full

theorem setPend_latch (u : UnitId) (acts : List Act) (s : State) : (setPend u acts s).latch = s.latch := by
  cases u <;> rfl

theorem moveUnit_latch_ne_none {u : UnitId} {g : Grain} {ch : Channel} {s t : State} (owned : s.actsOwned = true)
    (foreign : ch.owner ≠ u) (full : s.latch.get ch ≠ .none) (h : moveUnit u g s = .next t) :
    t.latch.get ch ≠ .none := by
  refine moveUnit_keeps_owned (P := fun s => s.latch.get ch ≠ .none) ?begins ?acts owned full h
  case begins =>
    intro s full _
    rwa [setPend_latch]
  case acts =>
    intro s a rest full _ own _
    rw [doAct, setPend_latch]
    exact performAct_latch_ne_none own foreign full

theorem doMove_env_latch_ne_none {m : Move} {ch : Channel} {s t : State} (notReset : m ≠ .hostReset)
    (notUnit : ∀ u g, m ≠ .unit u g) (full : s.latch.get ch ≠ .none) (h : doMove m s = .next t) :
    t.latch.get ch ≠ .none := by
  rcases doMove_env_latches notReset notUnit h with ⟨same, -⟩ | ⟨c, e, code, set, -⟩
  · rwa [same]
  · rw [set]
    exact latchSet_latch_ne_none c code full

/-- Settles O13: a halted unit's own moves only shorten its step; the other unit's moves and the environment's write
neither its registers nor an empty code on its latches. -/
theorem haltIsFinal : Obligations.HaltIsFinal := by
  intro s t m owned hs notReset h
  obtain ⟨cu, mu⟩ := haltOk_iff.1 hs
  refine ⟨fun halted => ?cu, fun halted => ?mu⟩
  case cu =>
    have final : finalActs s.cuPend = true := by simpa [cuHaltOk, halted] using cu
    cases m
    case unit u g =>
      cases u with
      | cu =>
        obtain ⟨_, rfl⟩ := moveUnit_idle (u := .cu) (by simp [unitActive, halted]) (by simp [beginActs, halted]) final h
        exact ⟨halted, rfl, rfl, rfl, rfl, rfl, rfl, rfl, id, id⟩
      | mu =>
        have latches := fun ch foreign full => moveUnit_latch_ne_none (ch := ch) owned foreign full h
        obtain ⟨_, _, ⟨_, _, _, _, _, _, _, _, rfl⟩, rfl⟩ := moveUnit_mu owned h
        exact ⟨halted, rfl, rfl, rfl, rfl, rfl, rfl, rfl, latches .cuCtl (by decide), latches .cuTick (by decide)⟩
    all_goals
      have latches := fun ch full => doMove_env_latch_ne_none (ch := ch) notReset nofun full h
      obtain ⟨_, _, _, _, _, _, _, _, _, _, _, rfl, cuState, -⟩ := doMove_env_frame notReset nofun h
      refine ⟨?_, rfl, rfl, rfl, rfl, rfl, rfl, rfl, latches .cuCtl, latches .cuTick⟩
      simpa [halted] using cuState
  case mu =>
    have final : finalActs s.muPend = true := by
      simp only [muHaltOk, halted, if_true, Bool.and_eq_true] at mu
      exact mu.2
    cases m
    case unit u g =>
      cases u with
      | mu =>
        obtain ⟨_, rfl⟩ := moveUnit_idle (u := .mu) (by simp [unitActive, halted]) (by simp [beginActs, halted]) final h
        exact ⟨halted, rfl, rfl, rfl, id, id⟩
      | cu =>
        have latches := fun ch foreign full => moveUnit_latch_ne_none (ch := ch) owned foreign full h
        obtain ⟨_, _, ⟨_, _, _, _, _, _, _, _, _, _, _, _, _, rfl⟩, rfl⟩ := moveUnit_cu owned h
        exact ⟨halted, rfl, rfl, rfl, latches .muCtl (by decide), latches .muTick (by decide)⟩
    all_goals
      have latches := fun ch full => doMove_env_latch_ne_none (ch := ch) notReset nofun full h
      obtain ⟨_, _, _, _, _, _, _, _, _, _, _, rfl, -, muState⟩ := doMove_env_frame notReset nofun h
      refine ⟨?_, rfl, rfl, rfl, latches .muCtl, latches .muTick⟩
      simpa [halted] using muState

end Sys2Proof.Machine
end

section
/-!
Who writes the SCB, and what (10_state.md section 1, 20_memory.md section 4): `pid_output` stays in range, O14, and each
register and word has its writers, O16.
-/

namespace Sys2Proof.Machine

/-! ### Words after a write -/

/-- A word after words were written is one of the words written to it, or the word that was there. -/
theorem Wrote.memRead_of {s t : State} {ws : List (WordOff × Word)} (h : Wrote s t ws) (seed : t.scbSeed = s.scbSeed)
    (rising : Memory.risingFrom 0 s.mem = true) {P : Word → Prop} {n : Nat} (hs : P (Machine.memRead n s))
    (hw : ∀ w ∈ ws, w.1.val = n → P w.2) : P (Machine.memRead n t) := by
  have e : Machine.memRead n t = Machine.memRead n (memWriteAll ws s) :=
    memRead_congr n h.1 (by rw [memWriteAll_par, h.2]) (by rw [memWriteAll_scbSeed, seed])
  rw [e]
  exact memRead_memWriteAll ws n rising hs hw

theorem Wrote.rising {s t : State} {ws : List (WordOff × Word)} (h : Wrote s t ws)
    (rising : Memory.risingFrom 0 s.mem = true) : Memory.risingFrom 0 t.mem = true := by
  rw [h.1]
  exact memWriteAll_rising ws rising

/-- Where nothing is written since reset, `pid_output` reads as DUTY_BASE (10_state.md R50). -/
theorem memRead_of_unwritten {s : State} (unwritten : s.mem = []) {n : Nat} (output : 40 ≤ n ∧ n ≤ 43) :
    memRead n s = s.par.dutyBase := by
  have byte : ∀ i, i < 4 → readByte (4 * n + i) s = byteOfWord s.par.dutyBase i := by
    intro i hi
    have inOutput : 160 ≤ 4 * n + i ∧ 4 * n + i < 176 := by omega
    have offset : (4 * n + i) % 4 = i := by omega
    simp only [readByte, unwritten, Memory.find, Memory.unlisted, if_pos inOutput, offset]
  have first := byte 0 (by decide)
  rw [Nat.add_zero] at first
  rw [memRead, first, byte 1 (by decide), byte 2 (by decide), byte 3 (by decide), wordOfBytes_byteOfWord]

/-- Of the host's and the timers' moves only the host's writes change the SCB. -/
theorem doMove_env_mem {m : Move} {s t : State} (notReset : m ≠ .hostReset) (notUnit : ∀ u g, m ≠ .unit u g)
    (h : doMove m s = .next t) :
    t.mem = s.mem ∨ ∃ n v, t = memWrite n v s ∧
      (m = .hostWrite n v ∨ ∃ addr bytes, m = .hostWriteAt addr bytes v ∧ n = (addr - s.par.scbBase) / 4) := by
  cases m
  case hostReset => exact absurd rfl notReset
  case unit u g => exact absurd rfl (notUnit u g)
  case hostWrite n v =>
    simp only [doMove, hostWrite] at h
    split at h <;> cases h
    exact .inr ⟨n, v, rfl, .inl rfl⟩
  case hostWriteAt addr bytes v =>
    simp only [doMove, hostAccess, hostWrite] at h
    repeat' split at h
    all_goals cases h
    exact .inr ⟨_, v, rfl, .inr ⟨addr, bytes, rfl, rfl⟩⟩
  case hostStart u =>
    cases u <;> (cases h; split <;> exact .inl rfl)
  case hostRaise e =>
    cases e
    case newData | setArmed | clearArmed | controllerStop => cases h; exact .inl rfl
    all_goals cases h
  case timerPAdvance n =>
    simp only [doMove, timerPAdvance] at h
    repeat' split at h
    all_goals cases h
    unfold advancePwm
    dsimp only
    split <;> exact .inl rfl
  all_goals
    simp only [doMove, hostRead, hostAccess, hostInject, hostAck, timerSFire] at h
    repeat' split at h
    all_goals cases h
    all_goals exact .inl rfl

/-! ### The published outputs -/

theorem outputsOk_iff {s : State} :
    s.outputsOk = true ↔
      (∀ n, 40 ≤ n ∧ n ≤ 43 → inDutyRange s.par (memRead n s) = true) ∧ writesInRange s.par s.cuPend = true := by
  simp only [State.outputsOk, Bool.and_eq_true]
  constructor
  · rintro ⟨⟨⟨⟨o0, o1⟩, o2⟩, o3⟩, writes⟩
    refine ⟨fun n output => ?_, writes⟩
    obtain rfl | rfl | rfl | rfl : n = 40 ∨ n = 41 ∨ n = 42 ∨ n = 43 := by omega
    all_goals assumption
  · rintro ⟨outputs, writes⟩
    exact ⟨⟨⟨⟨outputs 40 (by decide), outputs 41 (by decide)⟩, outputs 42 (by decide)⟩, outputs 43 (by decide)⟩, writes⟩

/-- A pending write of `v` to word `n` is allowed. -/
def outputAllowed (par : Config.Params) (w : WordOff × Word) : Bool :=
  decide (w.1.val < 40) || decide (43 < w.1.val) || inDutyRange par w.2

theorem inDutyRange_of_allowed {par : Config.Params} {w : WordOff × Word} (h : outputAllowed par w = true)
    (output : 40 ≤ w.1.val ∧ w.1.val ≤ 43) : inDutyRange par w.2 = true := by
  have below : ¬ w.1.val < 40 := by omega
  have above : ¬ 43 < w.1.val := by omega
  simpa [outputAllowed, below, above] using h

theorem writesInRange_append (par : Config.Params) (acts acts' : List Act) :
    writesInRange par (acts ++ acts') = (writesInRange par acts && writesInRange par acts') :=
  List.all_append

theorem writesInRange_writeActs (par : Config.Params) (ws : List (WordOff × Word)) :
    writesInRange par (writeActs ws) = ws.all (outputAllowed par) := by
  induction ws with
  | nil => rfl
  | cons w ws ih => exact congrArg (outputAllowed par w && ·) ih

theorem outputWrites_allowed {par : Config.Params} {out : Quad Word} (h : ∀ m, inDutyRange par (out.get m) = true) :
    (outputWrites out).all (outputAllowed par) = true := by
  have o0 : inDutyRange par out.q0 = true := h 0
  have o1 : inDutyRange par out.q1 = true := h 1
  have o2 : inDutyRange par out.q2 = true := h 2
  have o3 : inDutyRange par out.q3 = true := h 3
  simp [outputWrites, outputAllowed, o0, o1, o2, o3]

/-- The snapshot lies beside `pid_output`. -/
theorem snapshotWrites_allowed (par : Config.Params) (x y : Tri Word) (z phase : Word) :
    (snapshotWrites x y z phase).all (outputAllowed par) = true := rfl

theorem inDutyRange_mixDuties {par : Config.Params} (ok : par.ok = true) (t r p y : Word) (m : Fin 4) :
    inDutyRange par ((mixDuties par t r p y).get m) = true := by
  match m with
  | 0 | 1 | 2 | 3 => exact inDutyRange_clampDuty ok _

theorem writesInRange_handlerActs (par : Config.Params) (u : UnitId) (e : Event) (s : State) :
    writesInRange par (handlerActs u e s) = true := by
  unfold handlerActs
  cases u
  · cases cuTable s <;> cases e <;> rfl
  · cases e <;> rfl

theorem writesInRange_beginActs (par : Config.Params) (u : UnitId) (s : State) :
    writesInRange par (beginActs u s) = true := by
  unfold beginActs
  cases u
  · cases s.cuState <;> rfl
  · cases s.muState <;> rfl

/-- What an action of the CU leaves to write into `pid_output` is in range: MIX clamps, the baseline is in range, and the
snapshot lies elsewhere. -/
theorem performAct_writesInRange {a : Act} {s : State} (ok : s.par.ok = true) (own : actOf .cu a = true)
    (h : writesInRange s.par [a] = true) : writesInRange s.par (performAct .cu a s).1 = true := by
  cases a
  case dispatch e => exact writesInRange_handlerActs s.par .cu e s
  case pollIfActive ch =>
    simp only [performAct]
    split <;> rfl
  case readCfg got =>
    simp only [performAct]
    split <;> rfl
  case maskNewData =>
    simp only [performAct]
    split
    · rw [writesInRange_append, writesInRange_writeActs, snapshotNewData, snapshotWrites_allowed]
      rfl
    · rfl
  case maskSample ws =>
    simp only [performAct]
    split
    · rw [writesInRange_append, writesInRange_writeActs]
      simp only [writesInRange, List.all_cons, List.all_nil, Bool.and_true, List.all_eq_true] at h ⊢
      intro w hw
      rw [outputAllowed, h w hw, Bool.true_or]
    · rfl
  case control =>
    simp only [performAct, mixOutputs]
    rw [writesInRange_append, writesInRange_writeActs, outputWrites_allowed (inDutyRange_mixDuties ok _ _ _ _)]
    rfl
  case baseline =>
    simp only [performAct]
    rw [writesInRange_writeActs]
    exact outputWrites_allowed fun m => by rw [Quad.get_fill]; exact inDutyRange_dutyBase ok
  case compareIfActive | compareOne => cases own
  all_goals rfl

/-- An action writes only what its place in the list allows. -/
theorem actWrites_allowed {a : Act} {s : State} {par : Config.Params} (h : writesInRange par [a] = true) :
    ∀ w ∈ actWrites a s, outputAllowed par w = true := by
  cases a
  case write n v =>
    simpa [actWrites, writesInRange, outputAllowed] using h
  case writeFree n =>
    have away : n.val < 40 ∨ 43 < n.val := by simpa [writesInRange] using h
    simp only [actWrites, List.mem_singleton, forall_eq, outputAllowed, Bool.or_eq_true, decide_eq_true_eq]
    exact .inl away
  all_goals exact nofun

theorem moveUnit_cu_outputsOk {g : Grain} {s t : State} (ok : s.par.ok = true) (memOk : s.memOk = true)
    (owned : s.actsOwned = true) (hs : s.outputsOk = true) (h : moveUnit .cu g s = .next t) : t.outputsOk = true := by
  refine (moveUnit_keeps_owned (u := .cu)
    (P := fun s => s.par.ok = true ∧ Memory.risingFrom 0 s.mem = true ∧ s.outputsOk = true) ?begins ?acts owned
    ⟨ok, State.memOk_rising memOk, hs⟩ h).2.2
  case begins =>
    rintro s ⟨ok, rising, hs⟩ -
    exact ⟨ok, rising, outputsOk_iff.2 ⟨(outputsOk_iff.1 hs).1, writesInRange_beginActs s.par .cu s⟩⟩
  case acts =>
    rintro s a rest ⟨ok, rising, hs⟩ pending own -
    obtain ⟨outputs, writes⟩ := outputsOk_iff.1 hs
    rw [show s.cuPend = [a] ++ rest from pending, writesInRange_append, Bool.and_eq_true] at writes
    have wrote := performAct_wrote .cu a s
    refine ⟨(congrArg _ (performAct_par .cu a s)).trans ok, wrote.rising rising, outputsOk_iff.2 ⟨fun n output => ?_, ?_⟩⟩
    · show inDutyRange (performAct .cu a s).2.par (memRead n (performAct .cu a s).2) = true
      rw [performAct_par]
      refine wrote.memRead_of (performAct_scbSeed .cu a s) rising (P := fun v => inDutyRange s.par v = true)
        (outputs n output) fun w hw same => ?_
      exact inDutyRange_of_allowed (actWrites_allowed writes.1 w hw) (same ▸ output)
    · show writesInRange (performAct .cu a s).2.par ((performAct .cu a s).1 ++ rest) = true
      rw [performAct_par, writesInRange_append, performAct_writesInRange ok own writes.1, writes.2]
      rfl

/-- A host write that keeps the outputs in range, by word or by address. -/
theorem inDutyRange_of_keepsOutputs {s : State} {m : Move} {n : Nat} {v : Word} (keeps : keepsOutputs s m = true)
    (write : m = .hostWrite n v ∨ ∃ addr bytes, m = .hostWriteAt addr bytes v ∧ n = (addr - s.par.scbBase) / 4)
    (output : 40 ≤ n ∧ n ≤ 43) : inDutyRange s.par v = true := by
  have below : ¬ n < 40 := by omega
  have above : ¬ 43 < n := by omega
  obtain rfl | ⟨addr, bytes, rfl, word⟩ := write
  · simpa [keepsOutputs, below, above] using keeps
  · simpa [keepsOutputs, ← word, below, above] using keeps

/-- Settles O14: every value the CU is still to write was clamped or is the baseline, so each single write, and each other
move, keeps the four words in range. -/
theorem outputsStayInRange : Obligations.OutputsStayInRange := by
  intro s t m ok memOk owned hs keeps h
  obtain ⟨outputs, writes⟩ := outputsOk_iff.1 hs
  by_cases isReset : m = .hostReset
  · subst isReset
    rw [hostReset_eq h]
    refine outputsOk_iff.2 ⟨fun n output => ?_, rfl⟩
    rw [memRead_of_unwritten rfl output]
    exact inDutyRange_dutyBase ok
  · by_cases isUnit : ∃ u g, m = .unit u g
    · obtain ⟨u, g, rfl⟩ := isUnit
      cases u with
      | cu => exact moveUnit_cu_outputsOk ok memOk owned hs h
      | mu =>
        obtain ⟨_, _, ⟨_, _, _, _, _, _, _, _, rfl⟩, rfl⟩ := moveUnit_mu owned h
        exact hs
    · have notUnit : ∀ u g, m ≠ .unit u g := fun u g e => isUnit ⟨u, g, e⟩
      rcases doMove_env_mem isReset notUnit h with same | ⟨n, v, rfl, write⟩
      · obtain ⟨_, _, _, _, _, _, _, _, _, _, _, rfl, -, -⟩ := doMove_env_frame isReset notUnit h
        refine outputsOk_iff.2 ⟨fun n output => ?_, writes⟩
        rw [memRead_congr (s := s) n same rfl rfl]
        exact outputs n output
      · refine outputsOk_iff.2 ⟨fun k output => ?_, writes⟩
        rw [memRead_memWrite n k v (State.memOk_rising memOk)]
        split
        · next same => exact inDutyRange_of_keepsOutputs keeps write (same ▸ output)
        · exact outputs k output

/-! ### The writers -/

/-- The CU's own actions write only the words that the FCE writes. -/
theorem actWrites_fceWrites {a : Act} (own : actOf .cu a = true) (s : State) : ∀ w ∈ actWrites a s, fceWrites w.1 = true := by
  cases a
  case write n v | writeFree n => simpa [actWrites, actOf] using own
  all_goals exact nofun

/-- A byte of no word that the FCE writes. -/
theorem not_mem_of_fceWrites {n : WordOff} (writes : fceWrites n = true) {a : Nat}
    (outside : a < 160 ∨ (176 ≤ a ∧ a < 180) ∨ 220 ≤ a) : ¬(4 * n.val ≤ a ∧ a < 4 * n.val + 4) := by
  simp only [fceWrites, Bool.and_eq_true, decide_eq_true_eq] at writes
  omega

theorem moveUnit_cu_readByte {g : Grain} {s t : State} (owned : s.actsOwned = true) (memOk : s.memOk = true) {a : Nat}
    (outside : a < 160 ∨ (176 ≤ a ∧ a < 180) ∨ 220 ≤ a) (h : moveUnit .cu g s = .next t) :
    readByte a t = readByte a s := by
  refine (moveUnit_keeps_owned (u := .cu)
    (P := fun x => Memory.risingFrom 0 x.mem = true ∧ readByte a x = readByte a s) (fun x hx _ => hx) ?acts owned
    ⟨State.memOk_rising memOk, rfl⟩ h).2
  rintro x act rest ⟨rising, same⟩ - own -
  have wrote := performAct_wrote .cu act x
  refine ⟨wrote.rising rising, Eq.trans ?_ same⟩
  exact wrote.readByte (performAct_scbSeed .cu act x) rising fun w hw =>
    not_mem_of_fceWrites (actWrites_fceWrites own x w hw) outside

/-- Settles O16: the units' frames name the registers, and the CU's actions the words it writes. -/
theorem onlyOwnersWrite : Obligations.OnlyOwnersWrite := by
  intro s t owned
  refine ⟨fun g h => ?cu, fun g h => ?mu, fun m notReset notUnit h => ?env⟩
  case cu =>
    have bytes := fun memOk a outside => moveUnit_cu_readByte owned memOk (a := a) outside h
    obtain ⟨_, _, ⟨_, _, _, _, _, _, _, _, _, _, _, _, _, rfl⟩, rfl⟩ := moveUnit_cu owned h
    exact ⟨rfl, rfl, rfl, rfl, rfl, rfl, bytes⟩
  case mu =>
    obtain ⟨_, _, ⟨_, _, _, _, _, _, _, _, rfl⟩, rfl⟩ := moveUnit_mu owned h
    exact ⟨rfl, rfl, rfl, rfl, rfl, rfl, rfl, rfl, rfl, rfl, fun _ => rfl⟩
  case env =>
    obtain ⟨_, _, _, _, _, _, _, _, _, _, _, rfl, cu, mu⟩ := doMove_env_frame notReset notUnit h
    exact ⟨rfl, rfl, rfl, rfl, rfl, rfl, rfl, rfl, rfl, rfl, cu, mu⟩

end Sys2Proof.Machine
end

section
/-!
The configuration is read once (20_memory.md R86, 70_reset_and_hazards.md R356): a frozen state stays frozen, and a write
to a word that no action left reads commutes with every move of a unit, O17.
-/

namespace Sys2Proof.Machine

/-! ### Frozen states -/

/-- No action left reads the configuration. -/
def readsNoConfig (acts : List Act) : Bool := acts.all fun a => !readsConfig a

/-- No action left puts the CU before its configuration step. -/
def leadsNotBack (acts : List Act) : Bool := acts.all fun a => !leadsBack a

/-- The CU's half of `State.configFrozen`. -/
def cuFrozen (st : CuState) (acts : List Act) : Bool :=
  readsNoConfig acts && leadsNotBack acts && (!beforeLoop st || (decide (st = .config) && acts.any entersLoop))

theorem configRead_iff {s : State} :
    s.configRead = true ↔
      (s.cuState ≠ .config ∨ s.cuPend ≠ []) ∧ readsNoConfig s.cuPend = true ∧ readsNoConfig s.muPend = true := by
  simp only [State.configRead, readsNoConfig, Bool.and_eq_true, Bool.or_eq_true, decide_eq_true_eq, and_assoc]

/-- A frozen CU is not about to begin its configuration step. -/
theorem not_config_of_cuFrozen {st : CuState} {acts : List Act} (h : cuFrozen st acts = true) :
    st ≠ .config ∨ acts ≠ [] := by
  cases acts with
  | nil =>
    left
    rintro rfl
    cases h
  | cons a acts => exact .inr nofun

theorem configFrozen_iff {s : State} :
    s.configFrozen = true ↔ cuFrozen s.cuState s.cuPend = true ∧ readsNoConfig s.muPend = true := by
  have halves : s.configFrozen = true ↔ s.configRead = true ∧ leadsNotBack s.cuPend = true ∧
      (!beforeLoop s.cuState || (decide (s.cuState = .config) && s.cuPend.any entersLoop)) = true := by
    rw [State.configFrozen, Bool.and_eq_true, Bool.and_eq_true, and_assoc]
    rfl
  rw [halves, configRead_iff]
  constructor
  · rintro ⟨⟨-, cu, mu⟩, back, place⟩
    exact ⟨by rw [cuFrozen, cu, back, place]; rfl, mu⟩
  · rintro ⟨frozen, mu⟩
    have away := not_config_of_cuFrozen frozen
    simp only [cuFrozen, Bool.and_eq_true] at frozen
    exact ⟨⟨away, frozen.1.1, mu⟩, frozen.1.2, frozen.2⟩

theorem readsNoConfig_append (acts acts' : List Act) :
    readsNoConfig (acts ++ acts') = (readsNoConfig acts && readsNoConfig acts') :=
  List.all_append

theorem leadsNotBack_append (acts acts' : List Act) :
    leadsNotBack (acts ++ acts') = (leadsNotBack acts && leadsNotBack acts') :=
  List.all_append

theorem readsNoConfig_cons {a : Act} {rest : List Act} (h : readsNoConfig (a :: rest) = true) :
    readsConfig a = false ∧ readsNoConfig rest = true := by
  simpa [readsNoConfig] using h

theorem leadsNotBack_cons {a : Act} {rest : List Act} (h : leadsNotBack (a :: rest) = true) :
    leadsBack a = false ∧ leadsNotBack rest = true := by
  simpa [leadsNotBack] using h

theorem readsNoConfig_writeActs (ws : List (WordOff × Word)) : readsNoConfig (writeActs ws) = true := by
  simp [readsNoConfig, writeActs, readsConfig]

theorem leadsNotBack_writeActs (ws : List (WordOff × Word)) : leadsNotBack (writeActs ws) = true := by
  simp [leadsNotBack, writeActs, leadsBack]

theorem readsNoConfig_handlerActs (u : UnitId) (e : Event) (s : State) : readsNoConfig (handlerActs u e s) = true := by
  unfold handlerActs
  cases u
  · cases cuTable s <;> cases e <;> rfl
  · cases e <;> rfl

/-- Only CU_AWAIT's rows lead back to the configuration step. -/
theorem leadsNotBack_handlerActs {s : State} (active : cuTable s = .active) (e : Event) :
    leadsNotBack (handlerActs .cu e s) = true := by
  unfold handlerActs
  rw [active]
  cases e <;> rfl

/-- Only the configuration step reads the configuration. -/
theorem readsNoConfig_beginActs {u : UnitId} {s : State} (away : u = .cu → s.cuState ≠ .config) :
    readsNoConfig (beginActs u s) = true := by
  unfold beginActs
  cases u with
  | cu =>
    cases state : s.cuState
    case config => exact absurd state (away rfl)
    all_goals rfl
  | mu => cases s.muState <;> rfl

/-- An action that reads no configuration leaves none that does. -/
theorem performAct_readsNoConfig {u : UnitId} {a : Act} (h : readsConfig a = false) (s : State) :
    readsNoConfig (performAct u a s).1 = true := by
  cases a
  case dispatch e => exact readsNoConfig_handlerActs u e s
  case readCfg got => cases h
  case pollIfActive | compareIfActive | compareOne =>
    simp only [performAct]
    split <;> rfl
  case maskNewData | maskSample =>
    simp only [performAct]
    split
    · rw [readsNoConfig_append, readsNoConfig_writeActs]
      rfl
    · rfl
  case control =>
    simp only [performAct]
    rw [readsNoConfig_append, readsNoConfig_writeActs]
    rfl
  case baseline => exact readsNoConfig_writeActs _
  all_goals rfl

/-- Beside CU_ACTIVE's rows an action of the CU leaves none that leads back. -/
theorem performAct_leadsNotBack {a : Act} {s : State} (active : cuTable s = .active) :
    leadsNotBack (performAct .cu a s).1 = true := by
  cases a
  case dispatch e => exact leadsNotBack_handlerActs active e
  case readCfg | pollIfActive | compareIfActive | compareOne =>
    simp only [performAct]
    split <;> rfl
  case maskNewData | maskSample =>
    simp only [performAct]
    split
    · rw [leadsNotBack_append, leadsNotBack_writeActs]
      rfl
    · rfl
  case control =>
    simp only [performAct]
    rw [leadsNotBack_append, leadsNotBack_writeActs]
    rfl
  case baseline => exact leadsNotBack_writeActs _
  all_goals rfl

/-- Only the move of the state register writes it. -/
theorem performAct_cuState {u : UnitId} {a : Act} (h : ∀ st, a ≠ .goCu st) (s : State) :
    (performAct u a s).2.cuState = s.cuState := by
  cases a
  case goCu st => exact absurd rfl (h st)
  case raise e => exact raiseEvent_cuState e s
  case read n dst => cases dst <;> rfl
  case pollIfActive | readCfg =>
    simp only [performAct]
    split <;> rfl
  all_goals rfl

theorem cuTable_of_not_await {s : State} (h : s.cuState ≠ .await) : cuTable s = .active := if_neg h

/-- An action of the CU keeps it frozen. -/
theorem performAct_cuFrozen {a : Act} {rest : List Act} {s : State} (h : cuFrozen s.cuState (a :: rest) = true) :
    cuFrozen (performAct .cu a s).2.cuState ((performAct .cu a s).1 ++ rest) = true := by
  simp only [cuFrozen, Bool.and_eq_true] at h
  obtain ⟨⟨reads, back⟩, place⟩ := h
  obtain ⟨read, reads⟩ := readsNoConfig_cons reads
  obtain ⟨noBack, back⟩ := leadsNotBack_cons back
  have active : cuTable s = .active := by
    refine cuTable_of_not_await fun await => ?_
    rw [await] at place
    cases place
  simp only [cuFrozen, readsNoConfig_append, leadsNotBack_append, performAct_readsNoConfig read,
    performAct_leadsNotBack active, reads, back, Bool.true_and]
  by_cases move : ∃ st, a = .goCu st
  · obtain ⟨st, rfl⟩ := move
    have past : beforeLoop st = false := noBack
    simp [performAct, past]
  · have stays : ∀ st, a ≠ .goCu st := fun st e => move ⟨st, e⟩
    have notEnters : entersLoop a = false := by
      cases a
      case goCu st => exact absurd rfl (stays st)
      all_goals rfl
    rw [performAct_cuState stays]
    simp only [List.any_cons, notEnters, Bool.false_or] at place
    simp only [List.any_append, Bool.or_eq_true, Bool.and_eq_true] at place ⊢
    exact place.imp id fun h => ⟨h.1, .inr h.2⟩

theorem beginActs_cuFrozen {s : State} (h : cuFrozen s.cuState [] = true) :
    cuFrozen s.cuState (beginActs .cu s) = true := by
  unfold beginActs
  cases state : s.cuState
  case active | halt => rfl
  all_goals
    rw [state] at h
    cases h

theorem moveUnit_configFrozen {u : UnitId} {g : Grain} {s t : State} (owned : s.actsOwned = true)
    (hs : s.configFrozen = true) (h : moveUnit u g s = .next t) : t.configFrozen = true := by
  obtain ⟨cu, mu⟩ := configFrozen_iff.1 hs
  cases u with
  | cu =>
    have kept : cuFrozen t.cuState t.cuPend = true := by
      refine moveUnit_keeps (u := .cu) (P := fun s => cuFrozen s.cuState s.cuPend = true) (fun s hs between => ?_)
        (fun s a rest hs pending => ?_) cu h
      · rw [show s.cuPend = [] from between] at hs
        exact beginActs_cuFrozen hs
      · rw [show s.cuPend = a :: rest from pending] at hs
        exact performAct_cuFrozen hs
    obtain ⟨_, _, ⟨_, _, _, _, _, _, _, _, _, _, _, _, _, rfl⟩, rfl⟩ := moveUnit_cu owned h
    exact configFrozen_iff.2 ⟨kept, mu⟩
  | mu =>
    have kept : readsNoConfig t.muPend = true := by
      refine moveUnit_keeps (u := .mu) (P := fun s => readsNoConfig s.muPend = true)
        (fun s _ _ => readsNoConfig_beginActs (u := .mu) nofun) (fun s a rest hs pending => ?_) mu h
      rw [show s.muPend = a :: rest from pending] at hs
      obtain ⟨read, reads⟩ := readsNoConfig_cons hs
      show readsNoConfig ((performAct .mu a s).1 ++ rest) = true
      rw [readsNoConfig_append, performAct_readsNoConfig read, reads]
      rfl
    obtain ⟨_, _, ⟨_, _, _, _, _, _, _, _, rfl⟩, rfl⟩ := moveUnit_mu owned h
    exact configFrozen_iff.2 ⟨cu, kept⟩

theorem doMove_env_configFrozen {m : Move} {s t : State} (hs : s.configFrozen = true) (notReset : m ≠ .hostReset)
    (notUnit : ∀ u g, m ≠ .unit u g) (h : doMove m s = .next t) : t.configFrozen = true := by
  obtain ⟨cu, mu⟩ := configFrozen_iff.1 hs
  obtain ⟨_, _, _, _, _, _, _, _, _, _, _, rfl, cuState, -⟩ := doMove_env_frame notReset notUnit h
  refine configFrozen_iff.2 ⟨?_, mu⟩
  rcases cuState with rfl | ⟨held, -⟩
  · exact cu
  · rw [held, cuFrozen, beforeLoop, Bool.and_eq_true] at cu
    cases cu.2

/-! ### A write that no action left reads -/

/-- `x` is `s` with another SCB, which differs in word `n` alone and holds `v` there. -/
def ApartIn (n : Nat) (v : Word) (s x : State) : Prop :=
  (∃ mem, x = { s with mem }) ∧ Memory.risingFrom 0 s.mem = true ∧ Memory.risingFrom 0 x.mem = true ∧
    ∀ m, memRead m x = if m = n then v else memRead m s

theorem ApartIn.memRead_of_ne {n : Nat} {v : Word} {s x : State} (h : ApartIn n v s x) {m : Nat} (hm : m ≠ n) :
    memRead m x = memRead m s := by
  obtain ⟨-, -, -, words⟩ := h
  rw [words, if_neg hm]

/-- An update that does not look at the SCB keeps two states apart in the same word. -/
theorem ApartIn.update {n : Nat} {v : Word} {s x s' x' : State} (h : ApartIn n v s x) (alone : ∃ mem, x' = { s' with mem })
    (mem : s'.mem = s.mem) (mem' : x'.mem = x.mem) (par : s'.par = s.par) (seed : s'.scbSeed = s.scbSeed) :
    ApartIn n v s' x' := by
  obtain ⟨⟨_, rfl⟩, rising, rising', words⟩ := h
  have same : ∀ m, memRead m s' = memRead m s := fun m => memRead_congr m mem par seed
  have same' : ∀ m, memRead m x' = memRead m _ := fun m => by
    obtain ⟨_, rfl⟩ := alone
    exact memRead_congr m mem' par seed
  refine ⟨alone, mem ▸ rising, mem' ▸ rising', fun m => ?_⟩
  rw [same', same, words]

/-- A write of another word keeps two states apart in the same word. -/
theorem ApartIn.memWrite {n : Nat} {v : Word} {s x : State} (h : ApartIn n v s x) {k : Nat} (other : k ≠ n) (w : Word) :
    ApartIn n v (memWrite k w s) (memWrite k w x) := by
  obtain ⟨⟨_, rfl⟩, rising, rising', words⟩ := h
  refine ⟨⟨_, rfl⟩, memWrite_rising _ _ rising, memWrite_rising _ _ rising', fun m => ?_⟩
  rw [memRead_memWrite _ _ _ rising, memRead_memWrite _ _ _ rising', words]
  by_cases written : m = k
  · rw [if_pos written, if_pos written, if_neg (written ▸ other)]
  · rw [if_neg written, if_neg written]

/-- A host write of a word. -/
theorem ApartIn.of_memWrite {s : State} (rising : Memory.risingFrom 0 s.mem = true) (n : Nat) (v : Word) :
    ApartIn n v s (Machine.memWrite n v s) :=
  ⟨⟨_, rfl⟩, rising, memWrite_rising _ _ rising, fun m => memRead_memWrite n m v rising⟩

theorem ApartIn.setPend {n : Nat} {v : Word} {s x : State} (h : ApartIn n v s x) (u : UnitId) (acts : List Act) :
    ApartIn n v (setPend u acts s) (setPend u acts x) := by
  obtain ⟨_, rfl⟩ := h.1
  cases u <;> exact h.update ⟨_, rfl⟩ rfl rfl rfl rfl

/-- A RAISE does not look at the SCB. -/
theorem raiseEvent_of_mem (e : Event) (s : State) (mem : List Host.Cell) :
    raiseEvent e { s with mem } = { raiseEvent e s with mem } := by
  cases e <;> rfl

/-- A unit's own action that reads no configuration does the same on both sides of a write to the configuration. -/
theorem performAct_apart {u : UnitId} {a : Act} {n : Nat} {v : Word} {s x : State} (own : actOf u a = true)
    (read : readsConfig a = false) (config : n < 33) (h : ApartIn n v s x) :
    (performAct u a x).1 = (performAct u a s).1 ∧ ApartIn n v (performAct u a s).2 (performAct u a x).2 := by
  obtain ⟨mem, rfl⟩ := h.1
  have other : ∀ {k : WordOff}, fceWrites k = true → k.val ≠ n := by
    intro k writes
    simp only [fceWrites, Bool.and_eq_true, decide_eq_true_eq] at writes
    omega
  have mask : memRead offDebugMask { s with mem } = memRead offDebugMask s :=
    h.memRead_of_ne (m := 44) (by omega)
  cases a
  case read k dst =>
    have word : memRead k.val { s with mem } = memRead k.val s := by
      simp only [readsConfig, decide_eq_false_iff_not] at read
      exact h.memRead_of_ne (by omega)
    simp only [performAct, word]
    refine ⟨trivial, ?_⟩
    cases dst <;> exact h.update ⟨mem, rfl⟩ rfl rfl rfl rfl
  case readCfg got => cases read
  case raise e =>
    simp only [performAct, raiseEvent_of_mem]
    exact ⟨trivial, h.update ⟨mem, rfl⟩ (raiseEvent_mem e s) rfl (raiseEvent_par e s) (raiseEvent_scbSeed e s)⟩
  case write k w =>
    cases u with
    | cu => exact ⟨rfl, h.memWrite (other own) w⟩
    | mu => cases own
  case writeFree k =>
    cases u with
    | cu =>
      have written := h.memWrite (other own) (Config.freeWord s.draws)
      exact ⟨rfl, written.update ⟨_, rfl⟩ rfl rfl rfl rfl⟩
    | mu => cases own
  case maskNewData =>
    simp only [performAct, mask]
    exact ⟨rfl, h⟩
  case maskSample ws =>
    simp only [performAct, mask]
    exact ⟨trivial, h⟩
  case pollIfActive ch =>
    have active : unitActive u { s with mem } = unitActive u s := by cases u <;> rfl
    simp only [performAct, active]
    split
    · exact ⟨rfl, h.update ⟨mem, rfl⟩ rfl rfl rfl rfl⟩
    · exact ⟨rfl, h⟩
  case dispatch e => cases u <;> exact ⟨rfl, h⟩
  case compareIfActive => cases u <;> exact ⟨rfl, h⟩
  all_goals exact ⟨rfl, h.update ⟨mem, rfl⟩ rfl rfl rfl rfl⟩

theorem Run.apart {u : UnitId} {acts : List Act} {n : Nat} {v : Word} {s x t : State} (config : n < 33)
    (h : Run u acts s t) (own : acts.all (actOf u) = true) (reads : readsNoConfig acts = true) (apart : ApartIn n v s x) :
    ∃ y, Run u acts x y ∧ ApartIn n v t y := by
  induction h generalizing x with
  | nil s => exact ⟨x, .nil x, apart⟩
  | @cons a rest s t _ ih =>
    simp only [List.all_cons, Bool.and_eq_true] at own
    obtain ⟨read, reads⟩ := readsNoConfig_cons reads
    obtain ⟨first, next⟩ := performAct_apart own.1 read config apart
    obtain ⟨y, run, last⟩ := ih
      (by rw [List.all_append, performAct_owned own.1, own.2]; rfl)
      (by rw [readsNoConfig_append, performAct_readsNoConfig read, reads]; rfl) next
    exact ⟨y, .cons (first ▸ run), last⟩

/-! ### A unit's move on both sides of the write -/

theorem moveUnit_whole {u : UnitId} {s : State} (between : pend u s = []) :
    moveUnit u .whole s = exec (stateRow u s) s := by
  simp only [moveUnit, between, runDecoded, decode_stateWord]

theorem moveUnit_handler {u : UnitId} {s : State} {e : Event} {rest : List Act} (polled : pend u s = .dispatch e :: rest) :
    moveUnit u .handler s = exec (eventRow u e s) (setPend u rest s) := by
  simp only [moveUnit, polled, runDecoded, decode_evtWord]

/-- Which of the three things a move does is settled by its grain and what is left of the step. -/
theorem moveUnit_kind (u : UnitId) (g : Grain) (acts : List Act) :
    (g = .whole ∧ acts = []) ∨ (g = .handler ∧ ∃ e rest, acts = .dispatch e :: rest) ∨
      ∀ s, pend u s = acts → moveUnit u g s = .next (action u s) := by
  cases g with
  | whole =>
    cases acts with
    | nil => exact .inl ⟨rfl, rfl⟩
    | cons a rest => exact .inr (.inr fun s pending => by simp only [moveUnit, pending])
  | handler =>
    by_cases polled : ∃ e rest, acts = .dispatch e :: rest
    · exact .inr (.inl ⟨rfl, polled⟩)
    · refine .inr (.inr fun s pending => ?_)
      unfold moveUnit
      split
      · next h _ => cases h
      · next e rest _ h => exact absurd ⟨e, rest, pending.symm.trans h⟩ polled
      all_goals rfl
  | action => exact .inr (.inr fun s _ => rfl)

theorem doAct_apart {u : UnitId} {a : Act} {rest : List Act} {n : Nat} {v : Word} {s x : State} (own : actOf u a = true)
    (read : readsConfig a = false) (config : n < 33) (h : ApartIn n v s x) :
    ApartIn n v (doAct u a rest s) (doAct u a rest x) := by
  obtain ⟨first, next⟩ := performAct_apart own read config h
  rw [doAct, doAct, first]
  exact next.setPend u _

theorem action_apart {u : UnitId} {n : Nat} {v : Word} {s x : State} (owned : s.actsOwned = true)
    (reads : readsNoConfig (pend u s) = true) (begins : pend u s = [] → readsNoConfig (beginActs u s) = true)
    (config : n < 33) (h : ApartIn n v s x) : ApartIn n v (action u s) (action u x) := by
  obtain ⟨mem, rfl⟩ := h.1
  have samePend : pend u { s with mem } = pend u s := by cases u <;> rfl
  have sameBegin : beginActs u { s with mem } = beginActs u s := by cases u <;> rfl
  unfold action
  rw [samePend, sameBegin]
  cases pending : pend u s with
  | cons a rest =>
    obtain ⟨own, -⟩ := next_owned owned (.inl pending)
    rw [pending] at reads
    exact doAct_apart own (readsNoConfig_cons reads).1 config h
  | nil =>
    have reads := begins pending
    cases first : beginActs u s with
    | nil => exact h
    | cons a rest =>
      obtain ⟨own, -⟩ := next_owned owned (.inr ⟨pending, first⟩)
      rw [first] at reads
      exact doAct_apart own (readsNoConfig_cons reads).1 config h

theorem moveUnit_apart {u : UnitId} {g : Grain} {n : Nat} {v : Word} {s x t : State} (owned : s.actsOwned = true)
    (reads : readsNoConfig (pend u s) = true) (begins : pend u s = [] → readsNoConfig (beginActs u s) = true)
    (config : n < 33) (apart : ApartIn n v s x) (h : moveUnit u g s = .next t) :
    ∃ y, moveUnit u g x = .next y ∧ ApartIn n v t y := by
  have samePend : pend u x = pend u s := by
    obtain ⟨_, rfl⟩ := apart.1
    cases u <;> rfl
  obtain ⟨y, hy⟩ := moveUnit_next u g x
  refine ⟨y, hy, ?_⟩
  rcases moveUnit_kind u g (pend u s) with ⟨rfl, between⟩ | ⟨rfl, e, rest, polled⟩ | single
  · have sameBegin : beginActs u x = beginActs u s := by
      obtain ⟨_, rfl⟩ := apart.1
      cases u <;> rfl
    rw [moveUnit_whole between] at h
    rw [moveUnit_whole (samePend.trans between)] at hy
    obtain ⟨y', run, last⟩ := (Run.stateRow h).apart config (beginActs_owned u s) (begins between) apart
    have run' := Run.stateRow hy
    rw [sameBegin] at run'
    exact run.deterministic run' ▸ last
  · have sameHandler : handlerActs u e x = handlerActs u e s := by
      obtain ⟨_, rfl⟩ := apart.1
      cases u <;> rfl
    rw [moveUnit_handler polled] at h
    rw [moveUnit_handler (samePend.trans polled)] at hy
    obtain ⟨y', run, last⟩ := (Run.eventRow h).apart config (handlerActs_owned u e s)
      (readsNoConfig_handlerActs u e s) (apart.setPend u rest)
    have run' := Run.eventRow hy
    rw [sameHandler] at run'
    exact run.deterministic run' ▸ last
  · rw [single s rfl] at h
    rw [single x samePend] at hy
    cases h
    cases hy
    exact action_apart owned reads begins config apart

/-! ### The obligation -/

/-- Settles O17: the reads end with actions that neither read nor lead back, only such actions follow, and the word
written is one that no such action reads or writes. -/
theorem configurationFrozen : Obligations.ConfigurationFrozen := by
  refine ⟨fun s frozen => ?read, fun s t between mu h => ?step, fun s got state pending length mu => ?last,
    fun s t l owned frozen notReset h => ?kept, fun s s1 t2 u g n v memOk owned read config write h => ?apart⟩
  case read =>
    obtain ⟨cu, mu⟩ := configFrozen_iff.1 frozen
    have away := not_config_of_cuFrozen cu
    simp only [cuFrozen, Bool.and_eq_true] at cu
    exact configRead_iff.2 ⟨away, cu.1.1, mu⟩
  case step =>
    rw [exec_stepCuConfig] at h
    cases h
    refine configFrozen_iff.2 ⟨?_, mu⟩
    show cuFrozen .active s.cuPend = true
    rw [between]
    rfl
  case last =>
    rw [action_of_pend (u := .cu) pending]
    have done : performAct .cu (.readCfg got) s =
        ([.tmrSConfigure, .configure (got ++ [memRead (1 + got.length) s]), .goCu .active], s) := by
      simp [performAct, length]
    rw [doAct, done]
    refine configFrozen_iff.2 ⟨?_, mu⟩
    show cuFrozen s.cuState _ = true
    rw [state]
    rfl
  case kept =>
    rcases runLine_cases h with ⟨m, rfl, h⟩ | ⟨i, uop, h⟩
    · by_cases isUnit : ∃ u g, m = .unit u g
      · obtain ⟨u, g, rfl⟩ := isUnit
        exact moveUnit_configFrozen owned frozen h
      · exact doMove_env_configFrozen frozen (fun e => notReset (e ▸ rfl)) (fun u g e => isUnit ⟨u, g, e⟩) h
    · obtain ⟨_, _, _, _, _, _, rfl⟩ := exec_uop_frame uop h
      exact frozen
  case apart =>
    rw [doMove_hostWrite_of_lt (Nat.lt_trans config (by decide))] at write
    cases write
    obtain ⟨away, cu, mu⟩ := configRead_iff.1 read
    have reads : readsNoConfig (pend u s) = true := by cases u <;> assumption
    have begins : pend u s = [] → readsNoConfig (beginActs u s) = true := by
      intro between
      refine readsNoConfig_beginActs fun isCu => ?_
      subst isCu
      exact away.resolve_right (fun pending => pending between)
    obtain ⟨t1, h1, ⟨_, rfl⟩, -, -, words⟩ :=
      moveUnit_apart owned reads begins config (.of_memWrite (State.memOk_rising memOk) n v) h
    exact ⟨_, h1, rfl, words⟩

end Sys2Proof.Machine
end

section
/-!
Decoding (30_encoding.md R100 to R106): encoding and decoding are inverse in each format, O1 to O3, and a step runs what
the decoder reads, O18 and O19.
-/

namespace Sys2Proof

open Sys2Proof.Machine

/-! ### Decoding what was encoded -/

theorem decode_encode_configure (k : Fin 4) (c : PidCfg) (period : Word) (rest : List Byte) :
    decode .uop (encode (.configure k c period) ++ rest) = .ok (.configure k c period, rest) := by
  have index := takeIndex_indexByte k
    ([c.kpa, c.kpr, c.ti, c.td, c.filter, c.kaw, c.min, c.max, period].flatMap wordBytes ++ rest)
  have words := takeWords_wordBytes [c.kpa, c.kpr, c.ti, c.td, c.filter, c.kaw, c.min, c.max, period] rest
  have take : takeConfigure (indexByte k ::
      ([c.kpa, c.kpr, c.ti, c.td, c.filter, c.kaw, c.min, c.max, period].flatMap wordBytes ++ rest)) =
      .ok (.configure k c period, rest) := by
    simp only [List.length_cons, List.length_nil, Nat.reduceAdd] at words
    simp only [takeConfigure, index, words]
  exact take

theorem decode_encode_run (k : Fin 4) (x : Word) (rest : List Byte) :
    decode .uop (encode (.run k x) ++ rest) = .ok (.run k x, rest) := by
  have take : takeRun (indexByte k :: ([x].flatMap wordBytes ++ rest)) = .ok (.run k x, rest) := by
    have words := takeWords_wordBytes [x] rest
    simp only [List.length_cons, List.length_nil, Nat.reduceAdd] at words
    simp only [takeRun, takeIndex_indexByte, words]
  exact take

theorem decode_encode_reset (k : Fin 4) (rest : List Byte) :
    decode .uop (encode (.reset k) ++ rest) = .ok (.reset k, rest) := by
  have take : takeReset (indexByte k :: rest) = .ok (.reset k, rest) := by simp only [takeReset, takeIndex_indexByte]
  exact take

theorem decode_encode_mix (t r p y : Word) (rest : List Byte) :
    decode .uop (encode (.mix t r p y) ++ rest) = .ok (.mix t r p y, rest) := by
  have take : takeMix ([t, r, p, y].flatMap wordBytes ++ rest) = .ok (.mix t r p y, rest) := by
    have words := takeWords_wordBytes [t, r, p, y] rest
    simp only [List.length_cons, List.length_nil, Nat.reduceAdd] at words
    simp only [takeMix, words]
  exact take

/-- The caller and the channel fit the operand byte, and an owned channel passes the test. -/
theorem decode_encode_poll {u : UnitId} {ch : Channel} (own : ch.owner = u) (rest : List Byte) :
    decode .uop (encode (.poll u ch) ++ rest) = .ok (.poll u ch, rest) := by
  subst own
  cases ch <;> rfl

theorem decode_encode_raise (e : Event) (rest : List Byte) :
    decode .uop (encode (.raise e) ++ rest) = .ok (.raise e, rest) := by
  cases e <;> rfl

/-- Settles O1: a row's word is evaluated, and an operation's operands are read back by the readers of bytes. -/
theorem decodeOfEncode : Obligations.DecodeOfEncode := by
  refine ⟨fun i rest wf => ?_, fun e rest => by cases e <;> rfl⟩
  cases i
  case poll u ch => exact decode_encode_poll (of_decide_eq_true wf) rest
  case raise e => exact decode_encode_raise e rest
  case configure k c period => exact decode_encode_configure k c period rest
  case run k x => exact decode_encode_run k x rest
  case reset k => exact decode_encode_reset k rest
  case mix t r p y => exact decode_encode_mix t r p y rest
  all_goals rfl

/-! ### Encoding what was decoded -/

theorem byte_eq_ofNat {b : Byte} {n : Nat} (h : b.toNat = n) : b = BitVec.ofNat 8 n := by
  rw [← h, BitVec.ofNat_toNat, BitVec.setWidth_eq]

/-- The word of an event is its unit bit and its code. -/
theorem evtWord_eventOfCode {b : Byte} (h : b.toNat < 32) :
    evtWord (if b.getLsbD 4 then .mu else .cu) (eventOfCode (b.extractLsb' 0 4)) = b := by
  exact byte_below
    (P := fun b => evtWord (if b.getLsbD 4 then .mu else .cu) (eventOfCode (b.extractLsb' 0 4)) = b) (by decide) b h

theorem encode_muRow (e : Event) : (muRow e).wf = true ∧ encode (muRow e) = [evtWord .mu e] := by
  cases e <;> exact ⟨rfl, rfl⟩

theorem encode_cuActiveRow (e : Event) : (cuActiveRow e).wf = true ∧ encode (cuActiveRow e) = [evtWord .cu e] := by
  cases e <;> exact ⟨rfl, rfl⟩

theorem encode_cuAwaitRow (e : Event) : (cuAwaitRow e).wf = true ∧ encode (cuAwaitRow e) = [evtWord .cu e] := by
  cases e <;> exact ⟨rfl, rfl⟩

theorem encode_of_decodeEvt {t : CuTable} {b : Byte} {i : Instr} (h : decodeEvt t b = .ok i) :
    i.wf = true ∧ encode i = [b] := by
  unfold decodeEvt at h
  split at h
  · next low =>
    have word := evtWord_eventOfCode low
    dsimp only at h
    split at h
    · next mu =>
      cases h
      rw [if_pos mu] at word
      rw [(encode_muRow _).2, word]
      exact ⟨(encode_muRow _).1, rfl⟩
    · next cu =>
      rw [if_neg cu] at word
      split at h <;> cases h
      · rw [(encode_cuActiveRow _).2, word]
        exact ⟨(encode_cuActiveRow _).1, rfl⟩
      · rw [(encode_cuAwaitRow _).2, word]
        exact ⟨(encode_cuAwaitRow _).1, rfl⟩
  · cases h

theorem encode_of_decodeState {b : Byte} {i : Instr} (h : decodeState b = .ok i) : i.wf = true ∧ encode i = [b] := by
  unfold decodeState at h
  split at h
  · split at h <;> cases h
    all_goals
      next code =>
        rw [byte_eq_ofNat code]
        exact ⟨rfl, rfl⟩
  · cases h

theorem encode_of_takePoll {bs rest : List Byte} {i : Instr} (h : takePoll bs = .ok (i, rest)) :
    i.wf = true ∧ encode i ++ rest = uopWord 0 :: bs := by
  unfold takePoll at h
  split at h
  · next b rest' =>
    dsimp only at h
    generalize caller : (if b.getLsbD 2 = true then UnitId.mu else UnitId.cu) = u at h
    split at h
    · next owned =>
      cases h
      obtain ⟨low, own⟩ := owned
      have operand := byte_below (P := fun b =>
        (unitBit (if b.getLsbD 2 then .mu else .cu) ++ channelCode (channelOfCode (b.extractLsb' 0 2))).setWidth 8 = b)
        (by decide) b low
      rw [caller] at operand
      refine ⟨decide_eq_true own, ?_⟩
      simp only [encode, operand]
      rfl
    · cases h
  · cases h

theorem encode_of_takeRaise {bs rest : List Byte} {i : Instr} (h : takeRaise bs = .ok (i, rest)) :
    i.wf = true ∧ encode i ++ rest = uopWord 1 :: bs := by
  unfold takeRaise at h
  split at h
  · next b rest' =>
    split at h
    · next low =>
      cases h
      have operand : (eventCode (eventOfCode (b.extractLsb' 0 4))).setWidth 8 = b :=
        byte_below (P := fun b => (eventCode (eventOfCode (b.extractLsb' 0 4))).setWidth 8 = b) (by decide) b low
      refine ⟨rfl, ?_⟩
      simp only [encode, operand]
      rfl
    · cases h
  · cases h

theorem encode_of_takeConfigure {bs rest : List Byte} {i : Instr} (h : takeConfigure bs = .ok (i, rest)) :
    i.wf = true ∧ encode i ++ rest = uopWord 2 :: bs := by
  unfold takeConfigure at h
  split at h
  · cases h
  · next index =>
    split at h
    · next words =>
      cases h
      refine ⟨rfl, ?_⟩
      rw [← takeIndex_eq index, ← (takeWords_eq words).1]
      rfl
    · cases h
    · cases h

theorem encode_of_takeRun {bs rest : List Byte} {i : Instr} (h : takeRun bs = .ok (i, rest)) :
    i.wf = true ∧ encode i ++ rest = uopWord 3 :: bs := by
  unfold takeRun at h
  split at h
  · cases h
  · next index =>
    split at h
    · next words =>
      cases h
      refine ⟨rfl, ?_⟩
      rw [← takeIndex_eq index, ← (takeWords_eq words).1]
      rfl
    · cases h
    · cases h

theorem encode_of_takeReset {bs rest : List Byte} {i : Instr} (h : takeReset bs = .ok (i, rest)) :
    i.wf = true ∧ encode i ++ rest = uopWord 4 :: bs := by
  unfold takeReset at h
  split at h
  · next index =>
    cases h
    exact ⟨rfl, congrArg (uopWord 4 :: ·) (takeIndex_eq index)⟩
  · cases h

theorem encode_of_takeMix {bs rest : List Byte} {i : Instr} (h : takeMix bs = .ok (i, rest)) :
    i.wf = true ∧ encode i ++ rest = uopWord 5 :: bs := by
  unfold takeMix at h
  split at h
  · next words =>
    cases h
    refine ⟨rfl, ?_⟩
    rw [← (takeWords_eq words).1]
    rfl
  · cases h
  · cases h

theorem encode_of_decodeUop {b : Byte} {bs rest : List Byte} {i : Instr} (h : decodeUop b bs = .ok (i, rest)) :
    i.wf = true ∧ encode i ++ rest = b :: bs := by
  unfold decodeUop at h
  split at h
  · split at h
    · next op =>
      rw [byte_eq_ofNat op]
      exact encode_of_takePoll h
    · next op =>
      rw [byte_eq_ofNat op]
      exact encode_of_takeRaise h
    · next op =>
      rw [byte_eq_ofNat op]
      exact encode_of_takeConfigure h
    · next op =>
      rw [byte_eq_ofNat op]
      exact encode_of_takeRun h
    · next op =>
      rw [byte_eq_ofNat op]
      exact encode_of_takeReset h
    · next op =>
      rw [byte_eq_ofNat op]
      exact encode_of_takeMix h
    · cases h
  · cases h

/-- A decoded word leaves the bytes after it. -/
theorem decoded_of_map {d : Except DecodeError Instr} {bs rest : List Byte} {i : Instr}
    (h : d.map (·, bs) = .ok (i, rest)) : d = .ok i ∧ bs = rest := by
  cases d with
  | error e => cases h
  | ok j =>
    cases h
    exact ⟨rfl, rfl⟩

/-- Settles O2: each reader of bytes took exactly the bytes that the encoder writes. -/
theorem encodeOfDecode : Obligations.EncodeOfDecode := by
  intro f bs rest i h
  cases bs with
  | nil => cases h
  | cons b bs =>
    cases f with
    | evt t =>
      obtain ⟨decoded, rfl⟩ := decoded_of_map (d := decodeEvt t b) h
      obtain ⟨wf, bytes⟩ := encode_of_decodeEvt decoded
      exact ⟨wf, by rw [bytes]; rfl⟩
    | state =>
      obtain ⟨decoded, rfl⟩ := decoded_of_map (d := decodeState b) h
      obtain ⟨wf, bytes⟩ := encode_of_decodeState decoded
      exact ⟨wf, by rw [bytes]; rfl⟩
    | uop => exact encode_of_decodeUop h

/-- Settles O3: each written word is evaluated by the decoder of its format. -/
theorem writtenWordsDecode : Obligations.WrittenWordsDecode := by
  unfold Obligations.WrittenWordsDecode
  and_intros
  all_goals rfl

/-! ### A step runs what was decoded -/

namespace Machine

theorem step_of_script {s : State} {l : Line} {rest : List Line} (h : s.script = l :: rest) :
    step s = runLine l { s with script := rest } := by
  simp only [step, nextMove, h]

theorem step_of_op {s : State} {bytes bs : List Byte} {rest : List Line} {i : Instr}
    (line : s.script = .op bytes :: rest) (decoded : decode .uop bytes = .ok (i, bs)) :
    step s = exec i { s with script := rest } := by
  rw [step_of_script line]
  simp only [runLine, runDecoded, decoded]

theorem step_of_whole {s : State} {u : UnitId} {rest : List Line} (line : s.script = .move (.unit u .whole) :: rest)
    (between : pend u s = []) : step s = exec (stateRow u s) { s with script := rest } := by
  have between' : pend u { s with script := rest } = [] := by cases u <;> exact between
  have sameRow : stateRow u { s with script := rest } = stateRow u s := by cases u <;> rfl
  rw [step_of_script line, ← sameRow]
  exact moveUnit_whole between'

theorem step_of_handler {s : State} {u : UnitId} {e : Event} {acts : List Act} {rest : List Line}
    (line : s.script = .move (.unit u .handler) :: rest) (polled : pend u s = .dispatch e :: acts) :
    step s = exec (eventRow u e s) (setPend u acts { s with script := rest }) := by
  have polled' : pend u { s with script := rest } = .dispatch e :: acts := by cases u <;> exact polled
  have sameRow : eventRow u e { s with script := rest } = eventRow u e s := by cases u <;> rfl
  rw [step_of_script line, ← sameRow]
  exact moveUnit_handler polled'

/-- Settles O18: a line is taken off the script and run, and the unit's move decodes the word of what it is to do. -/
theorem stepRunsDecoded : Obligations.StepRunsDecoded := by
  refine ⟨fun s u rest i bs line between decoded => ?whole, fun s u rest e acts i bs line polled decoded => ?handler,
    fun s rest bytes bs i line decoded => ?op, fun s m rest line => step_of_script line⟩
  case whole =>
    rw [decode_stateWord] at decoded
    cases decoded
    exact step_of_whole line between
  case handler =>
    rw [decode_evtWord] at decoded
    cases decoded
    exact step_of_handler line polled
  case op => exact step_of_op line decoded

/-! ### A table word, placed -/

theorem tableBytes_cons (nbits w : Nat) : ∃ bs, tableBytes nbits w = (tableBytes nbits w).headD 0 :: bs :=
  ⟨_, rfl⟩

/-- A placed word of the STATE format runs as the row it decodes to. -/
theorem step_placeState {b : Byte} {i : Instr} (h : decodeState b = .ok i) (s : State) :
    ∃ cuState muState cuPend muPend, step (placeState b s) = exec i { s with cuState, muState, cuPend, muPend } := by
  unfold decodeState at h
  split at h
  · split at h <;> cases h
    case h_1 code | h_2 code | h_3 code | h_4 code | h_5 code =>
      rw [placeState, code]
      exact ⟨_, s.muState, [], s.muPend, step_of_whole (u := .cu) rfl rfl⟩
    case h_6 code | h_7 code | h_8 code | h_9 code =>
      rw [placeState, code]
      exact ⟨s.cuState, _, s.cuPend, [], step_of_whole (u := .mu) rfl rfl⟩
  · cases h

/-- A placed word of the EVT format runs as the row it decodes to beside CU_ACTIVE's. -/
theorem step_placeEvent {b : Byte} {i : Instr} (h : decodeEvt .active b = .ok i) (s : State) :
    ∃ cuState muState cuPend muPend, step (placeEvent b s) = exec i { s with cuState, muState, cuPend, muPend } := by
  unfold decodeEvt at h
  unfold placeEvent
  split at h
  · next low =>
    dsimp only at h
    simp only [if_pos low]
    split at h
    · next mu =>
      cases h
      rw [if_pos mu]
      exact ⟨s.cuState, .active, s.cuPend, s.muPend, step_of_handler (u := .mu) rfl rfl⟩
    · next cu =>
      cases h
      rw [if_neg cu]
      exact ⟨.active, s.muState, s.cuPend, s.muPend, step_of_handler (u := .cu) rfl rfl⟩
  · cases h

/-- Settles O19: in each of the three formats the placed line makes the next step decode the same bytes. -/
theorem fetchWordRuns : Obligations.FetchWordRuns := by
  intro s nbits w i h
  obtain ⟨bs, bytes⟩ := tableBytes_cons nbits w
  unfold decodeTableWord at h
  split at h
  · next j rest decoded =>
    cases h
    unfold State.withFetchWord placeWord
    unfold tableFormat at decoded ⊢
    by_cases uop : nbits = 3
    · simp only [if_pos uop] at decoded ⊢
      exact ⟨s.cuState, s.muState, s.cuPend, s.muPend, step_of_op rfl decoded⟩
    · by_cases state : nbits = 4
      · simp only [if_neg uop, if_pos state] at decoded ⊢
        rw [bytes] at decoded
        exact step_placeState (decoded_of_map decoded).1 s
      · simp only [if_neg uop, if_neg state] at decoded ⊢
        rw [bytes] at decoded
        exact step_placeEvent (decoded_of_map decoded).1 s
  · cases h

end Machine

end Sys2Proof
end

section
/-!
The filter engine and the mixer (42_filter_engine.md, 43_motor_mixer.md): CONFIGURE, RUN, RESET and MIX as equations in the
integers of their operands, and O33 to O39.
-/

namespace Sys2Proof

@[simp] theorem Quad.set_set {α : Type} (q : Quad α) (k : Fin 4) (a b : α) : (q.set k a).set k b = q.set k b := by
  match k with
  | 0 | 1 | 2 | 3 => rfl

namespace Machine

/-! ### CONFIGURE -/

theorem floorShift_eq (par : Config.Params) (v : Int) : floorShift par v = v / 2 ^ par.numF := by
  rw [floorShift, fxScale_eq]

/-- The two zero tests decide the last two coefficients together (42_filter_engine.md R164 to R166). -/
theorem derivCoeffs_eq (par : Config.Params) (cfg : PidCfg) (T : Word) :
    derivCoeffs par cfg T =
      let nt := fxMul par cfg.filter T
      let td2 := fxAdd par cfg.td cfg.td
      let den := fxAdd par nt td2
      let g := fxMul par td2 (fxAdd par (one par) cfg.filter)
      ⟨if fxInt par cfg.td = 0 then cfg.kpr else if fxInt par T = 0 then 0
        else fxMul par cfg.kpr (fxDiv par (fxAdd par nt g) den),
       if fxInt par cfg.td = 0 ∨ fxInt par T = 0 then 0 else fxMul par cfg.kpr (fxDiv par (fxSub par nt g) den),
       if fxInt par cfg.td = 0 ∨ fxInt par T = 0 then 0 else fxDiv par (fxSub par nt td2) den⟩ := by
  unfold derivCoeffs
  by_cases td : fxInt par cfg.td = 0
  · simp [td]
  · by_cases period : fxInt par T = 0
    · simp [td, period]
    · simp [td, period]

theorem noIntegral_iff {par : Config.Params} {cfg : PidCfg} {T : Word} :
    noIntegral par cfg T = true ↔ fxInt par cfg.ti = 0 ∨ fxInt par T = 0 := by
  simp [noIntegral]

theorem integralGain_eq (par : Config.Params) (cfg : PidCfg) (T : Word) :
    integralGain par cfg T = if fxInt par cfg.ti = 0 ∨ fxInt par T = 0 then 0
      else fxDiv par (fxMul par cfg.kpr T) (fxAdd par cfg.ti cfg.ti) := by
  simp only [integralGain, noIntegral_iff]

theorem antiWindupGain_eq (par : Config.Params) (cfg : PidCfg) (T : Word) :
    antiWindupGain par cfg T = if fxInt par cfg.ti = 0 ∨ fxInt par T = 0 then 0 else cfg.kaw := by
  simp only [antiWindupGain, noIntegral_iff]

/-- Settles O33: each coefficient is its formula behind its zero test. -/
theorem configureDerives : Obligations.ConfigureDerives := by
  intro s k cfg T n add sub mul div nt td2 den g f
  have instance_eq : feConfigure s.par cfg T = f := by
    simp only [feConfigure, derivCoeffs_eq, integralGain_eq, antiWindupGain_eq, one_eq]
    rfl
  rw [exec_configure, State.filterConfigured, instance_eq]

/-! ### RUN -/

/-- The state after RUN of instance `k`. -/
def State.filterRun (s : State) (k : Fin 4) (x : Word) : State :=
  { s with fe := s.fe.set k (feRun s.par (s.fe.get k) x).1, ret := .word (feRun s.par (s.fe.get k) x).2 }

theorem exec_run {s : State} {k : Fin 4} (configured : (s.fe.get k).state ≠ .unconfigured) (x : Word) :
    exec (.run k x) s = .next (s.filterRun k x) :=
  if_neg configured

/-- Settles O34: the steps are those of `feRun`, its floors written as divisions by `2^NUM_F`. -/
theorem runStepsRecurrence : Obligations.RunStepsRecurrence := by
  intro s k x configured f n q d ii i u y
  rw [exec_run configured]
  simp only [State.filterRun, feRun, floorShift_eq]
  rfl

/-- With ordered bounds the clamp ends between them, whichever test holds. -/
theorem fxInt_clamp_mem {par : Config.Params} {lo hi : Word} (ordered : fxInt par lo ≤ fxInt par hi) (u : Word) :
    fxInt par lo ≤ fxInt par (clamp par u lo hi) ∧ fxInt par (clamp par u lo hi) ≤ fxInt par hi := by
  unfold clamp
  split
  · exact ⟨ordered, Int.le_refl _⟩
  · split
    · exact ⟨Int.le_refl _, ordered⟩
    · omega

/-- Settles O35: the output of RUN is clamped to the instance's bounds. -/
theorem runStaysInBounds : Obligations.RunStaysInBounds := by
  intro s k x configured ordered
  obtain ⟨lower, upper⟩ := fxInt_clamp_mem ordered _
  exact ⟨s.filterRun k x, _, exec_run configured x, rfl, lower, upper⟩

/-! ### RESET -/

theorem exec_reset {s : State} {k : Fin 4} (configured : (s.fe.get k).state ≠ .unconfigured) :
    exec (.reset k) s = .next { s with fe := s.fe.set k (feReset (s.fe.get k)) } :=
  if_neg configured

/-- Settles O36: RESET writes the five history registers of its instance. -/
theorem resetZeroesHistory : Obligations.ResetZeroesHistory := fun _ _ configured => exec_reset configured

/-- Settles O37: both operations test the instance's state first. -/
theorem unconfiguredIsRefused : Obligations.UnconfiguredIsRefused := fun _ _ _ unconfigured =>
  ⟨if_pos unconfigured, if_pos unconfigured⟩

/-- RUN writes no coefficient and no bound, so nothing but the engine state tells a reset instance of a run one. -/
theorem feReset_feRun (par : Config.Params) (f : FilterInst) (x : Word) :
    feReset (feRun par f x).1 = { feReset f with state := .running } := rfl

theorem feReset_foldl_feRun (par : Config.Params) (xs : List Word) {f : FilterInst} (configured : f.state ≠ .unconfigured) :
    ∃ st, st ≠ .unconfigured ∧ feReset (xs.foldl (fun f x => (feRun par f x).1) f) = { feReset f with state := st } := by
  induction xs generalizing f with
  | nil => exact ⟨f.state, configured, rfl⟩
  | cons x xs ih =>
    obtain ⟨st, hst, reset⟩ := ih (f := (feRun par f x).1) nofun
    exact ⟨st, hst, reset.trans (by rw [feReset_feRun])⟩

/-- RUN does not look at the engine state, and leaves FE_RUNNING. -/
theorem feRun_state (par : Config.Params) (f : FilterInst) (st : FeState) (x : Word) :
    feRun par { f with state := st } x = feRun par f x := rfl

theorem feReset_feConfigure (par : Config.Params) (cfg : PidCfg) (T : Word) :
    feReset (feConfigure par cfg T) = feConfigure par cfg T := rfl

/-- Settles O38: the reset instance differs from the fresh one in the engine state alone, which RUN overwrites. -/
theorem resetThenRunIsFresh : Obligations.ResetThenRunIsFresh := by
  intro s k cfg T xs x fresh used
  obtain ⟨st, hst, reset⟩ := feReset_foldl_feRun s.par xs (f := fresh) nofun
  have usedState : used.state = st := congrArg FilterInst.state reset
  have h1 := exec_reset (s := { s with fe := s.fe.set k used }) (k := k) (by simpa [usedState] using hst)
  have h2 := exec_run (s := { s with fe := (s.fe.set k used).set k (feReset ((s.fe.set k used).get k)) }) (k := k)
    (by simpa [feReset, usedState] using hst) x
  have h3 := exec_run (s := { s with fe := s.fe.set k fresh }) (k := k) (by simp [fresh, feConfigure]) x
  refine ⟨_, _, _, h1, h2, h3, ?_⟩
  have same : feRun s.par (feReset used) x = feRun s.par fresh x := by
    rw [reset, feRun_state, feReset_feConfigure]
  simp only [State.filterRun, Quad.get_set, Quad.set_set, if_true, same]

/-! ### MIX -/

theorem exec_mix (t r p y : Word) (s : State) :
    exec (.mix t r p y) s = .next { s with ret := .duties (mixDuties s.par t r p y) } := rfl

/-- A lane is clamped like any duty value. -/
theorem mixLane_toNat {par : Config.Params} (ok : par.ok = true) (sum : Int) :
    ((mixLane par sum).toNat : Int) =
      if (par.dutyBase.toNat : Int) + sum / 2 ^ par.numF < par.dutyMin.toNat then (par.dutyMin.toNat : Int)
      else if (par.dutyMax.toNat : Int) < par.dutyBase.toNat + sum / 2 ^ par.numF then (par.dutyMax.toNat : Int)
      else par.dutyBase.toNat + sum / 2 ^ par.numF := by
  rw [mixLane, clampDuty_toNat ok, floorShift_eq]

theorem mixLane_zero {par : Config.Params} (ok : par.ok = true) : mixLane par 0 = par.dutyBase := by
  obtain ⟨base, max, -⟩ := dutyParams_of_ok ok
  have value := mixLane_toNat ok 0
  rw [Int.zero_ediv, Int.add_zero, if_neg (by omega), if_neg (by omega)] at value
  exact BitVec.eq_of_toNat_eq (by omega)

/-- Settles O39: each lane is the clamp of the baseline and the floor of its sum, and a zero sum leaves the baseline. -/
theorem mixAddsLanes : Obligations.MixAddsLanes := by
  intro s t r p y ok n lane
  refine ⟨⟨_, _, _, _, exec_mix t r p y s, mixLane_toNat ok _, mixLane_toNat ok _, mixLane_toNat ok _,
    mixLane_toNat ok _⟩, ?_⟩
  simp only [exec_mix, mixDuties, fxInt_zero, Int.add_zero, Int.sub_zero, mixLane_zero ok]

end Machine

end Sys2Proof
end

section
/-!
The event channels, the host and the timers (41_event_channel.md, 46_host_and_timers.md): what a set latch holds, O25, O26,
O58, O59, and the host's byte view, O7.
-/

namespace Sys2Proof.Machine

/-! ### A code set on a latch -/

theorem PerChannel.set_set {α : Type} (p : PerChannel α) (ch : Channel) (a b : α) :
    (p.set ch a).set ch b = p.set ch b := by
  cases ch <;> rfl

theorem latchSet_get_of_ne {c ch : Channel} (h : c ≠ ch) (e : Event) (s : State) :
    (latchSet ch e s).latch.get c = s.latch.get c ∧ (latchSet ch e s).ovr.get c = s.ovr.get c := by
  simp [latchSet, h]

theorem latchSet_get_of_empty {ch : Channel} {s : State} (empty : s.latch.get ch = .none) (e : Event) :
    (latchSet ch e s).latch.get ch = e ∧ (latchSet ch e s).ovr.get ch = s.ovr.get ch := by
  simp [latchSet_of_empty empty]

theorem latchSet_get_of_full {ch : Channel} {s : State} (full : s.latch.get ch ≠ .none) (e : Event) :
    ((latchSet ch e s).latch.get ch = s.latch.get ch ∨ (latchSet ch e s).latch.get ch = e) ∧
      (latchSet ch e s).ovr.get ch = true := by
  refine ⟨?_, by simp [latchSet, ovrAfter, full]⟩
  simp only [latchSet, PerChannel.get_set, if_true]
  exact latchAfter_or _ _ _

/-- A RAISE with a channel in its route sets its code there. -/
theorem raiseEvent_latchSet {e : Event} {ch : Channel} (route : routeChannel e = some ch) (s : State) :
    (raiseEvent e s).latch = (latchSet ch e s).latch ∧ (raiseEvent e s).ovr = (latchSet ch e s).ovr := by
  rw [raiseEvent_latch, raiseEvent_ovr, route]
  exact ⟨rfl, rfl⟩

theorem raiseEvent_get_of_not_routed {e : Event} {c : Channel} (h : routeChannel e ≠ some c) (s : State) :
    (raiseEvent e s).latch.get c = s.latch.get c ∧ (raiseEvent e s).ovr.get c = s.ovr.get c := by
  cases route : routeChannel e with
  | none =>
    rw [raiseEvent_latch, raiseEvent_ovr, route]
    exact ⟨rfl, rfl⟩
  | some ch =>
    obtain ⟨latch, ovr⟩ := raiseEvent_latchSet route s
    have other : c ≠ ch := fun same => h (same ▸ route)
    rw [latch, ovr]
    exact latchSet_get_of_ne other e s

theorem routeHost_iff (e : Event) : routeHost e = true ↔ e ∈ [Event.controllerReady, .motorReady, .debug] := by
  cases e <;> decide

/-- Only named events go to the host. -/
theorem eventNamed_of_routeHost {e : Event} (h : routeHost e = true) : eventNamed e = true := by
  cases e
  case controllerReady | motorReady | debug => rfl
  all_goals cases h

theorem raiseEvent_hostPend_get (e f : Event) (s : State) :
    (raiseEvent e s).hostPend.get f = (s.hostPend.get f || (routeHost e && decide (f = e))) := by
  rw [raiseEvent_hostPend]
  cases host : routeHost e with
  | false => simp
  | true =>
    by_cases same : f = e <;> simp [same, eventNamed_of_routeHost host]

/-- Settles O25: a RAISE is the code set on the latch of its route's channel, and the host's bit. -/
theorem raiseRoutes : Obligations.RaiseRoutes := by
  refine ⟨⟨rfl, rfl, rfl, rfl, rfl, rfl, rfl, rfl, rfl, by decide, routeHost_iff⟩, fun s e => ?_⟩
  refine ⟨raiseEvent e s, rfl, ?frame, fun ch other => raiseEvent_get_of_not_routed other s, fun ch route empty => ?empty,
    fun ch route full => ?full, fun f => raiseEvent_hostPend_get e f s⟩
  case frame =>
    obtain ⟨_, _, _, _, frame⟩ := raiseEvent_frame e s
    rw [frame]
  case empty =>
    obtain ⟨latch, ovr⟩ := raiseEvent_latchSet route s
    rw [latch, ovr]
    exact latchSet_get_of_empty empty e
  case full =>
    obtain ⟨latch, ovr⟩ := raiseEvent_latchSet route s
    rw [latch, ovr]
    exact latchSet_get_of_full full e

/-- Settles O26: the empty latch takes the code without a mark, and the polls find it and then nothing. -/
theorem raiseThenPoll : Obligations.RaiseThenPoll := by
  intro s e ch route empty
  obtain ⟨latch, ovr⟩ := raiseEvent_latchSet route s
  rw [latchSet_of_empty empty] at latch ovr
  refine ⟨raiseEvent e s, (raiseEvent e s).polled ch, ((raiseEvent e s).polled ch).polled ch, rfl,
    exec_poll_of_owner rfl _, exec_poll_of_owner rfl _, ?first, ?second, ?latch, ovr⟩
  case first => simp [State.polled, latch]
  case second => rw [State.polled_polled]
  case latch =>
    simp only [State.polled, latch, PerChannel.set_set]
    exact PerChannel.set_eq_self empty

/-! ### The host -/

/-- The events the host raises (46_host_and_timers.md R273). -/
theorem hostRaise_of_mem {e : Event} (h : e ∈ [Event.newData, .setArmed, .clearArmed, .controllerStop]) (s : State) :
    hostRaise e s = .next (raiseEvent e s) := by
  simp only [List.mem_cons, List.not_mem_nil, or_false] at h
  obtain rfl | rfl | rfl | rfl := h
  all_goals rfl

theorem hostRaise_of_not_mem {e : Event} (h : e ∉ [Event.newData, .setArmed, .clearArmed, .controllerStop]) (s : State) :
    hostRaise e s = .refused .noSuchMove := by
  cases e
  case newData | setArmed | clearArmed | controllerStop => exact absurd (by decide) h
  all_goals rfl

theorem hostAck_of_named {e : Event} (h : eventNamed e = true) (s : State) :
    hostAck e s = .next { s with hostPend := s.hostPend.set e false } := if_pos h

theorem hostInject_of_code {s : State} (allowed : s.par.mayInject = true) (ch : Channel) {e : Event} (code : e ≠ .none) :
    hostInject ch e s = .next (latchSet ch e s) := by
  simp [hostInject, allowed, code]

/-- Settles O58: each move is one operation behind its guard. -/
theorem hostMovesAct : Obligations.HostMovesAct := by
  intro s
  refine ⟨fun e mem => hostRaise_of_mem mem s, fun e notMem => hostRaise_of_not_mem notMem s, fun e named => ?ack,
    fun ch e allowed code => ?inject, fun e unnamed => ?noAck, fun ch allowed => ?noCode, fun ch e off => if_pos off, ?cu,
    ?mu⟩
  case ack =>
    refine ⟨_, hostAck_of_named named s, rfl, fun f => ?_⟩
    by_cases same : f = e <;> simp [same, named]
  case inject =>
    refine ⟨latchSet ch e s, hostInject_of_code allowed ch code, ?_, fun empty => latchSet_get_of_empty empty e,
      fun full => latchSet_get_of_full full e⟩
    simp [latchSet]
  case noAck => simp [doMove, hostAck, unnamed]
  case noCode => simp [doMove, hostInject, allowed]
  case cu =>
    by_cases held : s.cuState = .held <;> simp [doMove, hostStart, held]
  case mu =>
    by_cases held : s.muState = .held <;> simp [doMove, hostStart, held]

/-! ### The timers -/

theorem timerPAdvance_of_running {s : State} {n : Nat} (running : s.tmrP.run = true) (one : 1 ≤ n)
    (short : n < s.par.pwmPeriod.toNat) : timerPAdvance n s = .next (advancePwm n s) := by
  have move : ¬(n = 0 ∨ s.par.pwmPeriod.toNat ≤ n) := by omega
  simp only [timerPAdvance, if_neg move, running, if_true]

/-- Settles O59: each timer's move tests its enable bit, and the counter wraps at the period. -/
theorem timersFire : Obligations.TimersFire := by
  intro s
  refine ⟨fun en => if_pos en, fun off => ?off, fun n out => if_pos out, fun n stopped one short => ?stopped,
    fun n running one short inPeriod => ?advance⟩
  case off => simp [doMove, timerSFire, off]
  case stopped =>
    have move : ¬(n = 0 ∨ s.par.pwmPeriod.toNat ≤ n) := by omega
    simp [doMove, timerPAdvance, move, stopped]
  case advance =>
    have fits := s.par.pwmPeriod.isLt
    refine ⟨advancePwm n s, timerPAdvance_of_running running one short, fun below => ?_, fun wraps => ?_⟩
    · have counter : s.tmrP.cnt.toNat + n < 2 ^ 32 := by omega
      have notWraps : ¬(s.tmrP.cnt.toNat + n ≥ s.par.pwmPeriod.toNat) := by omega
      simp only [advancePwm, if_neg notWraps]
      exact ⟨trivial, by rw [BitVec.toNat_ofNat, Nat.mod_eq_of_lt counter]⟩
    · have counter : s.tmrP.cnt.toNat + n - s.par.pwmPeriod.toNat < 2 ^ 32 := by omega
      simp only [advancePwm, if_pos (show s.tmrP.cnt.toNat + n ≥ s.par.pwmPeriod.toNat from wraps), raiseEvent_tmrP]
      refine ⟨?_, rfl⟩
      rw [BitVec.toNat_ofNat, Nat.mod_eq_of_lt counter]
      omega

/-! ### The host's byte view -/

/-- A byte of a word is a byte of the SCB, the least significant at the lowest offset (20_memory.md R73). -/
theorem byteOfWord_memRead {i : Nat} (h : i < 4) (n : Nat) (s : State) :
    byteOfWord (memRead n s) i = readByte (4 * n + i) s := by
  have bytes := wordBytes_wordOfBytes (readByte (4 * n) s) (readByte (4 * n + 1) s) (readByte (4 * n + 2) s)
    (readByte (4 * n + 3) s)
  simp only [wordBytes, List.cons.injEq, and_true] at bytes
  obtain ⟨b0, b1, b2, b3⟩ := bytes
  obtain rfl | rfl | rfl | rfl : i = 0 ∨ i = 1 ∨ i = 2 ∨ i = 3 := by omega
  · exact b0
  · exact b1
  · exact b2
  · exact b3

/-- An aligned access of 32 bits in or above the SCB is the access of its word. -/
theorem hostAccess_word {s : State} (aligned : s.par.scbBase % 4 = 0) (n : Nat) (access : Nat → Out) :
    hostAccess (s.par.scbBase + 4 * n) 4 s access = access n := by
  have offset : s.par.scbBase + 4 * n - s.par.scbBase = 4 * n := by omega
  have h : ¬((s.par.scbBase + 4 * n) % 4 ≠ 0 ∨ 4 * n % 4 ≠ 0) := by omega
  have inside : ¬ s.par.scbBase + 4 * n < s.par.scbBase := by omega
  have word : 4 * n / 4 = n := by omega
  simp only [hostAccess, offset, if_neg h, if_neg inside, word, ne_eq, not_true_eq_false, if_false]

/-- Every other access is refused, for the same reason whatever it would do (20_memory.md R71, R74). -/
theorem hostAccess_refused {s : State} {addr bytes : Nat}
    (h : bytes ≠ 4 ∨ addr % 4 ≠ 0 ∨ addr < s.par.scbBase ∨ s.par.scbBase + 220 ≤ addr) :
    ∃ r, ∀ access : Nat → Out, (∀ n, 55 ≤ n → access n = .refused .outsideScb) →
      hostAccess addr bytes s access = .refused r := by
  by_cases narrow : bytes ≠ 4
  · exact ⟨.narrowAccess, fun access _ => if_pos narrow⟩
  · by_cases misaligned : addr % 4 ≠ 0 ∨ (addr - s.par.scbBase) % 4 ≠ 0
    · exact ⟨.misaligned, fun access _ => by rw [hostAccess, if_neg narrow, if_pos misaligned]⟩
    · refine ⟨.outsideScb, fun access outside => ?_⟩
      rw [hostAccess, if_neg narrow, if_neg misaligned]
      split
      · rfl
      · exact outside _ (by omega)

theorem hostRead_of_outside {n : Nat} (h : 55 ≤ n) (s : State) : hostRead n s = .refused .outsideScb :=
  if_neg (Nat.not_lt.2 h)

theorem hostWrite_of_outside {n : Nat} (h : 55 ≤ n) (v : Word) (s : State) : hostWrite n v s = .refused .outsideScb :=
  if_neg (Nat.not_lt.2 h)

/-- Settles O7: an address is four times its word's offset above SCB_BASE, and every other access fails one of the tests. -/
theorem hostByteAccess : Obligations.HostByteAccess := by
  intro s aligned
  refine ⟨fun n i hn hi => ?byte, fun addr outside => ?noByte, fun n v _ => ?word, fun addr bytes v h => ?refused,
    fun n v outside => ⟨hostRead_of_outside outside s, hostWrite_of_outside outside v s⟩⟩
  case byte =>
    have inside : s.par.scbBase ≤ s.par.scbBase + 4 * n + i ∧
        s.par.scbBase + 4 * n + i < s.par.scbBase + 4 * Config.scbWords := by
      simp only [Config.scbWords]
      omega
    have offset : s.par.scbBase + 4 * n + i - s.par.scbBase = 4 * n + i := by omega
    rw [hostByte, if_pos inside, offset, ← byteOfWord_memRead hi]
    rfl
  case noByte =>
    refine if_neg ?_
    simp only [Config.scbWords]
    omega
  case word =>
    exact ⟨hostAccess_word aligned n fun n => hostRead n s, hostAccess_word aligned n fun n => hostWrite n v s⟩
  case refused =>
    obtain ⟨r, refuses⟩ := hostAccess_refused h
    exact ⟨r, refuses _ fun n outside => hostRead_of_outside outside s,
      refuses _ fun n outside => hostWrite_of_outside outside v s⟩

end Sys2Proof.Machine
end

section
/-!
Reset (10_state.md section 7): the table that power-on and the host's reset leave, O4, and the conditions it meets, O5.
-/

namespace Sys2Proof.Machine

/-- The state after power-on, or after the host's reset, is the table but for the model's own fields. -/
theorem reset_cases {t : State} (h : t = State.reset ∨ ∃ s, doMove .hostReset s = .next t) :
    ∃ par script ret draws scbSeed, t = { State.resetWith par with script, ret, draws, scbSeed } := by
  rcases h with rfl | ⟨s, h⟩
  · exact ⟨.default, [], .nothing, 0, 0, rfl⟩
  · exact ⟨_, _, _, _, _, hostReset_eq h⟩

/-- Settles O4: the fields are those of `State.resetWith`, and no byte of `pid_output` is listed. -/
theorem resetLeavesTable : Obligations.ResetLeavesTable := by
  refine ⟨fun s => ⟨_, rfl, rfl⟩, fun t h => ?_⟩
  obtain ⟨par, script, ret, draws, scbSeed, rfl⟩ := reset_cases h
  refine ⟨fun k => Quad.get_fill _ k, rfl, rfl, rfl, rfl, rfl, rfl, rfl, fun ch => ?channels, fun e => ?pending,
    fun m => ⟨Quad.get_fill _ m, Quad.get_fill _ m⟩, rfl, rfl, memRead_of_unwritten rfl (by decide),
    memRead_of_unwritten rfl (by decide), memRead_of_unwritten rfl (by decide), memRead_of_unwritten rfl (by decide)⟩
  case channels => cases ch <;> exact ⟨rfl, rfl⟩
  case pending => cases e <;> rfl

/-- Settles O5: the parameters' order puts DUTY_BASE in range, and the other conditions hold of empty lists. -/
theorem resetMeetsInvariants : Obligations.ResetMeetsInvariants := by
  refine ⟨by decide, by decide, fun par ok => ⟨rfl, ?ranges, rfl, rfl, rfl, ?outputs, rfl⟩⟩
  case ranges =>
    obtain ⟨-, -, period⟩ := dutyParams_of_ok ok
    refine rangesOk_iff.2 ⟨ok, fun m => ?_, Nat.lt_of_le_of_lt (Nat.zero_le _) period⟩
    exact (congrArg _ (Quad.get_fill _ m)).trans (inDutyRange_dutyBase ok)
  case outputs =>
    refine outputsOk_iff.2 ⟨fun n output => ?_, rfl⟩
    rw [memRead_of_unwritten rfl output]
    exact inDutyRange_dutyBase ok

end Sys2Proof.Machine
end

section
/-!
The handlers that read and write the SCB (44_controller_unit.md R210 to R218): what each leaves in its words, O45, O46, O48
and O49, and the shutdown, the wait and the loop, O41, O42, O50 and O52.
-/

namespace Sys2Proof.Machine

/-! ### new-data -/

/-- A handler of the CU takes no new reset content. -/
theorem exec_cuActiveRow_scbSeed {e : Event} {s t : State} (h : exec (cuActiveRow e) s = .next t) :
    t.scbSeed = s.scbSeed := by
  obtain ⟨t', h', frame⟩ := exec_cuActiveRow e s
  cases h.symm.trans h'
  obtain ⟨_, _, _, _, _, _, _, _, _, _, _, _, _, rfl⟩ := frame
  rfl

theorem exec_cuNewData (s : State) : exec .cuNewData s = .next (cuNewData s) := rfl

/-- With the mask's bit clear the new-data handler writes nothing (44_controller_unit.md R216). -/
theorem cuRowWrites_newData (s : State) :
    cuRowWrites .newData s = if (memRead 44 s).getLsbD 0 then snapshotNewData (loadOdometry s) else [] := rfl

/-- The snapshot's words are 45 to 52. -/
theorem snapshotWrites_word {x y : Tri Word} {z phase : Word} {w : WordOff × Word} (h : w ∈ snapshotWrites x y z phase) :
    45 ≤ w.1.val ∧ w.1.val ≤ 52 := by
  simp only [snapshotWrites, List.mem_cons, List.not_mem_nil, or_false] at h
  obtain rfl | rfl | rfl | rfl | rfl | rfl | rfl | rfl := h
  all_goals
    dsimp only
    decide

/-- The published words are 40 to 43. -/
theorem outputWrites_word {out : Quad Word} {w : WordOff × Word} (h : w ∈ outputWrites out) :
    40 ≤ w.1.val ∧ w.1.val ≤ 43 := by
  simp only [outputWrites, List.mem_cons, List.not_mem_nil, or_false] at h
  obtain rfl | rfl | rfl | rfl := h
  all_goals
    dsimp only
    decide

/-- A snapshot changes no byte outside its words. -/
theorem readByte_debugSnapshot {x y : Tri Word} {z phase : Word} {s : State}
    (rising : Memory.risingFrom 0 s.mem = true) {a : Nat} (outside : a < 180 ∨ 212 ≤ a) :
    readByte a (debugSnapshot (snapshotWrites x y z phase) s) = readByte a s := by
  refine (debugSnapshot_wrote _ s).readByte (by rw [debugSnapshot_eq]) rising fun w hw => ?_
  have word := snapshotWrites_word hw
  omega

/-- Settles O45: the handler is the seven reads and, behind the mask's bit, the snapshot. -/
theorem newDataCopiesOdometry : Obligations.NewDataCopiesOdometry := by
  intro s memOk
  have wrote := exec_cuActiveRow_wrote (e := .newData) (exec_cuNewData s)
  have seed := exec_cuActiveRow_scbSeed (e := .newData) (exec_cuNewData s)
  rw [cuRowWrites_newData] at wrote
  refine ⟨cuNewData s, exec_cuNewData s, ?frame, fun clear => ?clear, fun set => ⟨?host, fun a outside => ?bytes⟩⟩
  case frame =>
    rw [cuNewData_eq]
    rfl
  case clear =>
    rw [clear] at wrote
    refine ⟨wrote.1, ?_⟩
    rw [cuNewData_eq, dbgNewData, clear, Bool.or_false]
  case host => rw [cuNewData_eq, dbgNewData, set, Bool.or_true]
  case bytes =>
    rw [set] at wrote
    refine wrote.readByte seed (State.memOk_rising memOk) fun w hw => ?_
    have word := snapshotWrites_word hw
    omega

/-! ### sample-tick -/

theorem exec_cuSampleTick (s : State) : exec .cuSampleTick s = .next (cuSampleTick s) := rfl

/-- Up to its RAISE the sample-tick handler writes words 40 to 43, 53 and 54. -/
theorem samplePublished_wrote (s : State) : Wrote s (samplePublished s) (samplePubWrites s) := by
  refine ⟨samplePublished_mem s, ?_⟩
  rw [samplePublished_eq]

theorem samplePublished_scbSeed (s : State) : (samplePublished s).scbSeed = s.scbSeed := by
  rw [samplePublished_eq]

theorem samplePubWrites_word {s : State} {w : WordOff × Word} (h : w ∈ samplePubWrites s) :
    (40 ≤ w.1.val ∧ w.1.val ≤ 43) ∨ 53 ≤ w.1.val := by
  simp only [samplePubWrites, List.mem_append, List.mem_cons, List.not_mem_nil, or_false] at h
  obtain h | rfl | rfl := h
  · exact .inl (outputWrites_word h)
  · exact .inr (Nat.le_refl 53)
  · exact .inr (Nat.le_succ 53)

/-- The handler's own writes leave `debug_mask` alone. -/
theorem memRead_mask_samplePublished {s : State} (rising : Memory.risingFrom 0 s.mem = true) :
    memRead offDebugMask (raiseEvent .outputReady (samplePublished s)) = memRead 44 s := by
  have raised : memRead offDebugMask (raiseEvent .outputReady (samplePublished s)) = memRead 44 (samplePublished s) :=
    memRead_congr _ (raiseEvent_mem ..) (raiseEvent_par ..) (raiseEvent_scbSeed ..)
  rw [raised]
  refine (samplePublished_wrote s).memRead_of (samplePublished_scbSeed s) rising (P := (· = memRead 44 s)) rfl
    fun w hw same => ?_
  have word := samplePubWrites_word hw
  omega

theorem cuRowWrites_sampleTick {s : State} (rising : Memory.risingFrom 0 s.mem = true) :
    cuRowWrites .sampleTick s =
      samplePubWrites s ++ if (memRead 44 s).getLsbD 1 then snapshotSample (setpoints s) (runFilters (tmrSClearFlag s)).2
        else [] := by
  rw [cuRowWrites, memRead_mask_samplePublished rising, dbgSample]

/-- Settles O46: each word of the snapshot is the last that the handler writes there. -/
theorem snapshotHoldsPhase : Obligations.SnapshotHoldsPhase := by
  intro s t memOk
  have rising := State.memOk_rising memOk
  refine ⟨fun set h => ?newData, fun set h => ?sampleTick⟩
  case newData =>
    have wrote := exec_cuActiveRow_wrote (e := .newData) h
    rw [cuRowWrites_newData, if_pos set] at wrote
    have word := wrote.memRead (exec_cuActiveRow_scbSeed (e := .newData) h) rising
    exact ⟨word 45, word 46, word 47, word 48, word 49, word 50, word 51, word 52⟩
  case sampleTick =>
    have wrote := exec_cuActiveRow_wrote (e := .sampleTick) h
    rw [cuRowWrites_sampleTick rising, if_pos set] at wrote
    have word := wrote.memRead (exec_cuActiveRow_scbSeed (e := .sampleTick) h) rising
    exact ⟨word 45, word 46, word 47, word 48, word 49, word 50, word 51, word 52⟩

theorem cuSampleTick_of_mask_clear {s : State} (rising : Memory.risingFrom 0 s.mem = true)
    (clear : (memRead 44 s).getLsbD 1 = false) : cuSampleTick s = raiseEvent .outputReady (samplePublished s) := by
  rw [cuSampleTick_eq, memRead_mask_samplePublished rising, dbgSample, if_neg (Bool.eq_false_iff.1 clear)]

theorem cuSampleTick_of_mask_set {s : State} (rising : Memory.risingFrom 0 s.mem = true)
    (set : (memRead 44 s).getLsbD 1 = true) :
    cuSampleTick s = debugSnapshot (snapshotSample (setpoints s) (runFilters (tmrSClearFlag s)).2)
      (raiseEvent .outputReady (samplePublished s)) := by
  rw [cuSampleTick_eq, memRead_mask_samplePublished rising, dbgSample, if_pos set]

/-- Settles O49: the state before the RAISE is `samplePublished`, whose writes are MIX's values and the two counters. -/
theorem sampleTickPublishes : Obligations.SampleTickPublishes := by
  intro s memOk r0 r1 r2 r3
  have rising := State.memOk_rising memOk
  have word := (samplePublished_wrote s).memRead (samplePublished_scbSeed s) rising
  refine ⟨samplePublished s, raiseEvent .outputReady (samplePublished s), cuSampleTick s, exec_cuSampleTick s, rfl, ?frame,
    ?mix, fun a outside => ?bytes, cuSampleTick_of_mask_clear rising, fun set => ⟨?host, fun a outside => ?snapshot⟩⟩
  case frame =>
    rw [samplePublished_eq]
    rfl
  case mix =>
    rw [exec_mix, word 40, word 41, word 42, word 43]
    rfl
  case bytes =>
    refine (samplePublished_wrote s).readByte (samplePublished_scbSeed s) rising fun w hw => ?_
    have written := samplePubWrites_word hw
    have last := w.1.isLt
    omega
  case host => rw [cuSampleTick_of_mask_set rising set, debugSnapshot_eq]
  case snapshot =>
    rw [cuSampleTick_of_mask_set rising set]
    refine readByte_debugSnapshot ?_ outside
    rw [raiseEvent_mem]
    exact (samplePublished_wrote s).rising rising

/-! ### clear-armed -/

/-- The state in which the clear-armed handler raises `output-ready` (44_controller_unit.md R218). -/
def State.disarmed (s : State) : State :=
  { s with
    tmrS := { s.tmrS with en := false }
    fe := s.fe.map feReset
    mem := (memWriteAll (outputWrites (.fill s.par.dutyBase)) s).mem }

theorem exec_cuClearArmed (s : State) : exec .cuClearArmed s = .next (raiseEvent .outputReady s.disarmed) :=
  congrArg Host.Outcome.next (cuClearArmed_eq s)

theorem State.disarmed_wrote (s : State) : Wrote s s.disarmed (outputWrites (.fill s.par.dutyBase)) := ⟨rfl, rfl⟩

/-- Settles O48: the handler's state before its RAISE is `State.disarmed`. -/
theorem clearArmedPublishesBaseline : Obligations.ClearArmedPublishesBaseline := by
  intro s memOk
  have rising := State.memOk_rising memOk
  have word := s.disarmed_wrote.memRead rfl rising
  refine ⟨s.disarmed, raiseEvent .outputReady s.disarmed, exec_cuClearArmed s, rfl, rfl, fun k => Quad.get_map feReset s.fe k,
    word 40, word 41, word 42, word 43, fun a outside => ?bytes, fun a => ?raised, fun empty => ?taken⟩
  case bytes =>
    refine s.disarmed_wrote.readByte rfl rising fun w hw => ?_
    have written := outputWrites_word hw
    omega
  case raised => exact readByte_congr a (raiseEvent_mem ..) (raiseEvent_par ..) (raiseEvent_scbSeed ..)
  case taken =>
    have route := (raiseEvent_latchSet (e := .outputReady) (ch := .muCtl) rfl s.disarmed).1
    exact (congrArg (·.get Channel.muCtl) route).trans (latchSet_get_of_empty (ch := .muCtl) (s := s.disarmed) empty _).1

/-! ### Steps and codes that change little -/

/-- Settles O41: these steps, and the MU's handler of `none`, answer the state they are given. -/
theorem heldAndHaltedTakeNoStep : Obligations.HeldAndHaltedTakeNoStep := fun _ => ⟨rfl, rfl, rfl, rfl, rfl⟩

/-- Settles O42: each row listed answers the state that the poll left. -/
theorem awaitDiscards : Obligations.AwaitDiscards := by
  intro s i mem
  simp only [List.mem_cons, List.not_mem_nil, or_false] at mem
  obtain rfl | rfl | rfl | rfl | rfl | rfl | rfl | rfl | rfl | rfl | rfl | rfl | rfl | rfl | rfl := mem
  all_goals rfl

/-- Settles O50: the handler is the shutdown sequence, whose RAISE reaches the host alone. -/
theorem motorReadyShutsDown : Obligations.MotorReadyShutsDown := by
  intro s
  have handler : exec .cuMotorReady s = .next (cuShutdown s) := rfl
  rw [handler, cuShutdown]
  rfl

/-- Settles O52: the poll of each channel is the update of its latch, and every row answers a next state. -/
theorem cuActiveIterates : Obligations.CuActiveIterates := by
  intro s
  obtain ⟨t1, ctl, -⟩ := exec_cuActiveRow (pollChannel .cuCtl s).1 (pollChannel .cuCtl s).2
  by_cases active : t1.cuState = .active
  · obtain ⟨t, tick, -⟩ := exec_cuActiveRow (pollChannel .cuTick t1).1 (pollChannel .cuTick t1).2
    refine ⟨t1, t, ctl, fun _ => tick, fun left => absurd active left, ?_⟩
    rw [exec_stepCuActive, ctl]
    simp only [andThen, if_pos active, tick]
  · refine ⟨t1, t1, ctl, fun h => absurd h active, fun _ => rfl, ?_⟩
    rw [exec_stepCuActive, ctl]
    simp only [andThen, if_neg active]

end Sys2Proof.Machine
end

section
/-!
The MU's loop and its first step (45_motor_unit.md R241, R242, R249), O53 and O57; two runs of both units: the torn record
(20_memory.md R83), O22, and the stop cascade (60_exceptions.md R305), O23.
-/

namespace Sys2Proof.Machine

/-! ### The compare step -/

theorem compareMotor_frame (m : Fin 4) (s : State) : compareMotor m s = { s with pin := (compareMotor m s).pin } := by
  unfold compareMotor
  split <;> rfl

theorem pinMask_getLsbD (m k : Fin 4) : (pinMask m).getLsbD k.val = decide (k = m) := by
  revert m k
  decide

/-- The compare of one motor lowers its pin where the counter has reached its duty value. -/
theorem compareMotor_pin_get (m k : Fin 4) (s : State) :
    (compareMotor m s).pin.get k =
      (s.pin.get k && (decide (k ≠ m) || decide (s.tmrP.cnt.toNat < (s.duty.get m).toNat))) := by
  unfold compareMotor tmrPRead
  split
  · next reached =>
    rw [deassertPins_pin_get, pinMask_getLsbD]
    simp [Nat.not_lt.2 reached]
  · next below => simp [Nat.not_le.1 below]

theorem compareStep_frame (s : State) : compareStep s = { s with pin := (compareStep s).pin } := by
  unfold compareStep
  rw [compareMotor_frame 3, compareMotor_frame 2, compareMotor_frame 1, compareMotor_frame 0]

theorem compareStep_pin_get (k : Fin 4) (s : State) :
    (compareStep s).pin.get k = (s.pin.get k && decide (s.tmrP.cnt.toNat < (s.duty.get k).toNat)) := by
  have same : ∀ m x, (compareMotor m x).tmrP = x.tmrP ∧ (compareMotor m x).duty = x.duty := fun m x => by
    rw [compareMotor_frame]
    exact ⟨rfl, rfl⟩
  simp only [compareStep, compareMotor_pin_get, same]
  match k with
  | 0 | 1 | 2 | 3 => simp

/-- Settles O53: the polls are the updates of the latches, and the compare step tests each pin's own motor. -/
theorem muActiveIterates : Obligations.MuActiveIterates := by
  intro s
  obtain ⟨t1, ctl, -⟩ := exec_muRow (pollChannel .muCtl s).1 (pollChannel .muCtl s).2
  have tick : ∃ t2, (t1.muState = .active → exec (muRow (pollChannel .muTick t1).1) (pollChannel .muTick t1).2 = .next t2) ∧
      (t1.muState ≠ .active → t2 = t1) := by
    by_cases active : t1.muState = .active
    · obtain ⟨t2, tick, -⟩ := exec_muRow (pollChannel .muTick t1).1 (pollChannel .muTick t1).2
      exact ⟨t2, fun _ => tick, fun left => absurd active left⟩
    · exact ⟨t1, fun h => absurd h active, fun _ => rfl⟩
  obtain ⟨t2, polled, left⟩ := tick
  refine ⟨t1, t2, if t2.muState = .active then compareStep t2 else t2, ctl, polled, left, fun active => ?compared,
    fun h => if_neg h, ?step⟩
  case compared =>
    rw [if_pos active]
    exact ⟨compareStep_frame t2, fun m => compareStep_pin_get m t2⟩
  case step =>
    rw [exec_stepMuActive, ctl]
    by_cases active : t1.muState = .active
    · simp only [andThen, if_pos active, polled active]
    · simp only [andThen, if_neg active, left active]

/-- Settles O57: the RAISE writes neither the timer nor the SCB. -/
theorem muBootStarts : Obligations.MuBootStarts := by
  intro s
  refine ⟨raiseEvent .motorReady s, rfl, ?_⟩
  have step : exec .stepMuBoot s =
      .next { loadDuty (tmrPConfigure (raiseEvent .motorReady s)) with muState := .active } := rfl
  rw [step, loadDuty_eq]
  rfl

/-! ### The torn record -/

/-- Both units in their loops and `output-ready` latched, as the CU is about to publish the next record
(95_test_vectors.md section 2.8). -/
def tornStart : State :=
  { State.reset with
    cuState := .active
    muState := .active
    cuPend := writeActs (outputWrites ⟨1500, 1400, 1300, 1200⟩) ++ [.raise .outputReady]
    latch := ⟨.none, .none, .outputReady, .none⟩ }

/-- Settles O22: from `tornStart` the MU's poll, dispatch and four reads fall between the CU's second and third write. -/
theorem tornRecordAdmitted : Obligations.TornRecordAdmitted :=
  ⟨tornStart, rfl, rfl, rfl, rfl, by decide, by decide, by decide, by decide⟩

/-! ### The stop cascade -/

theorem muRow_mem_muExitRows {e : Event} (h : e ∉ [.none, .outputReady, .pwmTick]) : muRow e ∈ muExitRows := by
  revert h
  cases e <;> decide

theorem cuActiveRow_mem_motorStopRows {e : Event}
    (h : e ∈ [.motorStop, .controllerStop, .controllerReady, .outputReady, .debug, .pwmTick, .reserved12, .reserved13,
      .reserved14, .reserved15]) : cuActiveRow e ∈ motorStopRows := by
  revert h
  cases e <;> decide

/-- The state the MU leaves when it exits with nothing else latched: `motor-ready` waits at the CU and at the host. -/
def State.muStopped (s : State) : State :=
  { s with
    latch := ⟨.motorReady, .none, .none, .none⟩
    pin := ⟨false, false, false, false⟩
    hostPend := { s.hostPend with motorReady := true }
    muState := .halt }

theorem raiseEvent_motorReady_of_empty {s : State} (empty : s.latch = ⟨.none, .none, .none, .none⟩) :
    raiseEvent .motorReady s =
      { s with latch := ⟨.motorReady, .none, .none, .none⟩, hostPend := { s.hostPend with motorReady := true } } := by
  have route : raiseEvent .motorReady s = hostSignal .motorReady (latchSet .cuCtl .motorReady s) := rfl
  rw [route, latchSet_of_empty (ch := .cuCtl) (congrArg PerChannel.cuCtl empty), empty]
  rfl

theorem muExit_of_empty {s : State} (empty : s.latch = ⟨.none, .none, .none, .none⟩) : muExit s = s.muStopped := by
  have low : ({ s with pin := ⟨false, false, false, false⟩ } : State).latch = ⟨.none, .none, .none, .none⟩ := empty
  rw [muExit_eq, raiseEvent_motorReady_of_empty low]
  rfl

/-- `motor-stop`, or a code the MU does not expect, halts the MU in one step (45_motor_unit.md R247, R248). -/
theorem moveUnit_mu_stops {s : State} {e : Event} (active : s.muState = .active) (between : s.muPend = [])
    (latched : s.latch = ⟨.none, .none, e, .none⟩) (stops : e ∉ [.none, .outputReady, .pwmTick]) :
    moveUnit .mu .whole s = .next s.muStopped := by
  have row : stateRow .mu s = .stepMuActive := by rw [stateRow, active]
  have polled : pollChannel .muCtl s = (e, { s with latch := ⟨.none, .none, .none, .none⟩ }) := by
    rw [pollChannel, latched]
    rfl
  rw [moveUnit_whole (u := .mu) between, row, exec_stepMuActive, polled, exec_of_mem_muExitRows (muRow_mem_muExitRows stops),
    muExit_of_empty rfl]
  rfl

/-- `motor-ready` halts the CU in one step (44_controller_unit.md R219). -/
theorem moveUnit_cu_shutsDown {s : State} (active : s.cuState = .active) (between : s.cuPend = [])
    (latched : s.latch.cuCtl = .motorReady) :
    moveUnit .cu .whole s = .next (cuShutdown (pollChannel .cuCtl s).2) := by
  have row : stateRow .cu s = .stepCuActive := by rw [stateRow, active]
  have polled : (pollChannel .cuCtl s).1 = .motorReady := latched
  rw [moveUnit_whole (u := .cu) between, row, exec_stepCuActive, polled]
  rfl

/-- A stop, or a code the CU does not expect, becomes `motor-stop` at the MU (44_controller_unit.md R215, R220). -/
theorem moveUnit_cu_forwardsStop {s : State} {e : Event} (active : s.cuState = .active) (between : s.cuPend = [])
    (latched : s.latch = ⟨e, .none, .none, .none⟩) (row : cuActiveRow e ∈ motorStopRows) :
    moveUnit .cu .whole s = .next { s with latch := ⟨.none, .none, .motorStop, .none⟩ } := by
  have step : stateRow .cu s = .stepCuActive := by rw [stateRow, active]
  have polled : pollChannel .cuCtl s = (e, { s with latch := ⟨.none, .none, .none, .none⟩ }) := by
    rw [pollChannel, latched]
    rfl
  rw [moveUnit_whole (u := .cu) between, step, exec_stepCuActive, polled, exec_of_mem_motorStopRows row,
    latchSet_of_empty (ch := .muCtl) rfl]
  exact if_pos active

/-- The cascade from the MU's stop on: the MU exits, and the `motor-ready` it raises shuts the CU down. -/
theorem cascade_of_mu_stop {s : State} {e : Event} (cuActive : s.cuState = .active) (muActive : s.muState = .active)
    (cuBetween : s.cuPend = []) (muBetween : s.muPend = []) (latched : s.latch = ⟨.none, .none, e, .none⟩)
    (stops : e ∉ [.none, .outputReady, .pwmTick]) :
    ∃ s2 t, doMove (.unit .mu .whole) s = .next s2 ∧ doMove (.unit .cu .whole) s2 = .next t ∧
      t.cuState = .halt ∧ t.muState = .halt ∧ t.pin = ⟨false, false, false, false⟩ ∧ t.tmrS.en = false ∧
      t.hostPend.motorReady = true ∧ t.hostPend.controllerReady = true ∧ t.mem = s.mem ∧ t.ovr = s.ovr :=
  ⟨s.muStopped, _, moveUnit_mu_stops muActive muBetween latched stops, moveUnit_cu_shutsDown cuActive cuBetween rfl,
    rfl, rfl, rfl, rfl, rfl, rfl, rfl, rfl⟩

/-- Settles O23: a stop at the CU becomes `motor-stop` at the MU, from where the cascade is the MU's. -/
theorem stopCascade : Obligations.StopCascade := by
  intro s e cuActive muActive cuBetween muBetween
  refine ⟨fun latched stops => ?_, cascade_of_mu_stop cuActive muActive cuBetween muBetween⟩
  have first := moveUnit_cu_forwardsStop cuActive cuBetween latched (cuActiveRow_mem_motorStopRows stops)
  obtain ⟨s2, t, second, third, ends⟩ := cascade_of_mu_stop
    (s := { s with latch := ⟨.none, .none, .motorStop, .none⟩ }) cuActive muActive cuBetween muBetween rfl (by decide)
  exact ⟨_, s2, t, first, second, third, cuActive, rfl, ends⟩

end Sys2Proof.Machine
end
